-- ==== Sys2Proof/Word.lean ====
section
/-! DEFINITION. The plain data the machine is made of: register words, exact complex numbers, samples,
and the finite sets of names (states, tables, labels, error causes, registers) the spec gives codes to. -/

namespace Sys2Proof

/-- A 32-bit word of the host register bus (20_memory.md R53). -/
abbrev Word32 := BitVec 32

/-- A host command word, 64 bits (30_encoding.md R72). -/
abbrev Hcw := BitVec 64

/-- A symbol word, unsigned 16 bits (30_encoding.md R88). -/
abbrev SymbolWord := BitVec 16

/-- A phase in units of 1/65536 turn: the phase `a` stands for `exp(j·2π·a/65536)`. `N = 2^SF` divides
65536 for every legal SF (00_scope.md R7, R8), and phases wrap at a whole turn, so 16 bits hold every
phase the ideal tables and the DFT need. -/
abbrev Phase := BitVec 16

/-- A sum of roots of unity: `c·exp(j·2π·a/65536)` over its entries `(a, c)` with rational `c`.
Canonical form: phases below half a turn, strictly rising, no zero coefficient. -/
abbrev RootSum := List (Phase × ℚ)

/-- A product of given real numbers, by their numbers, in rising order: `[0, 0, 3]` is `ρ₀²·ρ₃`. The given
reals `ρ₀, ρ₁, …` may be any real numbers at all (Sys2Proof/Reals.lean, log entry 3). -/
abbrev Monomial := List Nat

/-- An exact complex number, the sum of `m·z` over its entries `(m, z)`: the exact complex numbers of the
ideal semantics (00_scope.md R10, R17). Any complex number is `ρ₀ + j·ρ₁` for some reals. Canonical form:
monomials strictly rising, each sum of roots canonical and not 0. -/
abbrev ExactNum := List (Monomial × RootSum)

/-- The real number `base + factor·ρ` for the given real `ρ` numbered `index`. -/
structure RealNum where
  base : ℚ
  factor : ℚ
  index : Nat
  deriving DecidableEq, Repr

/-- A rational number. -/
def RealNum.ofRat (x : ℚ) : RealNum := ⟨x, 0, 0⟩

/-- The opposite number. -/
def RealNum.neg (x : RealNum) : RealNum := ⟨-x.base, -x.factor, x.index⟩

/-- A complex sample. `word` is the 64-bit sample word of 30_encoding.md R87 (I in bits 31:0, Q in
bits 63:32). `exact` is a value of the ideal semantics, which need not be representable in a word. -/
inductive Sample where
  | word (w : BitVec 64)
  | exact (z : ExactNum)
  deriving DecidableEq, Repr, Inhabited

/-- The five sequencer states (10_state.md R26, 30_encoding.md R83). -/
inductive SeqState where
  | framesync
  | downchirp0
  | downchirp1
  | quarterchirp
  | datasymbols
  deriving DecidableEq, Repr

/-- The two chirp tables (10_state.md R37). -/
inductive ChirpRef where
  | up
  | down
  deriving DecidableEq, Repr

/-- The two base offsets `b ∈ {0, N}` of DECHIRP (42_symbol_detector.md R102): the first and the second
N samples of the input window. -/
inductive WinBase where
  | first
  | second
  deriving DecidableEq, Repr

/-- The labels a mirror element can carry (30_encoding.md R84); `blank` is NONE. -/
inductive Label where
  | blank
  | sync
  | dc
  | qc
  | s
  | x
  deriving DecidableEq, Repr

/-- The error causes of STATUS.ERR_CAUSE (60_exceptions.md R180). -/
inductive ErrCause where
  | noError
  | mtuInvalid
  | actUnconfigured
  | busDecode
  | busAlign
  deriving DecidableEq, Repr

/-- The nine mapped registers (30_encoding.md R76). -/
inductive Reg where
  | id
  | ctrl
  | status
  | syncword
  | mtu
  | mtuLatched
  | symcount
  | prevValue
  | mtuMax
  deriving DecidableEq, Repr

/-- One element of a debug mirror: a sample and its label (30_encoding.md R85). -/
structure MirrorElem where
  sample : Sample
  label : Label
  deriving DecidableEq, Repr

/-- One emitted frame: its length and its symbols (30_encoding.md R86). -/
structure Frame where
  length : Nat
  symbols : List SymbolWord
  deriving DecidableEq, Repr

end Sys2Proof
end

