-- ==== Sys2Proof/Reals.lean ====
section
/-! DEFINITION. What exact numbers stand for, and the type of the given real numbers: the real numbers
outside the sums of roots of unity that a claim may be about. -/

namespace Sys2Proof.Machine

/-! ## Exact numbers as complex numbers (00_scope.md R17). No step evaluates these. -/

/-- `exp(j·2π·a/65536)`. -/
noncomputable def phaseVal (a : Phase) : ℂ := Complex.exp (2 * Real.pi * a.toNat / 65536 * Complex.I)

/-- The complex number a sum of roots of unity stands for. -/
noncomputable def rootVal (z : RootSum) : ℂ := (z.map fun t => (t.2 : ℂ) * phaseVal t.1).sum

/-- The real number a monomial stands for, where `ρᵢ` is `v i`. -/
noncomputable def monoVal (v : Nat → ℝ) (m : Monomial) : ℝ := (m.map v).prod

/-- The complex number an exact number stands for, where `ρᵢ` is `v i`. -/
noncomputable def exactVal (v : Nat → ℝ) (z : ExactNum) : ℂ :=
  (z.map fun t => (monoVal v t.1 : ℂ) * rootVal t.2).sum

/-- A choice of the given real numbers, with a bound of each and the sign of every real part they make.
`given` exists for every sequence of reals; `none` gives none, and every `ρᵢ` is then 0. -/
inductive GivenReals where
  | none
  | given (val : Nat → ℝ) (bound : Nat → Nat) (sign : ExactNum → Int)
      (bound_spec : ∀ i, |val i| ≤ bound i)
      (sign_spec : ∀ z, sign z = SignType.sign (exactVal val z).re)
  deriving Inhabited

end Sys2Proof.Machine
end

