-- ==== Sys2Proof/Config.lean ====
section
/-! DEFINITION. What one core instance fixes: the elaboration parameters SF, MTU_MAX and SAMPLE_FMT, the
realisation of its arithmetic, and the OPEN configuration fields and free values, which are constants
without a body. -/

namespace Sys2Proof

/-- SAMPLE_FMT, the number format of a sample word's I and Q parts (00_scope.md R10). `binary32` is the
default; `other k` is the `k`-th other format with 32-bit parts (log entry 26). -/
inductive SampleFmt where
  | binary32
  | other (k : Nat)
  deriving DecidableEq, Repr, Inhabited

/-- Which instances of TABLE, DETECT and `cmul_fmt` a core has (00_scope.md R10-R12): the exact reference
instances, or the `r`-th finite-precision realisation. DESIGN CHOICE, log entry 4: realisations are
numbered, so that instances may differ in every OPEN field. DESIGN CHOICE, log entry 29: the spec does not
say whether ideal and finite-precision instances of the three fields may be mixed in one core; here all three
are ideal or all three are finite-precision. -/
inductive Realisation where
  | ideal
  | finite (r : Nat)
  deriving DecidableEq, Repr, Inhabited

/-- The numbers of one core instance: the format of its sample words and the realisation of its
arithmetic. -/
structure Numerics where
  fmt : SampleFmt
  real : Realisation
  deriving DecidableEq, Repr, Inhabited

/-- The elaboration parameters of one core instance. A value of this type exists only for a legal SF
and a legal MTU_MAX (00_scope.md R7, R9): with any other there is no instance (60_exceptions.md R184 (b)). -/
structure Params where
  sf : Nat
  mtuMax : Nat
  num : Numerics
  sf_low : 2 ≤ sf
  sf_high : sf ≤ 16
  mtuMax_low : 1 ≤ mtuMax
  mtuMax_high : mtuMax ≤ 65535
  deriving DecidableEq, Repr

/-- Elaboration: an instance, or none for an illegal SF or MTU_MAX (70_reset_and_hazards.md R197). -/
def Params.elaborate (sf mtuMax : Nat) (num : Numerics) : Option Params :=
  if h : 2 ≤ sf ∧ sf ≤ 16 ∧ 1 ≤ mtuMax ∧ mtuMax ≤ 65535 then
    some ⟨sf, mtuMax, num, h.1, h.2.1, h.2.2.1, h.2.2.2⟩
  else none

/-- `N = 2^SF`, samples per symbol (00_scope.md R8). -/
def Params.size (p : Params) : Nat := 2 ^ p.sf

/-- The identity string of the spec (00_scope.md R1). -/
def Config.identity : String := "LDC-v7-spec1"

/-! ## The given real numbers -/

/-- The given real numbers `ρ₀, ρ₁, …` (log entry 3). Nothing is known of them, so what holds of the machine
holds whatever real numbers its samples are made of. -/
opaque Config.givenReals : Machine.GivenReals

/-! ## OPEN fields. Each is one constant without a body, applied to the numerics of the instance (log
entry 4), so two instances share one only where they have the same format and realisation. -/

/-- `cmul_fmt` of a finite-precision instance: total and deterministic, otherwise open
(42_symbol_detector.md R104). -/
opaque Config.cmulFmt : Numerics → BitVec 64 → BitVec 64 → BitVec 64

/-- The product of an ideal instance where an operand is no number (a NaN or an infinity on the input
port). The spec states no exact product there (log entry 7). -/
opaque Config.cmulFree : SampleFmt → Sample → Sample → Sample

/-- The rounding to a sample word of an exact value that no word has, which the spec leaves open; in a format
with several words of one value, also which of them stands for it (00_scope.md R10; log entry 25). -/
opaque Config.roundFmt : Numerics → ExactNum → BitVec 64

/-- The real number a part stands for in the `k`-th other format; none where it is no number (log entry 26). -/
opaque Config.partValue : (k : Nat) → BitVec 32 → Option RealNum

/-- The part that the `k`-th other format proposes as the negative of a part (log entry 26). -/
opaque Config.partNeg : (k : Nat) → BitVec 32 → BitVec 32

/-- A part of the `k`-th other format that is a number with an exact negative (log entry 26). -/
opaque Config.plainPart : (k : Nat) → BitVec 32

/-- PHASE_FMT, OPEN for each instance: its values by number (log entry 21), and the starting phase 0
(41_chirp_table.md R94). -/
opaque Config.phaseZero : Numerics → Nat

/-- The i-th phase increment `2π(i + N/2)/N` rounded to PHASE_FMT, OPEN for each instance
(41_chirp_table.md R94). -/
opaque Config.phaseInc : Numerics → (sf : Nat) → (i : Nat) → Nat

/-- The rounded addition of PHASE_FMT, OPEN for each instance (41_chirp_table.md R94). -/
opaque Config.phaseAdd : Numerics → Nat → Nat → Nat

/-- A table entry `exp(j·acc)` as a sample word, OPEN for each instance (41_chirp_table.md R94). -/
opaque Config.phaseExp : Numerics → Nat → BitVec 64

/-- A sample word of the format near unit magnitude, for a format other than binary32 (log entry 26). -/
opaque Config.unitWord : Numerics → BitVec 64

/-- TOL_DET ≥ 0, OPEN for each instance (00_scope.md R13). DESIGN CHOICE, log entry 21: a rational. -/
opaque Config.tolDet : Numerics → ℚ≥0

/-- TOL_TBL ≥ 0, OPEN for each instance (00_scope.md R13). DESIGN CHOICE, log entry 21: a rational. -/
opaque Config.tolTbl : Numerics → ℚ≥0

/-- The energy of bin `m` of a window in a finite-precision detector's own arithmetic, as a number that
orders the bins as that arithmetic does (42_symbol_detector.md R111 (D_tie)). -/
opaque Config.binEnergy : Numerics → (sf : Nat) → (window : List Sample) → (m : Nat) → Nat

/-! ## Free values -/

/-- The free value of a detector window slot that no FEED has written (10_state.md R38, decision D30). -/
opaque Config.freeWindow : (slot : Nat) → Sample

/-- The free value of a BUF entry that holds no appended symbol, one for each time the buffer's
entries became unspecified (10_state.md R39, decision D31). -/
opaque Config.freeSymbol : (epoch : Nat) → (index : Nat) → SymbolWord

/-- The free value of `InWin(k)` where the window is not defined, that is while IN_AVAIL < 2N
(20_memory.md R59). -/
opaque Config.freeInput : (position : Nat) → (k : Nat) → Sample

/-- The free value of a chirp table entry that a table of the wrong length lacks (no run reaches one). -/
opaque Config.freeTable : (i : Nat) → Sample

end Sys2Proof
end

