-- ==== Sys2Proof/Syntax.lean ====
section
/-! DEFINITION. The instructions: one constructor per row of spec/opcode_table.json. -/

namespace Sys2Proof

/-- Every operation of the core. The 18 host commands carry HCW.DATA (on a read and on a write to a
read-only register the field is there and ignored, 30_encoding.md R72); the 5 step operations take
everything from the state (43_state_machine.md R115); the 8 micro-operations carry the operands their
rules name (30_encoding.md R82). -/
inductive Instr where
  -- host commands (30_encoding.md R80)
  | rdId (data : Word32)
  | wrId (data : Word32)
  | rdCtrl (data : Word32)
  | wrCtrl (data : Word32)
  | rdStatus (data : Word32)
  | wrStatus (data : Word32)
  | rdSyncword (data : Word32)
  | wrSyncword (data : Word32)
  | rdMtu (data : Word32)
  | wrMtu (data : Word32)
  | rdMtuLatched (data : Word32)
  | wrMtuLatched (data : Word32)
  | rdSymcount (data : Word32)
  | wrSymcount (data : Word32)
  | rdPrevValue (data : Word32)
  | wrPrevValue (data : Word32)
  | rdMtuMax (data : Word32)
  | wrMtuMax (data : Word32)
  -- step operations (30_encoding.md R81)
  | stepFramesync
  | stepDownchirp0
  | stepDownchirp1
  | stepQuarterchirp
  | stepDatasymbols
  -- micro-operations (30_encoding.md R82)
  | gen
  | dechirp (base : WinBase) (ref : ChirpRef)
  | feed (slot : BitVec 16) (sample : Sample)
  | detect
  | alloc (capacity : BitVec 16)
  | append (index : BitVec 16) (symbol : SymbolWord)
  | emit (length : BitVec 16)
  | discard
  deriving DecidableEq, Repr

end Sys2Proof
end

