-- ==== Sys2Proof/WellFormed.lean ====
section
/-! DEFINITION. Which instruction terms are well formed, by themselves and for one core instance. -/

namespace Sys2Proof

/-- The phases of a sum rise strictly from `lo` on, all below half a turn, with non-zero coefficients. -/
def RootSum.risingFrom (lo : Nat) : RootSum → Bool
  | [] => true
  | (a, c) :: rest =>
    decide (lo ≤ a.toNat) && decide (a.toNat < 32768) && c.num != 0
      && RootSum.risingFrom (a.toNat + 1) rest

/-- The canonical form of a sum of roots of unity: equal sums are then equal data. -/
def RootSum.canonical (z : RootSum) : Bool := RootSum.risingFrom 0 z

/-- The indices of a monomial in rising order, repeats allowed. -/
def Monomial.sorted : Monomial → Bool
  | [] => true
  | [_] => true
  | i :: j :: rest => decide (i ≤ j) && Monomial.sorted (j :: rest)

/-- The lexicographic order of monomials. -/
def Monomial.before : Monomial → Monomial → Bool
  | [], [] => false
  | [], _ :: _ => true
  | _ :: _, [] => false
  | i :: m, j :: n => decide (i < j) || (i == j && Monomial.before m n)

/-- Monomials sorted and strictly rising, each with a canonical sum that is not 0. -/
def ExactNum.canonical : ExactNum → Bool
  | [] => true
  | [(m, z)] => m.sorted && z != [] && z.canonical
  | (m, z) :: (n, w) :: rest =>
    m.sorted && z != [] && z.canonical && m.before n && ExactNum.canonical ((n, w) :: rest)

/-- A sample's exact value, if it carries one, is in canonical form. -/
def Sample.canonical : Sample → Bool
  | .word _ => true
  | .exact z => z.canonical

/-- The checks that hold of an operand in every instance: a frame's capacity and length are at least 1
(44_output_assembler.md R145, R146), and a fed sample is in canonical form. Host commands take every
32-bit DATA (30_encoding.md R79). -/
def Instr.wellFormed : Instr → Bool
  | .rdId _ | .wrId _ | .rdCtrl _ | .wrCtrl _ | .rdStatus _ | .wrStatus _ => true
  | .rdSyncword _ | .wrSyncword _ | .rdMtu _ | .wrMtu _ | .rdMtuLatched _ | .wrMtuLatched _ => true
  | .rdSymcount _ | .wrSymcount _ | .rdPrevValue _ | .wrPrevValue _ | .rdMtuMax _ | .wrMtuMax _ => true
  | .stepFramesync | .stepDownchirp0 | .stepDownchirp1 | .stepQuarterchirp | .stepDatasymbols => true
  | .gen | .dechirp _ _ | .detect | .append _ _ | .discard => true
  | .feed _ x => x.canonical
  | .alloc m => m != 0#16
  | .emit m => m != 0#16

/-- The operand ranges of one instance: FEED's slot and APPEND's symbol are below N
(42_symbol_detector.md R106, 44_output_assembler.md R144), BUF indices and lengths fit MTU_MAX
(20_memory.md R53). -/
def Instr.fits (p : Params) : Instr → Bool
  | .rdId _ | .wrId _ | .rdCtrl _ | .wrCtrl _ | .rdStatus _ | .wrStatus _ => true
  | .rdSyncword _ | .wrSyncword _ | .rdMtu _ | .wrMtu _ | .rdMtuLatched _ | .wrMtuLatched _ => true
  | .rdSymcount _ | .wrSymcount _ | .rdPrevValue _ | .wrPrevValue _ | .rdMtuMax _ | .wrMtuMax _ => true
  | .stepFramesync | .stepDownchirp0 | .stepDownchirp1 | .stepQuarterchirp | .stepDatasymbols => true
  | .gen | .dechirp _ _ | .detect | .discard => true
  | .feed i _ => decide (i.toNat < p.size)
  | .alloc m => decide (m.toNat ≤ p.mtuMax)
  | .append k v => decide (k.toNat < p.mtuMax) && decide (v.toNat < p.size)
  | .emit m => decide (m.toNat ≤ p.mtuMax)

end Sys2Proof
end

