-- ==== Sys2Proof/Decode.lean ====
section
/-! DEFINITION. The decoder of host command words and state codes, total and rejecting by name, and the
encoder written from the same tables of spec/30_encoding.md. -/

namespace Sys2Proof

/-! ## Code tables -/

/-- The byte address of a mapped register (30_encoding.md R76). -/
def Reg.addr : Reg → BitVec 8
  | .id => 0x00#8
  | .ctrl => 0x04#8
  | .status => 0x08#8
  | .syncword => 0x0C#8
  | .mtu => 0x10#8
  | .mtuLatched => 0x14#8
  | .symcount => 0x18#8
  | .prevValue => 0x1C#8
  | .mtuMax => 0x20#8

/-- The register at a byte address, if one is mapped there (30_encoding.md R76, 20_memory.md R64). -/
def Reg.ofAddr (a : BitVec 8) : Option Reg :=
  if a = 0x00#8 then some .id
  else if a = 0x04#8 then some .ctrl
  else if a = 0x08#8 then some .status
  else if a = 0x0C#8 then some .syncword
  else if a = 0x10#8 then some .mtu
  else if a = 0x14#8 then some .mtuLatched
  else if a = 0x18#8 then some .symcount
  else if a = 0x1C#8 then some .prevValue
  else if a = 0x20#8 then some .mtuMax
  else none

/-- The 3-bit code of a sequencer state (30_encoding.md R83). -/
def SeqState.code : SeqState → BitVec 3
  | .framesync => 0b000#3
  | .downchirp0 => 0b001#3
  | .downchirp1 => 0b010#3
  | .quarterchirp => 0b011#3
  | .datasymbols => 0b100#3

/-- The sequencer state of a code; 0b101 to 0b111 are reserved (30_encoding.md R83). -/
def SeqState.ofCode (c : BitVec 3) : Option SeqState :=
  if c = 0b000#3 then some .framesync
  else if c = 0b001#3 then some .downchirp0
  else if c = 0b010#3 then some .downchirp1
  else if c = 0b011#3 then some .quarterchirp
  else if c = 0b100#3 then some .datasymbols
  else none

/-! ## Fields of a host command word (30_encoding.md R72) -/

/-- RW, bit 63: 1 is a write. -/
def Hcw.isWrite (w : Hcw) : Bool := w.getLsbD 63

/-- RSV, bits 62:42, must be 0. -/
def Hcw.rsv (w : Hcw) : BitVec 21 := w.extractLsb' 42 21

/-- SIZE, bits 41:40; 0b10 is the only legal value. -/
def Hcw.size (w : Hcw) : BitVec 2 := w.extractLsb' 40 2

/-- ADDR, bits 39:32. -/
def Hcw.addr (w : Hcw) : BitVec 8 := w.extractLsb' 32 8

/-- DATA, bits 31:0. -/
def Hcw.data (w : Hcw) : Word32 := w.extractLsb' 0 32

/-! ## Decoding -/

/-- Why a code stands for no instruction. -/
inductive DecodeError where
  /-- SIZE is not 0b10 or ADDR is not a multiple of 4: BUS_ALIGN (30_encoding.md R73). -/
  | busAlign
  /-- RSV is not 0 or ADDR is not mapped: BUS_DECODE (30_encoding.md R73). -/
  | busDecode
  /-- A reserved state code: ILLEGAL_STATE (60_exceptions.md R184 (a)). -/
  | illegalState
  deriving DecidableEq, Repr

/-- What the decoder answers. -/
inductive Decoded where
  | ok (i : Instr)
  | reject (e : DecodeError)
  deriving DecidableEq, Repr

/-- The instruction a decoding answered, if any. -/
def Decoded.toOption : Decoded → Option Instr
  | .ok i => some i
  | .reject _ => none

/-- The read command of a register (30_encoding.md R80). -/
def readCommand (data : Word32) : Reg → Instr
  | .id => .rdId data
  | .ctrl => .rdCtrl data
  | .status => .rdStatus data
  | .syncword => .rdSyncword data
  | .mtu => .rdMtu data
  | .mtuLatched => .rdMtuLatched data
  | .symcount => .rdSymcount data
  | .prevValue => .rdPrevValue data
  | .mtuMax => .rdMtuMax data

/-- The write command of a register (30_encoding.md R80). -/
def writeCommand (data : Word32) : Reg → Instr
  | .id => .wrId data
  | .ctrl => .wrCtrl data
  | .status => .wrStatus data
  | .syncword => .wrSyncword data
  | .mtu => .wrMtu data
  | .mtuLatched => .wrMtuLatched data
  | .symcount => .wrSymcount data
  | .prevValue => .wrPrevValue data
  | .mtuMax => .wrMtuMax data

/-- Decoding of a host command word, its tests in the order of 30_encoding.md R73. -/
def decodeHcw (w : Hcw) : Decoded :=
  if w.size ≠ 0b10#2 ∨ w.addr.extractLsb' 0 2 ≠ 0b00#2 then .reject .busAlign
  else if w.rsv ≠ 0#21 then .reject .busDecode
  else match Reg.ofAddr w.addr with
    | none => .reject .busDecode
    | some r => .ok (if w.isWrite then writeCommand w.data r else readCommand w.data r)

/-- The step operation of a sequencer state (30_encoding.md R81, R83). -/
def SeqState.stepInstr : SeqState → Instr
  | .framesync => .stepFramesync
  | .downchirp0 => .stepDownchirp0
  | .downchirp1 => .stepDownchirp1
  | .quarterchirp => .stepQuarterchirp
  | .datasymbols => .stepDatasymbols

/-- Decoding of a state code (43_state_machine.md R115). -/
def decodeStep (c : BitVec 3) : Decoded :=
  match SeqState.ofCode c with
  | some q => .ok q.stepInstr
  | none => .reject .illegalState

/-- The two formats that have bits: host command words and state codes. Micro-operations have no bit
encoding and no host can issue them (30_encoding.md R82). -/
inductive Code where
  | hcw (w : Hcw)
  | step (c : BitVec 3)
  deriving DecidableEq, Repr

/-- The decoder, total on every code. -/
def decode : Code → Decoded
  | .hcw w => decodeHcw w
  | .step c => decodeStep c

/-! ## Encoding -/

/-- A host command word from its fields, RSV 0 and SIZE a word (30_encoding.md R79). -/
def hcwWord (isWrite : Bool) (r : Reg) (data : Word32) : Hcw :=
  BitVec.ofBool isWrite ++ 0#21 ++ 0b10#2 ++ r.addr ++ data

/-- The code of an instruction; a micro-operation has none (30_encoding.md R82). -/
def encode : Instr → Option Code
  | .rdId d => some (.hcw (hcwWord false .id d))
  | .wrId d => some (.hcw (hcwWord true .id d))
  | .rdCtrl d => some (.hcw (hcwWord false .ctrl d))
  | .wrCtrl d => some (.hcw (hcwWord true .ctrl d))
  | .rdStatus d => some (.hcw (hcwWord false .status d))
  | .wrStatus d => some (.hcw (hcwWord true .status d))
  | .rdSyncword d => some (.hcw (hcwWord false .syncword d))
  | .wrSyncword d => some (.hcw (hcwWord true .syncword d))
  | .rdMtu d => some (.hcw (hcwWord false .mtu d))
  | .wrMtu d => some (.hcw (hcwWord true .mtu d))
  | .rdMtuLatched d => some (.hcw (hcwWord false .mtuLatched d))
  | .wrMtuLatched d => some (.hcw (hcwWord true .mtuLatched d))
  | .rdSymcount d => some (.hcw (hcwWord false .symcount d))
  | .wrSymcount d => some (.hcw (hcwWord true .symcount d))
  | .rdPrevValue d => some (.hcw (hcwWord false .prevValue d))
  | .wrPrevValue d => some (.hcw (hcwWord true .prevValue d))
  | .rdMtuMax d => some (.hcw (hcwWord false .mtuMax d))
  | .wrMtuMax d => some (.hcw (hcwWord true .mtuMax d))
  | .stepFramesync => some (.step (SeqState.code .framesync))
  | .stepDownchirp0 => some (.step (SeqState.code .downchirp0))
  | .stepDownchirp1 => some (.step (SeqState.code .downchirp1))
  | .stepQuarterchirp => some (.step (SeqState.code .quarterchirp))
  | .stepDatasymbols => some (.step (SeqState.code .datasymbols))
  | .gen | .dechirp _ _ | .feed _ _ | .detect => none
  | .alloc _ | .append _ _ | .emit _ | .discard => none

/-- The enumerant of a micro-operation (30_encoding.md R82, decision D20). -/
def microNumber : Instr → Option (BitVec 3)
  | .gen => some 0#3
  | .dechirp _ _ => some 1#3
  | .feed _ _ => some 2#3
  | .detect => some 3#3
  | .alloc _ => some 4#3
  | .append _ _ => some 5#3
  | .emit _ => some 6#3
  | .discard => some 7#3
  | .rdId _ | .wrId _ | .rdCtrl _ | .wrCtrl _ | .rdStatus _ | .wrStatus _ => none
  | .rdSyncword _ | .wrSyncword _ | .rdMtu _ | .wrMtu _ | .rdMtuLatched _ | .wrMtuLatched _ => none
  | .rdSymcount _ | .wrSymcount _ | .rdPrevValue _ | .wrPrevValue _ | .rdMtuMax _ | .wrMtuMax _ => none
  | .stepFramesync | .stepDownchirp0 | .stepDownchirp1 | .stepQuarterchirp | .stepDatasymbols => none

/-! ## The opcode table's numbering -/

/-- The instruction the decoder reads from a table word of `nbits` bits: 64 bits are a host command
word, one byte is a state code in its low three bits. The micro-operation rows share the numbers of
the state codes and have no bits on any interface (30_encoding.md R82), so a byte is always read as a
state code. DESIGN CHOICE, log entry 12. -/
def decodeTableWord (nbits w : Nat) : Option Instr :=
  if nbits = 64 then (decode (.hcw (BitVec.ofNat 64 w))).toOption
  else if nbits = 8 then (decode (.step (BitVec.ofNat 3 w))).toOption
  else none

end Sys2Proof
end

