-- ==== Sys2Proof/Machine/Exact.lean ====
section
/-! DEFINITION. Exact complex arithmetic, on sums of roots of unity and on exact numbers, and the sign of a
real part decided exactly: the "exact arithmetic" of 42_symbol_detector.md R109. -/

namespace Sys2Proof.Machine

/-! ## Sums of roots of unity (00_scope.md R17) -/

/-- A sum in canonical form with the term `c·exp(j·2π·a/65536)` added, for `a` below half a turn. -/
def insertTerm (a : Phase) (c : ℚ) : RootSum → RootSum
  | [] => if c = 0 then [] else [(a, c)]
  | (b, d) :: rest =>
    if a.toNat < b.toNat then (if c = 0 then (b, d) :: rest else (a, c) :: (b, d) :: rest)
    else if a = b then
      (if c + d = 0 then rest else (a, c + d) :: rest)
    else (b, d) :: insertTerm a c rest

/-- A sum with any term added; half a turn on is the negative: `exp(j(θ + π)) = -exp(jθ)`. -/
def addTerm (t : Phase × ℚ) (z : RootSum) : RootSum :=
  if t.1.toNat < 32768 then insertTerm t.1 t.2 z
  else insertTerm (t.1 - 32768#16) (-t.2) z

/-- The canonical form of a list of terms. -/
def collect (ts : List (Phase × ℚ)) : RootSum := ts.foldr addTerm []

/-- The exact sum of two complex numbers. -/
def rootAdd (x y : RootSum) : RootSum := x.foldr addTerm y

/-- The exact negation. -/
def rootNeg (x : RootSum) : RootSum := x.map fun t => (t.1, -t.2)

/-- The exact difference. -/
def rootSub (x y : RootSum) : RootSum := rootAdd (rootNeg y) x

/-- The terms of `c·exp(j·2π·a/65536)·x`, not yet collected. -/
def shiftTerms (a : Phase) (c : ℚ) (x : RootSum) : List (Phase × ℚ) :=
  x.map fun t => (a + t.1, c * t.2)

/-- The exact product `z·w` (00_scope.md R17). -/
def rootMul (x y : RootSum) : RootSum :=
  x.foldr (fun t acc => (shiftTerms t.1 t.2 y).foldr addTerm acc) []

/-- The complex conjugate (00_scope.md R17). -/
def rootConj (x : RootSum) : RootSum := collect (x.map fun t => (-t.1, t.2))

/-- `exp(j·2π·a/65536)`. -/
def rootOf (a : Phase) : RootSum := addTerm (a, 1) []

/-- `x + j·y` for real `x` and `y`; a quarter turn is the phase of `j`. -/
def ofParts (x y : ℚ) : RootSum := addTerm (0#16, x) (addTerm (16384#16, y) [])

/-! ## Exact numbers (00_scope.md R10, R17) -/

/-- A sum put in front of an exact number, unless it is 0. -/
def exCons (m : Monomial) (z : RootSum) (rest : ExactNum) : ExactNum :=
  if z = [] then rest else (m, z) :: rest

/-- An exact number with `m·z` added. -/
def exInsert (m : Monomial) (z : RootSum) : ExactNum → ExactNum
  | [] => exCons m (collect z) []
  | (n, w) :: rest =>
    if m = n then exCons m (rootAdd z w) rest
    else if m.before n then exCons m (collect z) ((n, w) :: rest)
    else (n, w) :: exInsert m z rest

/-- The exact sum. -/
def exAdd (x y : ExactNum) : ExactNum := x.foldr (fun t acc => exInsert t.1 t.2 acc) y

/-- The exact negation. -/
def exNeg (x : ExactNum) : ExactNum := x.map fun t => (t.1, rootNeg t.2)

/-- The exact difference. -/
def exSub (x y : ExactNum) : ExactNum := exAdd (exNeg y) x

/-- A monomial with one more factor. -/
def monoInsert (i : Nat) : Monomial → Monomial
  | [] => [i]
  | j :: m => if i ≤ j then i :: j :: m else j :: monoInsert i m

/-- The product of two monomials. -/
def monoMul (m n : Monomial) : Monomial := m.foldr monoInsert n

/-- The exact product. -/
def exMul (x y : ExactNum) : ExactNum :=
  x.foldr (fun t acc => y.foldr (fun u acc => exInsert (monoMul t.1 u.1) (rootMul t.2 u.2) acc) acc) []

/-- The complex conjugate; the given reals are real. -/
def exConj (x : ExactNum) : ExactNum := x.map fun t => (t.1, rootConj t.2)

/-- `exp(j·2π·a/65536)·x`, the sums not yet collected. -/
def exTurn (a : Phase) (x : ExactNum) : ExactNum := x.map fun t => (t.1, shiftTerms a 1 t.2)

/-- A sum of roots of unity as an exact number. -/
def ofRoot (z : RootSum) : ExactNum := exInsert [] z []

/-- A rational number. -/
def ofRat (c : ℚ) : ExactNum := ofRoot [(0#16, c)]

/-- `x + j·y` for real `x` and `y`. -/
def exactParts (x y : RealNum) : ExactNum :=
  exAdd [([], [(0#16, x.base), (16384#16, y.base)]), ([x.index], [(0#16, x.factor)]),
    ([y.index], [(16384#16, y.factor)])] []

/-- `|z|² = z·conj(z)` (00_scope.md R17). -/
def normSq (z : ExactNum) : ExactNum := exMul z (exConj z)

/-! ## The sign of a real part -/

/-- A sum whose real part is `2·re(x)·re(y)`. -/
def mulRe (x y : RootSum) : RootSum := rootAdd (rootMul x y) (rootMul x (rootConj y))

/-- The terms whose phase has bit `b` as given. -/
def termsWithBit (b : Nat) (v : Bool) (z : RootSum) : RootSum :=
  z.filter fun t => t.1.getLsbD b == v

/-- The sign of `re(z)` (-1, 0 or 1), where every phase of `z` is a multiple of `2^(14 - n)`.
With `r = 2·cos(2π·2^b/65536) > 0`, the terms with bit `b` set sum to a real `O` and the others to a
real `A`, and `r·O`, `A²` and `O²` need no phase with bit `b` set. The sign of `A + O` is that of either
where they do not disagree, and that of `A·(A² - O²)` where they do. DEDUCED from the half-angle
formulas: the spec asks for the comparison of exact energies and names no method (log entry 5). -/
def reSign : Nat → RootSum → Int
  | 0, z => z.foldr (fun t acc => if t.1 = 0#16 then t.2.num.sign else acc) 0
  | n + 1, z =>
    match termsWithBit (13 - n) true z with
    | [] => reSign n z
    | o :: os =>
      let a := termsWithBit (13 - n) false z
      let sa := reSign n a
      let so := reSign n (mulRe (rootOf (BitVec.ofNat 16 (2 ^ (13 - n)))) (o :: os))
      if sa = 0 then so
      else if so = 0 then sa
      else if sa = so then sa
      else sa * reSign n (rootSub (mulRe a a) (mulRe (o :: os) (o :: os)))

/-- The part of an exact number that no given real enters. -/
def constantPart (z : ExactNum) : RootSum :=
  z.foldr (fun t acc => if t.1 = [] then rootAdd t.2 acc else acc) []

/-- The sign of a real part that given reals enter, as they have it. -/
def givenSign (z : ExactNum) : Int :=
  match Config.givenReals with
  | .none => reSign 14 (constantPart z)
  | .given _ _ sign _ _ => sign z

/-- A bound of a given real's magnitude. -/
def givenBound (i : Nat) : Nat :=
  match Config.givenReals with
  | .none => 0
  | .given _ bound _ _ _ => bound i

/-- The sign of `re(z)` (-1, 0 or 1), exactly. -/
def exSign : ExactNum → Int
  | [] => 0
  | [([], z)] => reSign 14 z
  | z => givenSign z

/-- `re(x) < re(y)`, exactly. -/
def exLt (x y : ExactNum) : Bool := decide (0 < exSign (exSub y x))

/-- `x = y`, exactly. -/
def exEq (x y : ExactNum) : Bool := exSign (normSq (exSub x y)) == 0

end Sys2Proof.Machine
end

