-- ==== Sys2Proof/Machine/Samples.lean ====
section
/-! DEFINITION. Samples in SAMPLE_FMT: their exact value, conjugate and product, and the byte order of the
words the core exchanges. -/

namespace Sys2Proof.Machine

/-! ## Values (00_scope.md R10, 30_encoding.md R87) -/

/-- The I part of a sample word, bits 31:0. -/
def partI (w : BitVec 64) : BitVec 32 := w.extractLsb' 0 32

/-- The Q part of a sample word, bits 63:32. -/
def partQ (w : BitVec 64) : BitVec 32 := w.extractLsb' 32 32

/-- A sample word from its two parts. -/
def sampleWord (i q : BitVec 32) : BitVec 64 := q ++ i

/-- `(-1)^neg · m · 2^(e - 149)`. -/
def scaled (neg : Bool) (m e : Nat) : ℚ :=
  mkRat (if neg then -((m * 2 ^ e : Nat) : Int) else ((m * 2 ^ e : Nat) : Int)) (2 ^ 149)

/-- The number a binary32 pattern stands for; none for a NaN or an infinity. Sign in bit 31, exponent
in bits 30:23, fraction in bits 22:0 (K1 of 93_implementation_defined.md; log entry 19). -/
def binary32Value (v : BitVec 32) : Option ℚ :=
  let e := (v.extractLsb' 23 8).toNat
  let f := (v.extractLsb' 0 23).toNat
  if e = 255 then none
  else if e = 0 then some (scaled (v.getLsbD 31) f 0)
  else some (scaled (v.getLsbD 31) (2 ^ 23 + f) (e - 1))

/-! ## Negation of a part (41_chirp_table.md R96) -/

/-- The involution that pairs `v` with `f v` where `f` pairs them, and leaves other parts alone. -/
def pairedBy (f : BitVec 32 → BitVec 32) (v : BitVec 32) : BitVec 32 := if f (f v) = v then f v else v

/-- The negation of a part: in a sign-magnitude format such as binary32 it flips the sign bit; in another
format it is the pairing the format proposes (log entry 26). It is its own inverse in every format. -/
def negPart : SampleFmt → BitVec 32 → BitVec 32
  | .binary32, v => v ^^^ 0x80000000#32
  | .other k, v => pairedBy (Config.partNeg k) v

/-- The number of the lower part `v` of a pair. The format's plain part is a number. -/
def pairValue (k : Nat) (v : BitVec 32) : Option RealNum :=
  if v = Config.plainPart k ∨ negPart (.other k) v = Config.plainPart k then
    some ((Config.partValue k v).getD (.ofRat 0))
  else Config.partValue k v

/-- The real number a part stands for in SAMPLE_FMT. In a format other than binary32 the two parts of a pair
stand for opposite numbers; a part that is its own negation stands for what the format says, and for 0
if it is the plain one (log entry 26). -/
def partNumber : SampleFmt → BitVec 32 → Option RealNum
  | .binary32, v => (binary32Value v).map .ofRat
  | .other k, v =>
    if negPart (.other k) v = v then
      (if v = Config.plainPart k then some (.ofRat 0) else Config.partValue k v)
    else if v.toNat < (negPart (.other k) v).toNat then pairValue k v
    else (pairValue k (negPart (.other k) v)).map .neg

/-- Whether a part's negation stands for the opposite number. -/
def negExact (fmt : SampleFmt) (v : BitVec 32) : Bool :=
  decide (partNumber fmt (negPart fmt v) = (partNumber fmt v).map .neg)

/-! ## Exact values of samples -/

/-- The exact complex value of a sample, if it has one. -/
def sampleValue (fmt : SampleFmt) : Sample → Option ExactNum
  | .exact z => some z
  | .word w =>
    match partNumber fmt (partI w), partNumber fmt (partQ w) with
    | some x, some y => some (exactParts x y)
    | _, _ => none

/-! ## Words of exact values (30_encoding.md R87) -/

/-- The binary32 pattern of `x`, if it has one: exponent field 0 below `2^-126`, a leading 1 left out from
there on. -/
def binary32Pattern (x : ℚ) : BitVec 32 :=
  let m := x.num.natAbs * 2 ^ 149 / x.den
  let e := if m < 2 ^ 23 then 0 else m.log2 - 22
  let f := if m < 2 ^ 23 then m else m / 2 ^ (m.log2 - 23) - 2 ^ 23
  BitVec.ofBool (decide (x < 0)) ++ BitVec.ofNat 8 e ++ BitVec.ofNat 23 f

/-- The binary32 part that stands for `x`, if there is one; +0 for 0. -/
def binary32Part (x : ℚ) : Option (BitVec 32) :=
  if binary32Value (binary32Pattern x) = some x then some (binary32Pattern x) else none

/-- The coefficient of a phase in a sum in canonical form. -/
def coefAt (a : Phase) : RootSum → ℚ
  | [] => 0
  | t :: z => if t.1 = a then t.2 else coefAt a z

/-- The parts of a sum of roots of unity whose parts are rational numbers. -/
def rationalParts (z : RootSum) : Option (ℚ × ℚ) :=
  let x := coefAt 0#16 z
  let y := coefAt 16384#16 z
  if rootSub z (ofParts x y) = [] then some (x, y) else none

/-- Whether a given real enters an exact number. -/
def hasGiven (z : ExactNum) : Bool := z.any fun t => t.1 != []

/-- Whether a word stands for an exact number. -/
def wordHasValue (fmt : SampleFmt) (z : ExactNum) (w : BitVec 64) : Bool :=
  match sampleValue fmt (.word w) with
  | some x => exEq x z
  | none => false

/-- The first of `fuel` words from `from_` on with a property. -/
def firstWord (f : BitVec 64 → Bool) : (fuel : Nat) → (from_ : Nat) → Option (BitVec 64)
  | 0, _ => none
  | fuel + 1, k => if f (BitVec.ofNat 64 k) then some (BitVec.ofNat 64 k) else firstWord f fuel (k + 1)

/-- The word that stands for an exact number in an instance's format, if one does: in binary32 the one with
+0 for a part 0 (30_encoding.md R87; log entry 25), in another format the one the instance rounds to where
that has the value. Where no given real enters, only rational parts have a word of binary32 (roots of unity
below half a turn are independent over the rationals), so nothing is searched. -/
def exactWord (n : Numerics) (z : ExactNum) : Option (BitVec 64) :=
  match n.fmt, hasGiven z with
  | .binary32, false =>
    match rationalParts (constantPart z) with
    | some (x, y) =>
      match binary32Part x, binary32Part y with
      | some i, some q => some (sampleWord i q)
      | _, _ => none
    | none => none
  | .binary32, true => firstWord (wordHasValue .binary32 z) (2 ^ 64) 0
  | .other k, _ =>
    if wordHasValue (.other k) z (Config.roundFmt n z) then some (Config.roundFmt n z)
    else firstWord (wordHasValue (.other k) z) (2 ^ 64) 0

/-- A sample as a 64-bit word: the word that has its value where there is one; another value is rounded,
which the spec leaves open. -/
def toWord (n : Numerics) : Sample → BitVec 64
  | .word w => w
  | .exact z => (exactWord n z).getD (Config.roundFmt n z)

/-- A sample as the datapath of an instance holds it: a word in a finite-precision instance, anything in an
ideal one. DESIGN CHOICE, log entry 25: an exact value given to a finite-precision instance (by the source,
or to a FEED run alone) becomes a word where it enters. -/
def portSample (n : Numerics) (x : Sample) : Sample :=
  match n.real with
  | .ideal => x
  | .finite _ => .word (toWord n x)

/-- The sample `x + j·y` of the ideal semantics. -/
def exactSample (x y : Int) : Sample := .exact (ofRoot (ofParts x y))

/-- The sample 0 + 0j as a binary32 word. -/
def zeroWord : Sample := .word 0#64

/-! ## Conjugate and product -/

/-- `conj`, exact in every realisation (41_chirp_table.md R96). -/
def sampleConj (fmt : SampleFmt) : Sample → Sample
  | .word w => .word (sampleWord (partI w) (negPart fmt (partQ w)))
  | .exact z => .exact (exConj z)

/-- `cmul_fmt` (42_symbol_detector.md R104): exact in the ideal instance, open in the others. Its second
operand is a conjugate already, as R102 calls it: the `c + jd` of R104 (b) is the table entry (log entry 28). -/
def cmul (n : Numerics) (a b : Sample) : Sample :=
  match n.real with
  | .ideal =>
    match sampleValue n.fmt a, sampleValue n.fmt b with
    | some x, some y => .exact (exMul x y)
    | _, _ => Config.cmulFree n.fmt a b
  | .finite _ => .word (Config.cmulFmt n (toWord n a) (toWord n b))

/-! ## Byte order of transports (20_memory.md R55-R57) -/

/-- The `k`-th byte of a word, least significant first. -/
def byteOf (w : BitVec n) (k : Nat) : BitVec 8 := w.extractLsb' (8 * k) 8

/-- The four bytes of a register word at byte addresses ADDR + 0 to ADDR + 3 (20_memory.md R55). -/
def registerBytes (w : Word32) : List (BitVec 8) := (List.range 4).map (byteOf w)

/-- The eight bytes of a sample word in the order a byte-serial transport sends them: I's four, then
Q's (20_memory.md R56). -/
def sampleBytes (w : BitVec 64) : List (BitVec 8) := (List.range 8).map (byteOf w)

/-- The bytes of a frame's symbols in transport order (20_memory.md R57). -/
def frameBytes (f : Frame) : List (BitVec 8) :=
  (f.symbols.map fun s => (List.range 2).map (byteOf s)).flatten

end Sys2Proof.Machine
end

