-- ==== Sys2Proof/Machine/ChirpTable.lean ====
section
/-! DEFINITION. The Chirp Table Generator (41_chirp_table.md). -/

namespace Sys2Proof.Machine

/-! ## TOL_TBL and the properties of a table entry (41_chirp_table.md R97) -/

/-- `| |z| - 1 | ≤ tol`, as `|z|² ≤ (1 + tol)²` and, for `tol ≤ 1`, `(1 - tol)² ≤ |z|²`. -/
def nearUnit (tol : ℚ) (z : ExactNum) : Bool :=
  !(exLt (ofRat ((1 + tol) * (1 + tol))) (normSq z))
    && (decide (1 < tol) || !(exLt (normSq z) (ofRat ((1 - tol) * (1 - tol)))))

/-- A word whose conjugate is exact and which stands for a number. -/
def plainWord (fmt : SampleFmt) (w : BitVec 64) : Bool :=
  (sampleValue fmt (.word w)).isSome && negExact fmt (partQ w)

/-- A word of the format near unit magnitude: 1 + 0j in binary32 (30_encoding.md R87); in another format
the one it names, or its plain part twice (log entry 26). -/
def unitWord (n : Numerics) : BitVec 64 :=
  match n.fmt with
  | .binary32 => 0x0000_0000_3F80_0000#64
  | .other k =>
    if plainWord n.fmt (Config.unitWord n) then Config.unitWord n
    else sampleWord (Config.plainPart k) (Config.plainPart k)

/-- A bound of a real number's magnitude. -/
def realSize (x : RealNum) : ℚ := |x.base| + |x.factor| * givenBound x.index

/-- A bound of `| |u|² - 1 |` for the instance's unit word, and so of `| |u| - 1 |`. -/
def unitDeviation (n : Numerics) : ℚ :=
  match partNumber n.fmt (partI (unitWord n)), partNumber n.fmt (partQ (unitWord n)) with
  | some x, some y => realSize x * realSize x + realSize y * realSize y + 1
  | _, _ => 0

/-- TOL_TBL of an instance (00_scope.md R13): 0 for the ideal one; for a finite-precision one the open
value, or as much as the format's unit word needs where that is more (log entry 26). -/
def tolTbl (n : Numerics) : ℚ :=
  match n.real with
  | .ideal => 0
  | .finite _ =>
    match sampleValue n.fmt (.word (unitWord n)) with
    | some u => if nearUnit (Config.tolTbl n) u then (Config.tolTbl n : ℚ)
        else max (Config.tolTbl n) (unitDeviation n)
    | none => Config.tolTbl n

/-- What P_unit and P_conj ask of one entry: a number of unit magnitude within TOL_TBL, whose conjugate is
exact. -/
def entryOk (n : Numerics) (w : BitVec 64) : Bool :=
  plainWord n.fmt w &&
    match sampleValue n.fmt (.word w) with
    | some z => nearUnit (tolTbl n) z
    | none => false

/-- A finite-precision table entry: `w` where it has the properties every instance of TABLE must have, a word
that has them where it has not. Every table with the properties is left as it is (log entry 6). -/
def tableWord (n : Numerics) (w : BitVec 64) : BitVec 64 := if entryOk n w then w else unitWord n

/-- The property P_unit of a table (41_chirp_table.md R97). -/
def unitTable (n : Numerics) (table : List Sample) : Bool :=
  table.all fun x =>
    match sampleValue n.fmt x with
    | some z => nearUnit (tolTbl n) z
    | none => false

/-! ## The tables -/

/-- The i-th phase increment `2π(i + N/2)/N` in 1/65536 turns (41_chirp_table.md R93). -/
def idealIncrement (p : Params) (i : Nat) : Phase :=
  BitVec.ofNat 16 ((i + p.size / 2) * (65536 / p.size))

/-- The ideal up-chirp entries from index `i` on, `k` of them, with the accumulator `acc` before the
i-th addition: add the increment, then emit (41_chirp_table.md R93, decision D4). -/
def idealUpFrom (p : Params) : (k i : Nat) → Phase → List Sample
  | 0, _, _ => []
  | k + 1, i, acc =>
    let acc' := acc + idealIncrement p i
    .exact (ofRoot (rootOf acc')) :: idealUpFrom p k (i + 1) acc'

/-- The same accumulation in PHASE_FMT, one rounded addition a sample (41_chirp_table.md R94), each entry
with the properties of R97. -/
def roundedUpFrom (p : Params) : (k i : Nat) → Nat → List Sample
  | 0, _, _ => []
  | k + 1, i, acc =>
    let acc' := Config.phaseAdd p.num acc (Config.phaseInc p.num p.sf i)
    .word (tableWord p.num (Config.phaseExp p.num acc')) :: roundedUpFrom p k (i + 1) acc'

/-- The up-chirp table GEN builds (41_chirp_table.md R93; the configuration field TABLE, R97). -/
def upTable (p : Params) : List Sample :=
  match p.num.real with
  | .ideal => idealUpFrom p p.size 0 0#16
  | .finite _ => roundedUpFrom p p.size 0 (Config.phaseZero p.num)

/-- The down-chirp table, the conjugate entry by entry (41_chirp_table.md R96). -/
def downTable (p : Params) : List Sample := (upTable p).map (sampleConj p.num.fmt)

/-- The table a state selects (41_chirp_table.md R99). -/
def refOf : SeqState → ChirpRef
  | .framesync => .up
  | .downchirp0 => .down
  | .downchirp1 => .down
  | .quarterchirp => .up
  | .datasymbols => .up

end Sys2Proof.Machine
end

