-- ==== Sys2Proof/Machine/Detector.lean ====
section
/-! DEFINITION. The Symbol Detector's arithmetic (42_symbol_detector.md): the exact reference function
DETECT_IDEAL and the configuration field DETECT. -/

namespace Sys2Proof.Machine

/-- `X[m] = Σ_n W[n]·exp(-j·2π·m·n/N)`, the terms from index `n` on (42_symbol_detector.md R109). -/
def dftFrom (p : Params) (m : Nat) : (n : Nat) → List ExactNum → ExactNum
  | _, [] => []
  | n, w :: ws =>
    exAdd (exTurn (-(BitVec.ofNat 16 (m * n * (65536 / p.size)))) w) (dftFrom p m (n + 1) ws)

/-- `P[m] = |X[m]|²` (42_symbol_detector.md R109). -/
def binEnergy (p : Params) (ws : List ExactNum) (m : Nat) : ExactNum := normSq (dftFrom p m 0 ws)

/-- The scan of `peakIndex`: the best value so far, its index, and the index of the list's head. -/
def peakScan (lt : α → α → Bool) (best : α) (bestAt at_ : Nat) : List α → Nat
  | [] => bestAt
  | y :: ys => if lt best y then peakScan lt y at_ (at_ + 1) ys else peakScan lt best bestAt (at_ + 1) ys

/-- The lowest index among the maxima of a list (42_symbol_detector.md R110). -/
def peakIndex (lt : α → α → Bool) : List α → Nat
  | [] => 0
  | x :: xs => peakScan lt x 0 1 xs

/-- DETECT_IDEAL, in exact arithmetic (42_symbol_detector.md R109). -/
def detectIdeal (p : Params) (ws : List ExactNum) : Nat :=
  peakIndex exLt ((List.range p.size).map (binEnergy p ws))

/-- TOL_DET·Σ_n |W[n]|² (42_symbol_detector.md R111). -/
def detMargin (p : Params) (ws : List ExactNum) : ExactNum :=
  match p.num.real with
  | .ideal => []
  | .finite _ => exMul (ofRat (Config.tolDet p.num)) (ws.foldr (fun w acc => exAdd (normSq w) acc) [])

/-- The greatest bin energy exceeds every other by more than TOL_DET·Σ_n |W[n]|²
(42_symbol_detector.md R111 (D_ideal)). -/
def peakClear (p : Params) (ws : List ExactNum) : Bool :=
  (List.range p.size).all fun m =>
    m == detectIdeal p ws ||
      exLt (exAdd (detMargin p ws) (binEnergy p ws m)) (binEnergy p ws (detectIdeal p ws))

/-- The window's exact values, where every slot has one. -/
def windowValues (fmt : SampleFmt) (w : List Sample) : Option (List ExactNum) :=
  w.mapM (sampleValue fmt)

/-- A finite-precision detector's own bin energies. Where the exact peak is clear it ranks that bin
first (D_ideal); elsewhere its arithmetic is open. -/
def ownEnergy (p : Params) (w : List Sample) (m : Nat) : Nat :=
  match windowValues p.num.fmt w with
  | some ws => if peakClear p ws then (if m = detectIdeal p ws then 1 else 0)
      else Config.binEnergy p.num p.sf w m
  | none => Config.binEnergy p.num p.sf w m

/-- A finite-precision DETECT: the lowest index among its own greatest bin energies. Every detector with
D_range, D_det, D_ideal and D_tie is one of this form (42_symbol_detector.md R111). -/
def detectRounded (p : Params) (w : List Sample) : Nat :=
  peakIndex (fun a b => decide (a < b)) ((List.range p.size).map (ownEnergy p w))

/-- The configuration field DETECT (00_scope.md R11, 42_symbol_detector.md R108): DETECT_IDEAL in the
ideal instance, a finite-precision detector otherwise. A window of the ideal instance that holds a NaN
or an infinity has no exact energies: the spec states no value there (log entry 7). -/
def detectWindow (p : Params) (w : List Sample) : Nat :=
  match p.num.real, windowValues p.num.fmt w with
  | .ideal, some ws => detectIdeal p ws
  | _, _ => detectRounded p w

end Sys2Proof.Machine
end

