-- ==== Sys2Proof/Machine/State.lean ====
section
/-! DEFINITION. The state of one core and of the ports around it, its faults and refusals, and the state
right after reset. -/

namespace Sys2Proof.Machine

/-- One transition an agent outside the step engine has ready, or the step engine's own turn
(00_scope.md R6, 45_host_interface.md R178). -/
inductive Event where
  /-- The host issues a command word (45_host_interface.md R156). -/
  | host (w : Hcw)
  /-- The sample source appends samples (20_memory.md R59). -/
  | supply (xs : List Sample)
  /-- The RAW sink presents RAW_FREE (44_output_assembler.md R151). -/
  | rawSpace (free : Nat)
  /-- The DEC sink presents DEC_FREE (44_output_assembler.md R151). -/
  | decSpace (free : Nat)
  /-- The frame sink presents FRAME_READY (44_output_assembler.md R147). -/
  | frameSink (ready : Bool)
  /-- The core step engine's turn. -/
  | core
  deriving DecidableEq, Repr

/-- What the last micro-operation run on its own returned: DECHIRP's block, DETECT's symbol. The MODEL's
own: a step's blocks and values are local to it (10_state.md R24). -/
structure Work where
  block : List Sample
  symbol : Nat
  deriving DecidableEq, Repr

/-- The state of the core (10_state.md R23), of its ports, and the model's own bookkeeping. -/
structure State where
  /-- The instance: elaboration parameters, the same in every state of a run (00_scope.md R7-R12). -/
  params : Params
  /-- `state`, the sequencer's 3-bit code (10_state.md R26). -/
  seq : BitVec 3
  /-- ACTIVE (10_state.md R27). -/
  active : Bool
  /-- PREV (10_state.md R30). -/
  prev : BitVec 16
  /-- SYMCOUNT (10_state.md R31). -/
  symcount : BitVec 16
  /-- SYNCWORD (10_state.md R32). -/
  syncword : BitVec 8
  /-- MTU (10_state.md R33). -/
  mtu : BitVec 16
  /-- MTU_L (10_state.md R34). -/
  mtuL : BitVec 16
  /-- RAW_EN (10_state.md R35). -/
  rawEn : Bool
  /-- DEC_EN (10_state.md R35). -/
  decEn : Bool
  /-- ERR (10_state.md R36). -/
  err : Bool
  /-- ERR_CAUSE (10_state.md R36). -/
  errCause : BitVec 4
  /-- ERR_ADDR (10_state.md R36). -/
  errAddr : BitVec 8
  /-- UP (10_state.md R37). -/
  up : List Sample
  /-- DOWN (10_state.md R37). -/
  down : List Sample
  /-- W, the slots written so far; another slot reads as a free value (10_state.md R38). -/
  window : List (Nat × Sample)
  /-- BUF, the entries appended so far; another entry reads as a free value (10_state.md R39). -/
  buf : List (Nat × SymbolWord)
  /-- BUF_ALLOC (10_state.md R39). -/
  bufAlloc : Bool
  /-- The input port: the unconsumed samples, oldest first; IN_AVAIL is their number (20_memory.md R59). -/
  input : List Sample
  /-- RAW_FREE, as the RAW sink last presented it (44_output_assembler.md R151). -/
  rawFree : Nat
  /-- DEC_FREE, as the DEC sink last presented it (44_output_assembler.md R151). -/
  decFree : Nat
  /-- FRAME_READY, as the frame sink last presented it (44_output_assembler.md R147). -/
  frameReady : Bool
  /-- The frames handed to the frame port, oldest first (44_output_assembler.md R147). -/
  frames : List Frame
  /-- The elements emitted on the RAW mirror, oldest first (44_output_assembler.md R153). -/
  rawOut : List MirrorElem
  /-- The elements emitted on the DEC mirror, oldest first (44_output_assembler.md R152). -/
  decOut : List MirrorElem
  /-- The response words returned to the host, oldest first (30_encoding.md R74). -/
  responses : List Word32
  /-- The transitions the agents have ready, in the order of the interleaving (20_memory.md R67). -/
  agenda : List Event
  /-- CONSUMED, the spec's observation variable (10_state.md R43). -/
  consumed : Nat
  /-- The MODEL's own: how often BUF's entries became unspecified; it selects their free values. -/
  bufEpoch : Nat
  /-- The MODEL's own: the result of the last micro-operation run on its own. -/
  work : Work
  deriving DecidableEq, Repr

/-- Why the machine stops. All are model faults of 60_exceptions.md R184 or accesses to an entry that does
not exist; no run from reset reaches one, and none is reported to the host. -/
inductive Fault where
  /-- A step found a reserved state code (R184 (a)). Raised by the step engine. Safe: the spec asks for it. -/
  | illegalState
  /-- ALLOC with BUF_ALLOC already 1 (44_output_assembler.md R145). Raised by ALLOC. Safe. -/
  | allocRequirement
  /-- ALLOC or EMIT for more entries than MTU_MAX, which BUF does not have (20_memory.md R53). Raised by
  ALLOC and EMIT. Safe. -/
  | bufCapacity
  /-- APPEND with BUF_ALLOC 0 or an index not below MTU_L (44_output_assembler.md R144). Raised by
  APPEND. Safe. -/
  | appendRequirement
  /-- APPEND to an index not below MTU_MAX, which BUF does not have (20_memory.md R53). Raised by
  APPEND. Safe. -/
  | bufIndex
  /-- EMIT with BUF_ALLOC 0 or FRAME_READY false (44_output_assembler.md R146). Raised by EMIT. Safe. -/
  | emitRequirement
  /-- FEED to a slot not below N, which W does not have (42_symbol_detector.md R106). Raised by FEED. Safe. -/
  | windowSlot
  deriving DecidableEq, Repr

/-- Why the machine gives an instruction no meaning. No instruction of this model is refused. -/
inductive Refusal where
  /-- An instruction the dispatcher has no meaning for. Raised by the dispatcher alone. Safe. -/
  | notModelled (mnemonic : String)
  deriving DecidableEq, Repr

/-- The outcome of an instruction or of a step. -/
abbrev Result := Host.Outcome State Fault Refusal

/-- Construction of an instance: reset (10_state.md R46, 70_reset_and_hazards.md R196-R198). GEN has run;
no window slot and no BUF entry has been written; the ports are empty and the sinks have presented
nothing. -/
def State.construct (p : Params) : State where
  params := p
  seq := SeqState.code .framesync
  active := false
  prev := 0
  symcount := 0
  syncword := 0
  mtu := 0
  mtuL := 0
  rawEn := false
  decEn := false
  err := false
  errCause := 0
  errAddr := 0
  up := upTable p
  down := downTable p
  window := []
  buf := []
  bufAlloc := false
  input := []
  rawFree := 0
  decFree := 0
  frameReady := false
  frames := []
  rawOut := []
  decOut := []
  responses := []
  agenda := []
  consumed := 0
  bufEpoch := 0
  work := ⟨[], 0⟩

/-- The instance `State.reset` constructs: SF = 7 and MTU_MAX = 255, on which 95_test_vectors.md §3 runs its
programs, with binary32 sample words and the ideal instances of TABLE, DETECT and `cmul_fmt`. DESIGN CHOICE,
log entry 1: the spec leaves all of them as parameters; `State.construct` covers every other instance. -/
def resetParams : Params :=
  ⟨7, 255, ⟨.binary32, .ideal⟩, by decide, by decide, by decide, by decide⟩

/-- The machine right after reset. -/
def State.reset : State := State.construct resetParams

end Sys2Proof.Machine
end

