-- ==== Sys2Proof/Machine/Ops.lean ====
section
/-! DEFINITION. The named operations over the state: sparse arrays, the input window, the error record,
and the datapath and buffer operations the instructions are built from. -/

namespace Sys2Proof.Machine

/-- Sequencing of two operations: a fault or a refusal of the first ends the whole. -/
def andThen (r : Result) (k : State → Result) : Result :=
  match r with
  | .next s => k s
  | .fault e => .fault e
  | .refused e => .refused e

/-! ## Sparse arrays: entries by strictly rising index -/

/-- The array with entry `k` set to `v`; the last write wins. -/
def putSlot {α : Type} (k : Nat) (v : α) : List (Nat × α) → List (Nat × α)
  | [] => [(k, v)]
  | (i, x) :: rest =>
    if k < i then (k, v) :: (i, x) :: rest
    else if k = i then (k, v) :: rest
    else (i, x) :: putSlot k v rest

/-- The entry written at `k`, if any. -/
def getSlot {α : Type} (k : Nat) : List (Nat × α) → Option α
  | [] => none
  | (i, x) :: rest => if k = i then some x else getSlot k rest

/-- The canonical form of a sparse array: indices rise strictly from `lo` and stay below `bound`. -/
def slotsWf {α : Type} (lo bound : Nat) : List (Nat × α) → Bool
  | [] => true
  | (i, _) :: rest => decide (lo ≤ i) && decide (i < bound) && slotsWf (i + 1) bound rest

/-! ## Responses and the error record -/

/-- `resp(v)`: return a read's response word (30_encoding.md R74). -/
def respond (v : Word32) (s : State) : State := { s with responses := s.responses ++ [v] }

/-- The 4-bit code of an error cause (60_exceptions.md R180). -/
def causeCode : ErrCause → BitVec 4
  | .noError => 0#4
  | .mtuInvalid => 1#4
  | .actUnconfigured => 2#4
  | .busDecode => 3#4
  | .busAlign => 4#4

/-- `raise <cause>(a)`, the one way an error is taken: the first is recorded, a later one is lost
(60_exceptions.md R181). Control is never transferred (R186). -/
def raiseError (cause : ErrCause) (a : BitVec 8) (s : State) : State :=
  if s.err then s else { s with err := true, errCause := causeCode cause, errAddr := a }

/-- The one way an error condition ends (60_exceptions.md R187): the record is cleared. -/
def clearError (s : State) : State := { s with err := false, errCause := 0#4, errAddr := 0#8 }

/-- A refused access (45_host_interface.md R176): the cause is raised with the word's ADDR, and a read
returns 0. -/
def refuseAccess (cause : ErrCause) (w : Hcw) (s : State) : State :=
  if w.isWrite then raiseError cause w.addr s else respond 0#32 (raiseError cause w.addr s)

/-! ## The input window (20_memory.md R59) -/

/-- The 2N samples the window shows: the oldest unconsumed ones. While fewer than 2N are there the
window is not defined and its samples are free values. -/
def inWindow (s : State) : List Sample :=
  if 2 * s.params.size ≤ s.input.length then s.input.take (2 * s.params.size)
  else (List.range (2 * s.params.size)).map fun k => portSample s.params.num (Config.freeInput s.consumed k)

/-- The sample source appends samples (45_host_interface.md R178). A finite-precision instance's port carries
sample words, so an exact value becomes one on its way in (log entry 25). -/
def supplyInput (xs : List Sample) (s : State) : State :=
  { s with input := s.input ++ xs.map (portSample s.params.num) }

/-- The base offset of DECHIRP in samples (42_symbol_detector.md R102). -/
def baseOffset (p : Params) : WinBase → Nat
  | .first => 0
  | .second => p.size

/-- The stored table a reference names. -/
def tableOf (s : State) : ChirpRef → List Sample
  | .up => s.up
  | .down => s.down

/-- A table's N entries; an entry the stored list lacks is a free value. -/
def tableEntries (s : State) (r : ChirpRef) : List Sample :=
  (tableOf s r).take s.params.size ++
    (List.range (s.params.size - (tableOf s r).length)).map fun i =>
      portSample s.params.num (Config.freeTable i)

/-- DECHIRP(b, R): `d[i] = cmul_fmt(InWin(b + i), conj(R[i]))` for i below N (42_symbol_detector.md R102). -/
def dechirpBlock (b : WinBase) (r : ChirpRef) (s : State) : List Sample :=
  List.zipWith (fun x t => cmul s.params.num x (sampleConj s.params.num.fmt t))
    ((inWindow s).drop (baseOffset s.params b)) (tableEntries s r)

/-! ## The detector window (42_symbol_detector.md R105-R108) -/

/-- FEED(i, s) for a slot that exists: `W[i] <- s`. -/
def feedSlot (i : Nat) (x : Sample) (s : State) : State := { s with window := putSlot i x s.window }

/-- FEED of a whole block, slots `i` on, in increasing order (43_state_machine.md R119). -/
def feedFrom : (i : Nat) → List Sample → State → State
  | _, [], s => s
  | i, x :: xs, s => feedFrom (i + 1) xs (feedSlot i x s)

/-- `W[i]`; a slot no FEED has written is a free value (10_state.md R38). -/
def windowAt (s : State) (i : Nat) : Sample :=
  (getSlot i s.window).getD (portSample s.params.num (Config.freeWindow i))

/-- DETECT() on all N slots as they stand (42_symbol_detector.md R107, R108). -/
def detectValue (s : State) : Nat :=
  detectWindow s.params ((List.range s.params.size).map (windowAt s))

/-! ## The output symbol buffer (44_output_assembler.md) -/

/-- `BUF[k]`; an entry that holds no appended symbol is a free value (10_state.md R39). -/
def bufAt (s : State) (k : Nat) : SymbolWord := (getSlot k s.buf).getD (Config.freeSymbol s.bufEpoch k)

/-- All entries become unspecified (44_output_assembler.md R148; I9 of 93_implementation_defined.md). -/
def forgetBuf (s : State) : State := { s with buf := [], bufEpoch := s.bufEpoch + 1 }

/-- ALLOC(M) (44_output_assembler.md R145). -/
def allocBuf (m : BitVec 16) (s : State) : Result :=
  if s.bufAlloc then .fault .allocRequirement
  else if s.params.mtuMax < m.toNat then .fault .bufCapacity
  else .next { forgetBuf s with bufAlloc := true }

/-- APPEND(k, v) (44_output_assembler.md R144). -/
def appendBuf (k : BitVec 16) (v : SymbolWord) (s : State) : Result :=
  if !(s.bufAlloc && decide (k.toNat < s.mtuL.toNat)) then .fault .appendRequirement
  else if s.params.mtuMax ≤ k.toNat then .fault .bufIndex
  else .next { s with buf := putSlot k.toNat v s.buf }

/-- The frame EMIT(M) hands off: BUF[0] to BUF[M-1] (30_encoding.md R86). -/
def frameOf (m : BitVec 16) (s : State) : Frame :=
  ⟨m.toNat, (List.range m.toNat).map (bufAt s)⟩

/-- EMIT(M) (44_output_assembler.md R146): the frame goes to the frame port whole, BUF_ALLOC is cleared
and the core keeps nothing of the frame. -/
def emitBuf (m : BitVec 16) (s : State) : Result :=
  if !(s.bufAlloc && s.frameReady) then .fault .emitRequirement
  else if s.params.mtuMax < m.toNat then .fault .bufCapacity
  else .next { forgetBuf s with frames := s.frames ++ [frameOf m s], bufAlloc := false }

/-- DISCARD() (44_output_assembler.md R148). With no buffer allocated it has no effect. -/
def discardBuf (s : State) : State :=
  if s.bufAlloc then { forgetBuf s with bufAlloc := false } else s

/-! ## Activation (45_host_interface.md R159) -/

/-- ACTIVATE(): refused while MTU = 0; otherwise the protocol state is reset (70_reset_and_hazards.md
R200) and the buffer discarded. -/
def activate (s : State) : State :=
  if s.mtu = 0#16 then raiseError .actUnconfigured (Reg.addr .ctrl) s
  else discardBuf { s with
    seq := SeqState.code .framesync, active := true, prev := 0#16, symcount := 0#16, mtuL := 0#16 }

/-! ## Parts of a step (43_state_machine.md R119, R140) -/

/-- What a step operation's body sets (43_state_machine.md R116): the consumption, the next state, the
label, and the dechirped samples `d` or `d ++ d2` (44_output_assembler.md R152). -/
structure StepPlan where
  c : Nat
  next : SeqState
  label : Label
  dd : List Sample
  deriving DecidableEq, Repr

/-- The elements one step puts on a mirror: the first carries the step's label, the others NONE
(44_output_assembler.md R154). -/
def mirrorRun (label : Label) : List Sample → List MirrorElem
  | [] => []
  | x :: xs => ⟨x, label⟩ :: xs.map (fun y => ⟨y, .blank⟩)

/-- The prologue's effect on W: the first window dechirped against the state's own reference and fed
(43_state_machine.md R119). -/
def prologue (q : SeqState) (s : State) : State :=
  feedFrom 0 (dechirpBlock .first (refOf q) s) s

/-- The epilogue (43_state_machine.md R140), from the state the body left. Nothing before it changes the
input, so the mirrors see the samples read at step start. -/
def epilogue (plan : StepPlan) (value : Nat) (s : State) : State :=
  { s with
    prev := BitVec.ofNat 16 value
    input := s.input.drop plan.c
    rawOut := if s.rawEn then s.rawOut ++ mirrorRun plan.label ((inWindow s).take plan.c) else s.rawOut
    decOut := if s.decEn then s.decOut ++ mirrorRun plan.label (plan.dd.take plan.c) else s.decOut
    seq := plan.next.code
    consumed := s.consumed + plan.c }

end Sys2Proof.Machine
end

