-- ==== Sys2Proof/Machine/Operands.lean ====
section
/-! DEFINITION. The operand slices of HCW.DATA and the images of the nine registers (30_encoding.md R75,
R77), and the codes and texts of labels. -/

namespace Sys2Proof.Machine

/-! ## Write operands (30_encoding.md R75) -/

/-- CTRL.ACTIVATE, DATA[0]. -/
def ctrlActivate (d : Word32) : Bool := d.getLsbD 0

/-- CTRL.RAW_EN, DATA[1]. -/
def ctrlRawEn (d : Word32) : Bool := d.getLsbD 1

/-- CTRL.DEC_EN, DATA[2]. -/
def ctrlDecEn (d : Word32) : Bool := d.getLsbD 2

/-- STATUS.ERR clear, DATA[8]. -/
def statusErrClear (d : Word32) : Bool := d.getLsbD 8

/-- SYNCWORD, DATA[7:0]. -/
def syncwordOperand (d : Word32) : BitVec 8 := d.extractLsb' 0 8

/-- MTU, DATA[15:0]. -/
def mtuOperand (d : Word32) : BitVec 16 := d.extractLsb' 0 16

/-! ## Register images (30_encoding.md R77); reserved bits read 0 (R78) -/

/-- ID: SF in bits 4:0. -/
def idImage (s : State) : Word32 := BitVec.ofNat 32 s.params.sf

/-- CTRL: RAW_EN in bit 1, DEC_EN in bit 2; bit 0 reads 0. -/
def ctrlImage (s : State) : Word32 :=
  0#29 ++ BitVec.ofBool s.decEn ++ BitVec.ofBool s.rawEn ++ 0#1

/-- SYNCWORD in bits 7:0. -/
def syncwordImage (s : State) : Word32 := s.syncword.setWidth 32

/-- MTU in bits 15:0. -/
def mtuImage (s : State) : Word32 := s.mtu.setWidth 32

/-- MTU_LATCHED: MTU_L in bits 15:0. -/
def mtuLatchedImage (s : State) : Word32 := s.mtuL.setWidth 32

/-- SYMCOUNT in bits 15:0. -/
def symcountImage (s : State) : Word32 := s.symcount.setWidth 32

/-- PREV_VALUE: PREV in bits 15:0. -/
def prevImage (s : State) : Word32 := s.prev.setWidth 32

/-- MTU_MAX in bits 15:0. -/
def mtuMaxImage (s : State) : Word32 := BitVec.ofNat 32 s.params.mtuMax

/-! ## The sync word's nibbles (10_state.md R32) -/

/-- SYNCWORD[7:4], matched against the first sync symbol. -/
def syncHi (s : State) : Nat := (s.syncword.extractLsb' 4 4).toNat

/-- SYNCWORD[3:0], matched against the second. -/
def syncLo (s : State) : Nat := (s.syncword.extractLsb' 0 4).toNat

/-! ## Labels (30_encoding.md R84) -/

/-- The 3-bit code of a label. -/
def labelCode : Label → BitVec 3
  | .blank => 0#3
  | .sync => 1#3
  | .dc => 2#3
  | .qc => 3#3
  | .s => 4#3
  | .x => 5#3

/-- The text of a label; NONE has none. -/
def labelText : Label → String
  | .blank => ""
  | .sync => "SYNC"
  | .dc => "DC"
  | .qc => "QC"
  | .s => "S"
  | .x => "X"

end Sys2Proof.Machine
end

