-- ==== Sys2Proof/Machine/Flags.lean ====
section
/-! DEFINITION. The status flags, the step guard and the FRAMESYNC tests. The core has no condition codes
(10_state.md R29). -/

namespace Sys2Proof.Machine

/-- The STATUS word (45_host_interface.md R160): ACTIVE in bit 0, STATE in bits 3:1, ERR_CAUSE in bits
7:4, ERR in bit 8, ERR_ADDR in bits 23:16. -/
def statusImage (s : State) : Word32 :=
  0#8 ++ s.errAddr ++ 0#7 ++ BitVec.ofBool s.err ++ s.errCause ++ s.seq ++ BitVec.ofBool s.active

/-- COMPLETING() for the step operation of state `q` (43_state_machine.md R118): the step will emit a
frame. The step engine runs the operation of `x[state]`, so `q` is `x[state]` in every step. -/
def completing (q : SeqState) (s : State) : Bool :=
  q == .datasymbols && s.symcount.toNat + 1 == s.mtuL.toNat

/-- GUARD() for the step operation of state `q` (43_state_machine.md R117). -/
def stepGuard (q : SeqState) (s : State) : Bool :=
  s.active
    && decide (2 * s.params.size ≤ s.input.length)
    && (!s.rawEn || decide (2 * s.params.size ≤ s.rawFree))
    && (!s.decEn || decide (2 * s.params.size ≤ s.decFree))
    && (!completing q s || s.frameReady)

/-- `syncd` (43_state_machine.md R121). -/
def syncd (s : State) : Bool := (s.prev.toNat + 1) / 2 == 0

/-- The match of a detected symbol against a nibble (43_state_machine.md R122, R123). -/
def nibbleMatch (value nibble : Nat) : Bool := (value + 4) / 8 == nibble

end Sys2Proof.Machine
end

