-- ==== Sys2Proof/Machine/HostCommands.lean ====
section
/-! DEFINITION. The meanings of the 18 host commands (45_host_interface.md). Every read returns one word
and changes nothing else (20_memory.md R63); DATA is ignored on a read. -/

namespace Sys2Proof.Machine

/-! ## Reads -/

/-- RD_ID: the spreading factor (45_host_interface.md R157). -/
def execRdId (_data : Word32) (s : State) : Result := .next (respond (idImage s) s)

/-- RD_CTRL: the mirror enables (45_host_interface.md R162). -/
def execRdCtrl (_data : Word32) (s : State) : Result := .next (respond (ctrlImage s) s)

/-- RD_STATUS: the status word; reading does not clear ERR (45_host_interface.md R160). -/
def execRdStatus (_data : Word32) (s : State) : Result := .next (respond (statusImage s) s)

/-- RD_SYNCWORD: the sync word (45_host_interface.md R163). -/
def execRdSyncword (_data : Word32) (s : State) : Result := .next (respond (syncwordImage s) s)

/-- RD_MTU: the configured MTU, 0 while not configured (45_host_interface.md R166). -/
def execRdMtu (_data : Word32) (s : State) : Result := .next (respond (mtuImage s) s)

/-- RD_MTU_LATCHED: the MTU latched for the current frame (45_host_interface.md R167). -/
def execRdMtuLatched (_data : Word32) (s : State) : Result := .next (respond (mtuLatchedImage s) s)

/-- RD_SYMCOUNT: the data-symbol counter (45_host_interface.md R168). -/
def execRdSymcount (_data : Word32) (s : State) : Result := .next (respond (symcountImage s) s)

/-- RD_PREV_VALUE: the previous detected value (45_host_interface.md R169). -/
def execRdPrevValue (_data : Word32) (s : State) : Result := .next (respond (prevImage s) s)

/-- RD_MTU_MAX: the parameter MTU_MAX (45_host_interface.md R170). -/
def execRdMtuMax (_data : Word32) (s : State) : Result := .next (respond (mtuMaxImage s) s)

/-! ## Writes -/

/-- WR_CTRL: the enables are written first, then ACTIVATE is performed if DATA[0] = 1, so they are written
even where the activation is refused (45_host_interface.md R158, R159). -/
def execWrCtrl (data : Word32) (s : State) : Result :=
  let s1 := { s with rawEn := ctrlRawEn data, decEn := ctrlDecEn data }
  .next (if ctrlActivate data then activate s1 else s1)

/-- WR_STATUS: DATA[8] = 1 clears the error record (45_host_interface.md R161). -/
def execWrStatus (data : Word32) (s : State) : Result :=
  .next (if statusErrClear data then clearError s else s)

/-- WR_SYNCWORD: every byte is legal (45_host_interface.md R164). -/
def execWrSyncword (data : Word32) (s : State) : Result :=
  .next { s with syncword := syncwordOperand data }

/-- WR_MTU: 0 and values above MTU_MAX are refused with MTU_INVALID and leave MTU unchanged
(45_host_interface.md R165). -/
def execWrMtu (data : Word32) (s : State) : Result :=
  if mtuOperand data = 0#16 ∨ s.params.mtuMax < (mtuOperand data).toNat then
    .next (raiseError .mtuInvalid (Reg.addr .mtu) s)
  else .next { s with mtu := mtuOperand data }

/-! ## Writes to read-only registers: no effect and no error -/

/-- WR_ID: no state changes (45_host_interface.md R171). -/
def execWrId (_data : Word32) (s : State) : Result := .next s

/-- WR_MTU_LATCHED: no state changes (45_host_interface.md R172). -/
def execWrMtuLatched (_data : Word32) (s : State) : Result := .next s

/-- WR_SYMCOUNT: no state changes (45_host_interface.md R173). -/
def execWrSymcount (_data : Word32) (s : State) : Result := .next s

/-- WR_PREV_VALUE: no state changes (45_host_interface.md R174). -/
def execWrPrevValue (_data : Word32) (s : State) : Result := .next s

/-- WR_MTU_MAX: no state changes (45_host_interface.md R175). -/
def execWrMtuMax (_data : Word32) (s : State) : Result := .next s

end Sys2Proof.Machine
end

