-- ==== Sys2Proof/Machine/MicroOps.lean ====
section
/-! DEFINITION. The meanings of the 8 micro-operations, run on their own (30_encoding.md R82). The step
operations are built from the same operations of Machine/Ops.lean. -/

namespace Sys2Proof.Machine

/-- GEN: both chirp tables, from SF alone (41_chirp_table.md R93). -/
def execGen (s : State) : Result :=
  .next { s with up := upTable s.params, down := downTable s.params }

/-- DECHIRP(b, R): the block `d` is its result and no architectural state changes
(42_symbol_detector.md R102). -/
def execDechirp (base : WinBase) (ref : ChirpRef) (s : State) : Result :=
  .next { s with work := { s.work with block := dechirpBlock base ref s } }

/-- FEED(i, s) (42_symbol_detector.md R106). W has no slot from N on. An exact value fed to a
finite-precision instance becomes a word first (log entry 25). -/
def execFeed (slot : BitVec 16) (sample : Sample) (s : State) : Result :=
  if slot.toNat < s.params.size then
    .next (feedSlot slot.toNat (portSample s.params.num sample) s)
  else .fault .windowSlot

/-- DETECT(): the symbol is its result; W is not changed (42_symbol_detector.md R108). -/
def execDetect (s : State) : Result :=
  .next { s with work := { s.work with symbol := detectValue s } }

/-- ALLOC(M) (44_output_assembler.md R145). -/
def execAlloc (capacity : BitVec 16) (s : State) : Result := allocBuf capacity s

/-- APPEND(k, v) (44_output_assembler.md R144). -/
def execAppend (index : BitVec 16) (symbol : SymbolWord) (s : State) : Result :=
  appendBuf index symbol s

/-- EMIT(M) (44_output_assembler.md R146). -/
def execEmit (length : BitVec 16) (s : State) : Result := emitBuf length s

/-- DISCARD() (44_output_assembler.md R148). -/
def execDiscard (s : State) : Result := .next (discardBuf s)

end Sys2Proof.Machine
end

