-- ==== Sys2Proof/Machine/StepOps.lean ====
section
/-! DEFINITION. The meanings of the five step operations (43_state_machine.md). Each is one atomic step:
guard, prologue, body, epilogue. While GUARD() is false a step is a no-op (R117). The step engine runs
the operation of `x[state]`; run on its own, an operation uses its own state's code and reference. -/

namespace Sys2Proof.Machine

/-! ## STEP_FRAMESYNC -/

/-- The skip outcome (43_state_machine.md R125), with the first window's value and block. -/
def skipPlan (p : Params) (value : Nat) (d : List Sample) : StepPlan :=
  ⟨p.size - value, .framesync, .x, d⟩

/-- The full-sync outcome (43_state_machine.md R124), with both blocks. -/
def syncPlan (p : Params) (d d2 : List Sample) : StepPlan :=
  ⟨2 * p.size, .downchirp0, .sync, d ++ d2⟩

/-- W after the second window's block has been fed (43_state_machine.md R123). -/
def secondWindow (s : State) : State := feedFrom 0 (dechirpBlock .second .up s) s

/-- STEP_FRAMESYNC with GUARD() true (43_state_machine.md R120): the second window is dechirped and
detected only where syncd and match0 hold, and only a match of both symbols syncs and latches MTU_L
(R127). -/
def framesyncStep (s : State) : State :=
  let d := dechirpBlock .first .up s
  let s1 := prologue .framesync s
  let value := detectValue s1
  if syncd s && nibbleMatch value (syncHi s) then
    let d2 := dechirpBlock .second .up s
    let s2 := secondWindow s1
    if nibbleMatch (detectValue s2) (syncLo s) then
      epilogue (syncPlan s.params d d2) value { s2 with mtuL := s.mtu }
    else epilogue (skipPlan s.params value d) value s2
  else epilogue (skipPlan s.params value d) value s1

/-- STEP_FRAMESYNC (43_state_machine.md R120). -/
def execStepFramesync (s : State) : Result :=
  if stepGuard .framesync s then .next (framesyncStep s) else .next s

/-! ## The down-chirps and the quarter chirp -/

/-- STEP_DOWNCHIRP0 (43_state_machine.md R130). -/
def execStepDownchirp0 (s : State) : Result :=
  if stepGuard .downchirp0 s then
    let d := dechirpBlock .first (refOf .downchirp0) s
    let s1 := prologue .downchirp0 s
    .next (epilogue ⟨s.params.size, .downchirp1, .dc, d⟩ (detectValue s1) s1)
  else .next s

/-- STEP_DOWNCHIRP1 (43_state_machine.md R132): it allocates the frame buffer (R133). -/
def execStepDownchirp1 (s : State) : Result :=
  if stepGuard .downchirp1 s then
    let d := dechirpBlock .first (refOf .downchirp1) s
    let s1 := prologue .downchirp1 s
    andThen (allocBuf s.mtuL s1) fun s2 =>
      .next (epilogue ⟨s.params.size, .quarterchirp, .blank, d⟩ (detectValue s1) s2)
  else .next s

/-- STEP_QUARTERCHIRP (43_state_machine.md R134): N/4 samples, and SYMCOUNT becomes 0 (R136). -/
def execStepQuarterchirp (s : State) : Result :=
  if stepGuard .quarterchirp s then
    let d := dechirpBlock .first (refOf .quarterchirp) s
    let s1 := prologue .quarterchirp s
    .next (epilogue ⟨s.params.size / 4, .datasymbols, .qc, d⟩ (detectValue s1)
      { s1 with symcount := 0#16 })
  else .next s

/-! ## STEP_DATASYMBOLS -/

/-- The body's end (43_state_machine.md R139): the frame is emitted when the counter reaches MTU_L. `k` is
SYMCOUNT at step start. -/
def datasymbolsEnd (k : Nat) (value : Nat) (d : List Sample) (s : State) : Result :=
  if k + 1 = s.mtuL.toNat then
    andThen (emitBuf s.mtuL s) fun s' =>
      .next (epilogue ⟨s.params.size, .framesync, .s, d⟩ value s')
  else .next (epilogue ⟨s.params.size, .datasymbols, .s, d⟩ value s)

/-- STEP_DATASYMBOLS (43_state_machine.md R137-R139): one data symbol is detected, appended at SYMCOUNT
and counted. -/
def execStepDatasymbols (s : State) : Result :=
  if stepGuard .datasymbols s then
    let d := dechirpBlock .first (refOf .datasymbols) s
    let s1 := prologue .datasymbols s
    let value := detectValue s1
    andThen (appendBuf s.symcount (BitVec.ofNat 16 value) s1) fun s2 =>
      datasymbolsEnd s.symcount.toNat value d { s2 with symcount := s.symcount + 1#16 }
  else .next s

end Sys2Proof.Machine
end

