-- ==== Sys2Proof/Machine/Dispatch.lean ====
section
/-! DEFINITION. The dispatcher: one arm per instruction, each a direct call of its meaning. -/

namespace Sys2Proof.Machine

def exec (i : Instr) (s : State) : Host.Outcome State Fault Refusal :=
  match i with
  | .rdId data => Sys2Proof.Machine.execRdId data s
  | .wrId data => Sys2Proof.Machine.execWrId data s
  | .rdCtrl data => Sys2Proof.Machine.execRdCtrl data s
  | .wrCtrl data => Sys2Proof.Machine.execWrCtrl data s
  | .rdStatus data => Sys2Proof.Machine.execRdStatus data s
  | .wrStatus data => Sys2Proof.Machine.execWrStatus data s
  | .rdSyncword data => Sys2Proof.Machine.execRdSyncword data s
  | .wrSyncword data => Sys2Proof.Machine.execWrSyncword data s
  | .rdMtu data => Sys2Proof.Machine.execRdMtu data s
  | .wrMtu data => Sys2Proof.Machine.execWrMtu data s
  | .rdMtuLatched data => Sys2Proof.Machine.execRdMtuLatched data s
  | .wrMtuLatched data => Sys2Proof.Machine.execWrMtuLatched data s
  | .rdSymcount data => Sys2Proof.Machine.execRdSymcount data s
  | .wrSymcount data => Sys2Proof.Machine.execWrSymcount data s
  | .rdPrevValue data => Sys2Proof.Machine.execRdPrevValue data s
  | .wrPrevValue data => Sys2Proof.Machine.execWrPrevValue data s
  | .rdMtuMax data => Sys2Proof.Machine.execRdMtuMax data s
  | .wrMtuMax data => Sys2Proof.Machine.execWrMtuMax data s
  | .stepFramesync => Sys2Proof.Machine.execStepFramesync s
  | .stepDownchirp0 => Sys2Proof.Machine.execStepDownchirp0 s
  | .stepDownchirp1 => Sys2Proof.Machine.execStepDownchirp1 s
  | .stepQuarterchirp => Sys2Proof.Machine.execStepQuarterchirp s
  | .stepDatasymbols => Sys2Proof.Machine.execStepDatasymbols s
  | .gen => Sys2Proof.Machine.execGen s
  | .dechirp base ref => Sys2Proof.Machine.execDechirp base ref s
  | .feed slot sample => Sys2Proof.Machine.execFeed slot sample s
  | .detect => Sys2Proof.Machine.execDetect s
  | .alloc capacity => Sys2Proof.Machine.execAlloc capacity s
  | .append index symbol => Sys2Proof.Machine.execAppend index symbol s
  | .emit length => Sys2Proof.Machine.execEmit length s
  | .discard => Sys2Proof.Machine.execDiscard s

end Sys2Proof.Machine
end

