-- ==== Sys2Proof/Machine/Fetch.lean ====
section
/-! DEFINITION. How the machine comes by its next instruction: the agents' transitions one at a time, a host
command word decoded, the step operation selected by the state code. -/

namespace Sys2Proof.Machine

/-- A host command word as one transition (45_host_interface.md R156): decoded and performed, or refused
with its cause (R176). -/
def hostAccess (w : Hcw) (s : State) : Result :=
  match decode (.hcw w) with
  | .ok i => exec i s
  | .reject .busAlign => .next (refuseAccess .busAlign w s)
  | .reject .busDecode => .next (refuseAccess .busDecode w s)
  | .reject .illegalState => .fault .illegalState

/-- The step engine's turn (43_state_machine.md R115): the operation `x[state]` selects. With a reserved
code a step the guard enables faults ILLEGAL_STATE (60_exceptions.md R184 (a)); that state completes no
frame. -/
def coreTurn (s : State) : Result :=
  match decode (.step s.seq) with
  | .ok i => exec i s
  | .reject _ => if stepGuard .framesync s then .fault .illegalState else .next s

/-- One transition of an agent (00_scope.md R6, 20_memory.md R67). -/
def perform : Event → State → Result
  | .host w, s => hostAccess w s
  | .supply xs, s => .next (supplyInput xs s)
  | .rawSpace n, s => .next { s with rawFree := n }
  | .decSpace n, s => .next { s with decFree := n }
  | .frameSink b, s => .next { s with frameReady := b }
  | .core, s => coreTurn s

/-- One step of the interleaving: the first transition the agents have ready; with none ready it is the step
engine's turn (70_reset_and_hazards.md R210). -/
def advance (s : State) : Result :=
  match s.agenda with
  | [] => coreTurn s
  | e :: rest => perform e { s with agenda := rest }

/-! ## Placing an instruction where the machine fetches it -/

/-- The sequencer in state `q` as runs have it there: active, a legal MTU_L and a data symbol to come after
full sync, the buffer allocated exactly in QUARTERCHIRP and DATASYMBOLS (10_state.md R48). -/
def inSequencerState (q : SeqState) (s : State) : State :=
  { s with
    seq := q.code
    active := true
    mtu := if s.mtu = 0#16 then 1#16 else s.mtu
    mtuL := if s.mtuL = 0#16 ∧ q ≠ .framesync then 1#16 else s.mtuL
    symcount := if s.symcount.toNat < s.mtuL.toNat then s.symcount else 0#16
    bufAlloc := q == .quarterchirp || q == .datasymbols }

/-- The ports as the step guard asks for them (43_state_machine.md R117): the missing input samples are
zeros, and the sinks have room. -/
def withOpenPorts (s : State) : State :=
  { s with
    input := s.input ++ List.replicate (2 * s.params.size - s.input.length) zeroWord
    rawFree := max s.rawFree (2 * s.params.size)
    decFree := max s.decFree (2 * s.params.size)
    frameReady := true
    agenda := [] }

/-- A state whose next step runs the operation of state code `c`; a reserved code is placed as it is. -/
def placeStep (c : BitVec 3) (s : State) : State :=
  match SeqState.ofCode c with
  | some q => withOpenPorts (inSequencerState q s)
  | none => withOpenPorts { s with seq := c, active := true }

/-- A state whose next step performs the host command word `w`. -/
def placeHost (w : Hcw) (s : State) : State := { s with agenda := .host w :: s.agenda }

end Sys2Proof.Machine
end

