-- ==== Sys2Proof/Machine/Step.lean ====
section
/-! DEFINITION. One step of the machine, and the placing of an instruction for the next step. -/

namespace Sys2Proof.Machine

/-- One transition of the interleaving (20_memory.md R67). -/
def step (s : State) : Host.Outcome State Fault Refusal := advance s

/-- `s` with the instruction of the opcode table's number `w` placed where the next step fetches it: a
host command word is the next transition the host has ready; a state code is in `x[state]`, with the
step guard true. -/
def State.withFetchWord (s : State) (nbits w : Nat) : State :=
  if nbits = 64 then placeHost (BitVec.ofNat 64 w) s else placeStep (BitVec.ofNat 3 w) s

end Sys2Proof.Machine
end

