-- ==== Sys2Proof/Machine/Assembler.lean ====
section
/-! DEFINITION. The host program forms and the stream directives of 30_encoding.md R91 and R92, as the
command words, samples and steps they stand for. -/

namespace Sys2Proof.Machine

/-- A line of a host program (30_encoding.md R91). -/
inductive HostLine where
  | rd (r : Reg)
  | wr (r : Reg) (imm : Word32)
  /-- `ACTIVATE`, `ACTIVATE RAW`, `ACTIVATE DEC`, `ACTIVATE RAW DEC`. -/
  | activate (raw dec : Bool)
  | mirrors (raw dec : Bool)
  | clrerr
  | setsync (imm : BitVec 8)
  | setmtu (imm : BitVec 16)
  deriving DecidableEq, Repr

/-- The two mirror bits of a CTRL operand. -/
def mirrorBits (raw dec : Bool) : Word32 :=
  0#29 ++ BitVec.ofBool dec ++ BitVec.ofBool raw ++ 0#1

/-- The command word a line expands to (30_encoding.md R91). -/
def lineWord : HostLine → Hcw
  | .rd r => hcwWord false r 0#32
  | .wr r d => hcwWord true r d
  | .activate raw dec => hcwWord true .ctrl (mirrorBits raw dec ||| 1#32)
  | .mirrors raw dec => hcwWord true .ctrl (mirrorBits raw dec)
  | .clrerr => hcwWord true .status 0x100#32
  | .setsync v => hcwWord true .syncword (v.setWidth 32)
  | .setmtu v => hcwWord true .mtu (v.setWidth 32)

/-- A stream directive (30_encoding.md R92). -/
inductive StreamLine where
  | up (k : Nat)
  | down
  | qdown
  | zero (n : Nat)
  | samples (xs : List Sample)
  | run
  deriving DecidableEq, Repr

/-! ## The sample source (30_encoding.md R92) -/

/-- `x·exp(j·2π·a/65536)`, the exact product; a sample that is no number is passed on as it is, and a
phase of 0 changes nothing (log entry 27). -/
def turned (fmt : SampleFmt) (x : Sample) (a : Phase) : Sample :=
  if a = 0#16 then x
  else match sampleValue fmt x with
    | some z => .exact (exMul z (ofRoot (rootOf a)))
    | none => x

/-- `up(k)`: the samples `UP[i]·exp(j·2π·k·i/N)` of the instance's own table (30_encoding.md R92). -/
def shiftedChirp (p : Params) (k : Nat) : List Sample :=
  (upTable p).zipIdx.map fun t =>
    turned p.num.fmt t.1 (BitVec.ofNat 16 (k * t.2 * (65536 / p.size)))

/-- The samples a directive appends (30_encoding.md R92); RUN appends none. -/
def streamSamples (p : Params) : StreamLine → List Sample
  | .up k => shiftedChirp p k
  | .down => downTable p
  | .qdown => (downTable p).take (p.size / 4)
  | .zero n => List.replicate n (exactSample 0 0)
  | .samples xs => xs
  | .run => []

/-! ## RUN (30_encoding.md R92) -/

/-- Every enabled sink ready: room for the most one step can emit, and a frame accepted. -/
def readySinks (s : State) : State :=
  { s with
    rawFree := max s.rawFree (2 * s.params.size)
    decFree := max s.decFree (2 * s.params.size)
    frameReady := true }

/-- Whether a step is enabled: the guard of the operation `x[state]` selects (43_state_machine.md R117). A
reserved code has the guard of a step that completes no frame. -/
def coreEnabled (s : State) : Bool :=
  match SeqState.ofCode s.seq with
  | some q => stepGuard q s
  | none => stepGuard .framesync s

/-- The core's turns until no step is enabled, at most `fuel` of them. -/
def runSteps : (fuel : Nat) → State → Result
  | 0, s => .next (readySinks s)
  | fuel + 1, s =>
    if coreEnabled (readySinks s) then andThen (coreTurn (readySinks s)) (runSteps fuel)
    else .next (readySinks s)

/-- A stream directive performed. Every step consumes a sample, so `RUN` takes no more steps than there are
samples. -/
def performStream (l : StreamLine) (s : State) : Result :=
  match l with
  | .run => runSteps s.input.length s
  | l => .next (supplyInput (streamSamples s.params l) s)

/-- A line of a test program: a host command or a stream directive. -/
inductive ProgramLine where
  | host (l : HostLine)
  | stream (l : StreamLine)
  deriving DecidableEq, Repr

/-- A test program's lines, performed in order (95_test_vectors.md §3). -/
def runProgram : List ProgramLine → State → Result
  | [], s => .next s
  | .host l :: rest, s => andThen (hostAccess (lineWord l) s) (runProgram rest)
  | .stream l :: rest, s => andThen (performStream l s) (runProgram rest)

end Sys2Proof.Machine
end

