-- ==== Sys2Proof/Safety.lean ====
section
/-! DEFINITION. What every reachable state is like (10_state.md R48), and what counts as a safe step. -/

namespace Sys2Proof.Machine

/-- A sequencer state after full sync (10_state.md R48 (2)). -/
def afterSync (c : BitVec 3) : Bool :=
  c == SeqState.code .downchirp0 || c == SeqState.code .downchirp1
    || c == SeqState.code .quarterchirp || c == SeqState.code .datasymbols

/-- A sequencer state with an allocated buffer (10_state.md R48 (4)). -/
def bufferState (c : BitVec 3) : Bool :=
  c == SeqState.code .quarterchirp || c == SeqState.code .datasymbols

/-- The invariants of every reachable state. The numbered ones are 10_state.md R48's; the others say
that the state code is legal (R26), the tables are GEN's (R37), the sparse arrays are canonical, every
entry of the frame in progress was appended (R45), and the input holds what the port carries. -/
structure State.Inv (s : State) : Prop where
  /-- R26: never a reserved code. -/
  legalCode : (SeqState.ofCode s.seq).isSome
  /-- R48 (1). -/
  prevBelow : s.prev.toNat < s.params.size
  /-- R48 (2). -/
  frameLength : afterSync s.seq → 1 ≤ s.mtuL.toNat ∧ s.mtuL.toNat ≤ s.params.mtuMax
  /-- R48 (3). -/
  countBelow : s.seq = SeqState.code .datasymbols → s.symcount.toNat < s.mtuL.toNat
  /-- R48 (4). -/
  bufferExact : s.bufAlloc = bufferState s.seq
  /-- R48 (5). -/
  inactive : s.active = false →
    s.seq = SeqState.code .framesync ∧ s.prev = 0#16 ∧ s.symcount = 0#16 ∧ s.mtuL = 0#16 ∧ s.bufAlloc = false
  /-- R48 (6). -/
  mtuLegal : s.mtu.toNat ≤ s.params.mtuMax
  /-- R127: an active core has a configured MTU. -/
  activeConfigured : s.active → s.mtu ≠ 0#16
  /-- R37. -/
  upGenerated : s.up = upTable s.params
  /-- R37. -/
  downGenerated : s.down = downTable s.params
  /-- W's slots are in canonical form. -/
  windowWf : slotsWf 0 s.params.size s.window = true
  /-- BUF's entries are in canonical form. -/
  bufWf : slotsWf 0 s.params.mtuMax s.buf = true
  /-- R45: what a frame will hold has been appended. -/
  appended : s.seq = SeqState.code .datasymbols → ∀ k < s.symcount.toNat, (getSlot k s.buf).isSome
  /-- R10: the input port of a finite-precision instance carries sample words (log entry 25). -/
  inputPort : ∀ x ∈ s.input, portSample s.params.num x = x

/-! ## Exact numbers as complex numbers (00_scope.md R17), for the statements only -/

/-- The given reals. -/
noncomputable def givenVal (i : Nat) : ℝ :=
  match Config.givenReals with
  | .none => 0
  | .given val _ _ _ _ => val i

/-- The real number a part stands for. -/
noncomputable def realVal (x : RealNum) : ℝ := x.base + x.factor * givenVal x.index

/-- The complex number an exact number stands for. -/
noncomputable def toComplex (z : ExactNum) : ℂ := exactVal givenVal z

/-- The DFT bin `X[m]` of a window, in the complex numbers (42_symbol_detector.md R109). -/
noncomputable def dftBin (n m : Nat) (w : List ℂ) : ℂ :=
  ∑ i ∈ Finset.range n, w.getD i 0 * Complex.exp (-(2 * Real.pi * m * i / n) * Complex.I)

/-- TOL_DET of an instance as a real number; 0 for the ideal one (00_scope.md R13). -/
noncomputable def tolDet (p : Params) : ℝ :=
  match p.num.real with
  | .ideal => 0
  | .finite _ => ((Config.tolDet p.num : ℚ) : ℝ)

/-! ## Steps -/

/-- A step that goes on. -/
def goesOn (r : Result) : Prop := ∃ t, r = .next t

/-- GUARD() of 43_state_machine.md R117 for the step operation of state `q`, written out from the rule. -/
def Guard (q : SeqState) (s : State) : Prop :=
  s.active = true
    ∧ 2 * s.params.size ≤ s.input.length
    ∧ (s.rawEn = false ∨ 2 * s.params.size ≤ s.rawFree)
    ∧ (s.decEn = false ∨ 2 * s.params.size ≤ s.decFree)
    ∧ (¬(q = .datasymbols ∧ s.symcount.toNat + 1 = s.mtuL.toNat) ∨ s.frameReady = true)

/-- A mirror's stream after a step that emits `xs` under `label`, if the mirror is enabled. -/
def mirrored (enabled : Bool) (label : Label) (xs : List Sample) (before : List MirrorElem) :
    List MirrorElem :=
  if enabled then before ++ mirrorRun label xs else before

/-- The error record after `raise cause(a)` (60_exceptions.md R181). -/
def recorded (cause : BitVec 4) (a : BitVec 8) (s : State) : State :=
  if s.err = true then s else { s with err := true, errCause := cause, errAddr := a }

/-- The error record as a value. -/
def errRecord (s : State) : Bool × BitVec 4 × BitVec 8 := (s.err, s.errCause, s.errAddr)

/-- Instructions run one after another, the first stop ending the run. -/
def execAll : List Instr → State → Result
  | [], s => .next s
  | i :: is, s => andThen (exec i s) (execAll is)

/-- The FEEDs of a whole block, slots `n` on (43_state_machine.md R119). -/
def feedsFrom : (n : Nat) → List Sample → List Instr
  | _, [] => []
  | n, x :: xs => .feed (BitVec.ofNat 16 n) x :: feedsFrom (n + 1) xs

end Sys2Proof.Machine
end

