-- ==== Sys2Proof/Certificates/Slice0/Obligations.lean ====
section
/-! DEFINITION. The statements for the provers, from the numbered rules of spec/. -/

open Sys2Proof Sys2Proof.Machine

/-! ## Encodings -/

/-- Decoding the code of an instruction gives the instruction back, with every DATA bit. -/
def Obligations.EncodeThenDecode : Prop :=
  ∀ (i : Instr) (c : Code), encode i = some c → decode c = .ok i

/-- A code that decodes stands for one well-formed instruction, whose code it is. -/
def Obligations.DecodeThenEncode : Prop :=
  ∀ (c : Code) (i : Instr), decode c = .ok i → i.wellFormed = true ∧ encode i = some c

/-- 30_encoding.md R79: a word is legal exactly if, all bits but DATA masked, it is
`(RW << 63) | (0b10 << 40) | (ADDR << 32)` for one of the mapped addresses. -/
def Obligations.LegalWordsMatchTheCommandMap : Prop :=
  ∀ (w : BitVec 64) (i : Instr), decode (.hcw w) = .ok i ↔
    ∃ (rw : Bool) (r : Reg),
      w &&& 0xFFFFFFFF00000000#64
          = ((BitVec.ofBool rw).setWidth 64 <<< 63) ||| (0b10#64 <<< 40) ||| (r.addr.setWidth 64 <<< 32)
        ∧ i = if rw then writeCommand (w.setWidth 32) r else readCommand (w.setWidth 32) r

/-- 30_encoding.md R73: the tests of a command word in their order. -/
def Obligations.DecodeTestOrder : Prop :=
  ∀ w : BitVec 64,
    ((w.extractLsb' 40 2 ≠ 0b10#2 ∨ w.extractLsb' 32 2 ≠ 0b00#2) → decode (.hcw w) = .reject .busAlign) ∧
    (w.extractLsb' 40 2 = 0b10#2 → w.extractLsb' 32 2 = 0b00#2 →
      (w.extractLsb' 42 21 ≠ 0#21 ∨ 0x20 < (w.extractLsb' 32 8).toNat) →
        decode (.hcw w) = .reject .busDecode) ∧
    (w.extractLsb' 40 2 = 0b10#2 → w.extractLsb' 32 2 = 0b00#2 → w.extractLsb' 42 21 = 0#21 →
      (w.extractLsb' 32 8).toNat ≤ 0x20 →
        ∃ r : Reg, r.addr = w.extractLsb' 32 8 ∧
          decode (.hcw w) = .ok (if w.getLsbD 63 then writeCommand (w.extractLsb' 0 32) r
            else readCommand (w.extractLsb' 0 32) r))

/-- Words and codes as the spec writes them decode to their commands and steps (30_encoding.md R80, R83;
45_host_interface.md R157 on). -/
def Obligations.SpecWordsDecode : Prop :=
  decode (.hcw 0x0000_0200_0000_0000#64) = .ok (.rdId 0#32) ∧
  decode (.hcw 0x8000_0210_0000_0002#64) = .ok (.wrMtu 2#32) ∧
  decode (.hcw 0x8000_0204_0000_0007#64) = .ok (.wrCtrl 7#32) ∧
  decode (.hcw 0x0000_021C_0000_0000#64) = .ok (.rdPrevValue 0#32) ∧
  decode (.hcw 0x8000_0220_0000_FFFF#64) = .ok (.wrMtuMax 0xFFFF#32) ∧
  decode (.hcw 0x0000_0106_0000_0000#64) = .reject .busAlign ∧
  decode (.hcw 0x0000_0600_0000_0000#64) = .reject .busDecode ∧
  decode (.step 0b000#3) = .ok .stepFramesync ∧
  decode (.step 0b001#3) = .ok .stepDownchirp0 ∧
  decode (.step 0b010#3) = .ok .stepDownchirp1 ∧
  decode (.step 0b011#3) = .ok .stepQuarterchirp ∧
  decode (.step 0b100#3) = .ok .stepDatasymbols ∧
  decode (.step 0b101#3) = .reject .illegalState

/-- 30_encoding.md R82: the micro-operations are numbered 0 to 7 and have no code, so no command word and no
state code is one. -/
def Obligations.MicroOpsHaveNoCode : Prop :=
  (microNumber .gen = some 0#3 ∧ (∀ b r, microNumber (.dechirp b r) = some 1#3)
    ∧ (∀ i x, microNumber (.feed i x) = some 2#3) ∧ microNumber .detect = some 3#3
    ∧ (∀ m, microNumber (.alloc m) = some 4#3) ∧ (∀ k v, microNumber (.append k v) = some 5#3)
    ∧ (∀ m, microNumber (.emit m) = some 6#3) ∧ microNumber .discard = some 7#3) ∧
  ∀ i n, microNumber i = some n → encode i = none ∧ ∀ c, decode c ≠ .ok i

/-! ## One step of the machine -/

/-- A step whose next transition is a command word that decodes runs exactly that command, the word taken
off the agenda (45_host_interface.md R156). The agenda is the model's choice, log entry 11. -/
def Obligations.StepRunsHostCommand : Prop :=
  ∀ (s : State) (w : Hcw) (rest : List Event) (i : Instr),
    s.agenda = .host w :: rest → decode (.hcw w) = .ok i → step s = exec i { s with agenda := rest }

/-- On its turn the step engine performs the operation `x[state]` selects (43_state_machine.md R115); with a
reserved code a step that the guard allows faults ILLEGAL_STATE, and without the guard nothing happens. That
the engine's turn is an empty agenda or the event `core` is the model's choice, log entry 11; which guard a
reserved code has, and so both clauses on reserved codes, is the model's reading, log entry 17. -/
def Obligations.StepRunsSelectedOperation : Prop :=
  (∀ (s : State) (q : SeqState), s.seq = q.code → s.agenda = [] → step s = exec q.stepInstr s) ∧
  (∀ (s : State) (q : SeqState) (rest : List Event), s.seq = q.code → s.agenda = .core :: rest →
    step s = exec q.stepInstr { s with agenda := rest }) ∧
  (∀ (s : State) (q : SeqState), s.seq = q.code → s.agenda = [] → ¬Guard q s → step s = .next s) ∧
  (∀ s : State, 0b100#3 < s.seq → s.agenda = [] → Guard .framesync s → step s = .fault .illegalState) ∧
  (∀ s : State, 0b100#3 < s.seq → s.agenda = [] → ¬Guard .framesync s → step s = .next s)

/-- 45_host_interface.md R176: a refused access has only this effect. The response goes to the log of
responses (log entry 15). -/
def Obligations.RefusedAccessOnlyRecords : Prop :=
  ∀ (s : State) (w : Hcw) (rest : List Event), s.agenda = .host w :: rest →
    (decode (.hcw w) = .reject .busAlign → w.getLsbD 63 = true →
      step s = .next (recorded 4#4 (w.extractLsb' 32 8) { s with agenda := rest })) ∧
    (decode (.hcw w) = .reject .busAlign → w.getLsbD 63 = false →
      step s = .next (recorded 4#4 (w.extractLsb' 32 8)
        { s with agenda := rest, responses := s.responses ++ [0#32] })) ∧
    (decode (.hcw w) = .reject .busDecode → w.getLsbD 63 = true →
      step s = .next (recorded 3#4 (w.extractLsb' 32 8) { s with agenda := rest })) ∧
    (decode (.hcw w) = .reject .busDecode → w.getLsbD 63 = false →
      step s = .next (recorded 3#4 (w.extractLsb' 32 8)
        { s with agenda := rest, responses := s.responses ++ [0#32] }))

/-- The sample source only appends, and the sinks only present their guard inputs (20_memory.md R59,
45_host_interface.md R178). That the guard inputs stay as last presented is the model's choice, log entry
13, and that a finite-precision instance's input port makes a word of an exact value, log entry 25: the word
that has the value, where the format has one (30_encoding.md R87). -/
def Obligations.PortTransitions : Prop :=
  ∀ (s : State) (rest : List Event),
    (∀ xs, s.agenda = .supply xs :: rest →
      step s = .next { s with agenda := rest, input := s.input ++ xs.map (portSample s.params.num) }) ∧
    (∀ n, s.agenda = .rawSpace n :: rest → step s = .next { s with agenda := rest, rawFree := n }) ∧
    (∀ n, s.agenda = .decSpace n :: rest → step s = .next { s with agenda := rest, decFree := n }) ∧
    (∀ b, s.agenda = .frameSink b :: rest → step s = .next { s with agenda := rest, frameReady := b }) ∧
    (s.params.num.real = .ideal → ∀ x, portSample s.params.num x = x) ∧
    (∀ w, portSample s.params.num (.word w) = .word w) ∧
    (s.params.num.real ≠ .ideal → ∀ (z x : ExactNum) (w : BitVec 64),
      sampleValue s.params.num.fmt (.word w) = some x → toComplex x = toComplex z →
      ∃ (v : BitVec 64) (y : ExactNum), portSample s.params.num (.exact z) = .word v ∧
        sampleValue s.params.num.fmt (.word v) = some y ∧ toComplex y = toComplex z)

/-! ## Host commands -/

/-- 45_host_interface.md R160: the STATUS word; the read changes nothing else. -/
def Obligations.RdStatusReturnsFlags : Prop :=
  ∀ (s : State) (d : Word32),
    encode (.rdStatus d) = some (.hcw (0x0000_0208_0000_0000#64 ||| d.setWidth 64)) ∧
    exec (.rdStatus d) s = .next { s with responses := s.responses ++
      [(BitVec.ofBool s.active).setWidth 32 ||| (s.seq.setWidth 32 <<< 1) ||| (s.errCause.setWidth 32 <<< 4)
        ||| ((BitVec.ofBool s.err).setWidth 32 <<< 8) ||| (s.errAddr.setWidth 32 <<< 16)] }

/-- The other eight reads return their register (45_host_interface.md R157, R162, R163, R166-R170) and change
nothing else (20_memory.md R63). -/
def Obligations.ReadsReturnTheirRegister : Prop :=
  ∀ (s : State) (d : Word32),
    encode (.rdId d) = some (.hcw (0x0000_0200_0000_0000#64 ||| d.setWidth 64)) ∧
    exec (.rdId d) s = .next { s with responses := s.responses ++ [BitVec.ofNat 32 s.params.sf] } ∧
    encode (.rdCtrl d) = some (.hcw (0x0000_0204_0000_0000#64 ||| d.setWidth 64)) ∧
    exec (.rdCtrl d) s = .next { s with responses := s.responses ++
      [((BitVec.ofBool s.rawEn).setWidth 32 <<< 1) ||| ((BitVec.ofBool s.decEn).setWidth 32 <<< 2)] } ∧
    encode (.rdSyncword d) = some (.hcw (0x0000_020C_0000_0000#64 ||| d.setWidth 64)) ∧
    exec (.rdSyncword d) s = .next { s with responses := s.responses ++ [s.syncword.setWidth 32] } ∧
    encode (.rdMtu d) = some (.hcw (0x0000_0210_0000_0000#64 ||| d.setWidth 64)) ∧
    exec (.rdMtu d) s = .next { s with responses := s.responses ++ [s.mtu.setWidth 32] } ∧
    encode (.rdMtuLatched d) = some (.hcw (0x0000_0214_0000_0000#64 ||| d.setWidth 64)) ∧
    exec (.rdMtuLatched d) s = .next { s with responses := s.responses ++ [s.mtuL.setWidth 32] } ∧
    encode (.rdSymcount d) = some (.hcw (0x0000_0218_0000_0000#64 ||| d.setWidth 64)) ∧
    exec (.rdSymcount d) s = .next { s with responses := s.responses ++ [s.symcount.setWidth 32] } ∧
    encode (.rdPrevValue d) = some (.hcw (0x0000_021C_0000_0000#64 ||| d.setWidth 64)) ∧
    exec (.rdPrevValue d) s = .next { s with responses := s.responses ++ [s.prev.setWidth 32] } ∧
    encode (.rdMtuMax d) = some (.hcw (0x0000_0220_0000_0000#64 ||| d.setWidth 64)) ∧
    exec (.rdMtuMax d) s = .next { s with responses := s.responses ++ [BitVec.ofNat 32 s.params.mtuMax] }

/-- The enables are always written; DATA[0] = 1 then activates, or with MTU = 0 only raises
ACT_UNCONFIGURED (45_host_interface.md R158, R159). That BUF's entries become free values (`buf = []`, the
next epoch) where a buffer is discarded is the model's choice, log entry 9. -/
def Obligations.WrCtrlWritesEnablesThenActivates : Prop :=
  ∀ (s : State) (d : Word32),
    encode (.wrCtrl d) = some (.hcw (0x8000_0204_0000_0000#64 ||| d.setWidth 64)) ∧
    (d.getLsbD 0 = false →
      exec (.wrCtrl d) s = .next { s with rawEn := d.getLsbD 1, decEn := d.getLsbD 2 }) ∧
    (d.getLsbD 0 = true → s.mtu = 0#16 →
      exec (.wrCtrl d) s
        = .next (recorded 2#4 0x04#8 { s with rawEn := d.getLsbD 1, decEn := d.getLsbD 2 })) ∧
    (d.getLsbD 0 = true → s.mtu ≠ 0#16 →
      exec (.wrCtrl d) s = .next { s with
        rawEn := d.getLsbD 1, decEn := d.getLsbD 2, seq := 0b000#3, active := true, prev := 0#16,
        symcount := 0#16, mtuL := 0#16, bufAlloc := false, buf := if s.bufAlloc then [] else s.buf,
        bufEpoch := if s.bufAlloc then s.bufEpoch + 1 else s.bufEpoch })

/-- 45_host_interface.md R161: DATA[8] = 1 clears the whole error record; nothing else is written. -/
def Obligations.WrStatusClearsTheRecord : Prop :=
  ∀ (s : State) (d : Word32),
    encode (.wrStatus d) = some (.hcw (0x8000_0208_0000_0000#64 ||| d.setWidth 64)) ∧
    (d.getLsbD 8 = true →
      exec (.wrStatus d) s = .next { s with err := false, errCause := 0#4, errAddr := 0#8 }) ∧
    (d.getLsbD 8 = false → exec (.wrStatus d) s = .next s)

/-- 45_host_interface.md R164: the write stores DATA[7:0]; no step but a FRAMESYNC step depends on
SYNCWORD; a high nibble above (N + 3) div 8 never syncs. -/
def Obligations.WrSyncwordReachesFramesyncOnly : Prop :=
  (∀ (s : State) (d : Word32),
    encode (.wrSyncword d) = some (.hcw (0x8000_020C_0000_0000#64 ||| d.setWidth 64)) ∧
    exec (.wrSyncword d) s = .next { s with syncword := d.setWidth 8 }) ∧
  (∀ (q : SeqState) (s t : State) (v : BitVec 8), q ≠ .framesync → exec q.stepInstr s = .next t →
    exec q.stepInstr { s with syncword := v } = .next { t with syncword := v }) ∧
  (∀ s t : State, (s.params.size + 3) / 8 < s.syncword.toNat / 16 → s.seq = 0b000#3 →
    exec .stepFramesync s = .next t → t.seq = 0b000#3)

/-- 45_host_interface.md R165: a legal value is stored, any other is refused with MTU_INVALID; the frame in
progress keeps its length; MTU never becomes 0 again. -/
def Obligations.WrMtuStoresLegalValues : Prop :=
  (∀ d : Word32, encode (.wrMtu d) = some (.hcw (0x8000_0210_0000_0000#64 ||| d.setWidth 64))) ∧
  (∀ (s : State) (d : Word32), 1 ≤ (d.setWidth 16).toNat → (d.setWidth 16).toNat ≤ s.params.mtuMax →
    exec (.wrMtu d) s = .next { s with mtu := d.setWidth 16 }) ∧
  (∀ (s : State) (d : Word32), ((d.setWidth 16).toNat = 0 ∨ s.params.mtuMax < (d.setWidth 16).toNat) →
    exec (.wrMtu d) s = .next (recorded 1#4 0x10#8 s)) ∧
  (∀ (i : Instr) (s t : State), exec i s = .next t → s.mtu ≠ 0#16 → t.mtu ≠ 0#16)

/-- 45_host_interface.md R171-R175: writes to read-only registers change nothing and are no error. -/
def Obligations.ReadOnlyWritesDoNothing : Prop :=
  ∀ (s : State) (d : Word32),
    encode (.wrId d) = some (.hcw (0x8000_0200_0000_0000#64 ||| d.setWidth 64)) ∧ exec (.wrId d) s = .next s ∧
    encode (.wrMtuLatched d) = some (.hcw (0x8000_0214_0000_0000#64 ||| d.setWidth 64)) ∧ exec (.wrMtuLatched d) s = .next s ∧
    encode (.wrSymcount d) = some (.hcw (0x8000_0218_0000_0000#64 ||| d.setWidth 64)) ∧ exec (.wrSymcount d) s = .next s ∧
    encode (.wrPrevValue d) = some (.hcw (0x8000_021C_0000_0000#64 ||| d.setWidth 64)) ∧ exec (.wrPrevValue d) s = .next s ∧
    encode (.wrMtuMax d) = some (.hcw (0x8000_0220_0000_0000#64 ||| d.setWidth 64)) ∧ exec (.wrMtuMax d) s = .next s

/-- 60_exceptions.md R180, R182: with no error recorded, an access records exactly the cause and address of
the table, and no other access records one. -/
def Obligations.ErrorCausesOfAccesses : Prop :=
  ∀ (s t : State) (w : Hcw) (rest : List Event), s.agenda = .host w :: rest → s.err = false →
    step s = .next t →
    (decode (.hcw w) = .reject .busAlign → errRecord t = (true, 4#4, w.extractLsb' 32 8)) ∧
    (decode (.hcw w) = .reject .busDecode → errRecord t = (true, 3#4, w.extractLsb' 32 8)) ∧
    (∀ d : Word32, decode (.hcw w) = .ok (.wrMtu d) →
      (d.setWidth 16 = 0#16 ∨ s.params.mtuMax < (d.setWidth 16).toNat) →
      errRecord t = (true, 1#4, 0x10#8)) ∧
    (∀ d : Word32, decode (.hcw w) = .ok (.wrCtrl d) → d.getLsbD 0 = true → s.mtu = 0#16 →
      errRecord t = (true, 2#4, 0x04#8)) ∧
    (∀ i : Instr, decode (.hcw w) = .ok i →
      (∀ d : Word32, i = .wrMtu d → ¬(d.setWidth 16 = 0#16 ∨ s.params.mtuMax < (d.setWidth 16).toNat)) →
      (∀ d : Word32, i = .wrCtrl d → ¬(d.getLsbD 0 = true ∧ s.mtu = 0#16)) →
      t.err = false)

/-- 60_exceptions.md R181: while an error is recorded, every transition leaves the record as it is, but for
the write of 1 to STATUS.ERR, which clears it (R187). -/
def Obligations.FirstErrorIsKept : Prop :=
  ∀ s t : State, s.err = true → step s = .next t →
    errRecord t = errRecord s ∨
    (errRecord t = (false, 0#4, 0#8) ∧
      ∃ (w : Hcw) (rest : List Event) (d : Word32), s.agenda = .host w :: rest ∧
        decode (.hcw w) = .ok (.wrStatus d) ∧ d.getLsbD 8 = true)

/-! ## Steps of the sequencer -/

/-- 43_state_machine.md R117: a step operation does something exactly when GUARD() holds. -/
def Obligations.GuardDecidesWhetherAStepHappens : Prop :=
  (∀ (q : SeqState) (s : State), ¬Guard q s → exec q.stepInstr s = .next s) ∧
  (∀ (q : SeqState) (s t : State), Guard q s → exec q.stepInstr s = .next t → s.consumed < t.consumed)

/-- 43_state_machine.md R120: STEP_FRAMESYNC, both outcomes. `v` is detected in the first window, `v1` in the
second, which only a step with syncd and match0 detects and feeds. -/
def Obligations.StepFramesyncSearches : Prop :=
  ∀ (s : State) (d d2 : List Sample) (v v1 : Nat),
    Guard .framesync s → d = dechirpBlock .first .up s → d2 = dechirpBlock .second .up s →
    v = detectWindow s.params d → v1 = detectWindow s.params d2 →
    ((s.prev.toNat + 1) / 2 = 0 → (v + 4) / 8 = s.syncword.toNat / 16 →
      (v1 + 4) / 8 = s.syncword.toNat % 16 →
      exec .stepFramesync s = .next { s with
        window := (feedFrom 0 d2 (feedFrom 0 d s)).window, mtuL := s.mtu, prev := BitVec.ofNat 16 v,
        input := s.input.drop (2 * s.params.size), consumed := s.consumed + 2 * s.params.size,
        rawOut := mirrored s.rawEn .sync (s.input.take (2 * s.params.size)) s.rawOut,
        decOut := mirrored s.decEn .sync (d ++ d2) s.decOut, seq := 0b001#3 }) ∧
    ((s.prev.toNat + 1) / 2 = 0 → (v + 4) / 8 = s.syncword.toNat / 16 →
      (v1 + 4) / 8 ≠ s.syncword.toNat % 16 →
      exec .stepFramesync s = .next { s with
        window := (feedFrom 0 d2 (feedFrom 0 d s)).window, prev := BitVec.ofNat 16 v,
        input := s.input.drop (s.params.size - v), consumed := s.consumed + (s.params.size - v),
        rawOut := mirrored s.rawEn .x (s.input.take (s.params.size - v)) s.rawOut,
        decOut := mirrored s.decEn .x (d.take (s.params.size - v)) s.decOut, seq := 0b000#3 }) ∧
    (¬((s.prev.toNat + 1) / 2 = 0 ∧ (v + 4) / 8 = s.syncword.toNat / 16) →
      exec .stepFramesync s = .next { s with
        window := (feedFrom 0 d s).window, prev := BitVec.ofNat 16 v,
        input := s.input.drop (s.params.size - v), consumed := s.consumed + (s.params.size - v),
        rawOut := mirrored s.rawEn .x (s.input.take (s.params.size - v)) s.rawOut,
        decOut := mirrored s.decEn .x (d.take (s.params.size - v)) s.decOut, seq := 0b000#3 })

/-- 43_state_machine.md R130: STEP_DOWNCHIRP0. -/
def Obligations.StepDownchirp0Passes : Prop :=
  ∀ (s : State) (d : List Sample), Guard .downchirp0 s → d = dechirpBlock .first .down s →
    exec .stepDownchirp0 s = .next { s with
      window := (feedFrom 0 d s).window, prev := BitVec.ofNat 16 (detectWindow s.params d),
      input := s.input.drop s.params.size, consumed := s.consumed + s.params.size,
      rawOut := mirrored s.rawEn .dc (s.input.take s.params.size) s.rawOut,
      decOut := mirrored s.decEn .dc d s.decOut, seq := 0b010#3 }

/-- STEP_DOWNCHIRP1, which allocates the frame buffer (43_state_machine.md R132). That the fresh entries are
free values (`buf = []`, the next epoch) is the model's choice, log entry 9. -/
def Obligations.StepDownchirp1Allocates : Prop :=
  ∀ (s : State) (d : List Sample), Guard .downchirp1 s → d = dechirpBlock .first .down s →
    s.bufAlloc = false → s.mtuL.toNat ≤ s.params.mtuMax →
    exec .stepDownchirp1 s = .next { s with
      window := (feedFrom 0 d s).window, prev := BitVec.ofNat 16 (detectWindow s.params d),
      input := s.input.drop s.params.size, consumed := s.consumed + s.params.size,
      rawOut := mirrored s.rawEn .blank (s.input.take s.params.size) s.rawOut,
      decOut := mirrored s.decEn .blank d s.decOut, seq := 0b011#3,
      bufAlloc := true, buf := [], bufEpoch := s.bufEpoch + 1 }

/-- 43_state_machine.md R134: STEP_QUARTERCHIRP. -/
def Obligations.StepQuarterchirpSkipsAQuarter : Prop :=
  ∀ (s : State) (d : List Sample), Guard .quarterchirp s → d = dechirpBlock .first .up s →
    exec .stepQuarterchirp s = .next { s with
      window := (feedFrom 0 d s).window, prev := BitVec.ofNat 16 (detectWindow s.params d),
      input := s.input.drop (s.params.size / 4), consumed := s.consumed + s.params.size / 4,
      rawOut := mirrored s.rawEn .qc (s.input.take (s.params.size / 4)) s.rawOut,
      decOut := mirrored s.decEn .qc (d.take (s.params.size / 4)) s.decOut, seq := 0b100#3,
      symcount := 0#16 }

/-- 43_state_machine.md R138, R139: a data symbol that does not complete the frame is appended and counted. -/
def Obligations.StepDatasymbolsAppends : Prop :=
  ∀ (s : State) (d : List Sample), Guard .datasymbols s → d = dechirpBlock .first .up s →
    s.bufAlloc = true → s.symcount.toNat + 1 < s.mtuL.toNat → s.mtuL.toNat ≤ s.params.mtuMax →
    exec .stepDatasymbols s = .next { s with
      window := (feedFrom 0 d s).window, prev := BitVec.ofNat 16 (detectWindow s.params d),
      input := s.input.drop s.params.size, consumed := s.consumed + s.params.size,
      rawOut := mirrored s.rawEn .s (s.input.take s.params.size) s.rawOut,
      decOut := mirrored s.decEn .s d s.decOut, seq := 0b100#3, symcount := s.symcount + 1#16,
      buf := putSlot s.symcount.toNat (BitVec.ofNat 16 (detectWindow s.params d)) s.buf }

/-- 43_state_machine.md R138, R139: the symbol that brings the counter to MTU_L completes the frame, which is
emitted whole with that symbol last (44_output_assembler.md R146). That the entries are free values after it
(`buf = []`, the next epoch) is the model's choice, log entry 9. -/
def Obligations.StepDatasymbolsEmits : Prop :=
  ∀ (s : State) (d : List Sample), Guard .datasymbols s → d = dechirpBlock .first .up s →
    s.bufAlloc = true → s.symcount.toNat + 1 = s.mtuL.toNat → s.mtuL.toNat ≤ s.params.mtuMax →
    exec .stepDatasymbols s = .next { s with
      window := (feedFrom 0 d s).window, prev := BitVec.ofNat 16 (detectWindow s.params d),
      input := s.input.drop s.params.size, consumed := s.consumed + s.params.size,
      rawOut := mirrored s.rawEn .s (s.input.take s.params.size) s.rawOut,
      decOut := mirrored s.decEn .s d s.decOut, seq := 0b000#3, symcount := s.symcount + 1#16,
      frames := s.frames ++ [⟨s.mtuL.toNat, (List.range s.symcount.toNat).map (bufAt s)
        ++ [BitVec.ofNat 16 (detectWindow s.params d)]⟩],
      bufAlloc := false, buf := [], bufEpoch := s.bufEpoch + 1 }

/-- 60_exceptions.md R184 (c): a requirement of ALLOC, APPEND or EMIT that fails is a model fault, in a
step as in the micro-operation run alone (no run reaches one, InvariantStatesGoOn). -/
def Obligations.FailedRequirementsFault : Prop :=
  (∀ s, Guard .downchirp1 s → s.bufAlloc = true → exec .stepDownchirp1 s = .fault .allocRequirement) ∧
  (∀ s, Guard .datasymbols s → (s.bufAlloc = false ∨ s.mtuL.toNat ≤ s.symcount.toNat) →
    exec .stepDatasymbols s = .fault .appendRequirement) ∧
  (∀ s m, s.bufAlloc = true → exec (.alloc m) s = .fault .allocRequirement) ∧
  (∀ s k v, (s.bufAlloc = false ∨ s.mtuL.toNat ≤ k.toNat) →
    exec (.append k v) s = .fault .appendRequirement) ∧
  (∀ s m, (s.bufAlloc = false ∨ s.frameReady = false) → exec (.emit m) s = .fault .emitRequirement)

/-- The model's own stops, log entry 10: an access to a BUF entry or a W slot that does not exist
(20_memory.md R53). -/
def Obligations.MissingEntriesFault : Prop :=
  (∀ s m, s.bufAlloc = false → s.params.mtuMax < m.toNat → exec (.alloc m) s = .fault .bufCapacity) ∧
  (∀ s k v, s.bufAlloc = true → k.toNat < s.mtuL.toNat → s.params.mtuMax ≤ k.toNat →
    exec (.append k v) s = .fault .bufIndex) ∧
  (∀ s m, s.bufAlloc = true → s.frameReady = true → s.params.mtuMax < m.toNat →
    exec (.emit m) s = .fault .bufCapacity) ∧
  (∀ s i x, s.params.size ≤ i.toNat → exec (.feed i x) s = .fault .windowSlot) ∧
  (∀ s, Guard .downchirp1 s → s.bufAlloc = false → s.params.mtuMax < s.mtuL.toNat →
    exec .stepDownchirp1 s = .fault .bufCapacity) ∧
  (∀ s, Guard .datasymbols s → s.bufAlloc = true → s.symcount.toNat < s.mtuL.toNat →
    s.params.mtuMax ≤ s.symcount.toNat → exec .stepDatasymbols s = .fault .bufIndex)

/-- 43_state_machine.md R126: the consumption of a FRAMESYNC step. -/
def Obligations.FramesyncConsumption : Prop :=
  ∀ s t : State, Guard .framesync s → exec .stepFramesync s = .next t →
    (t.seq = 0b001#3 ∧ t.consumed = s.consumed + 2 * s.params.size) ∨
    (t.seq = 0b000#3 ∧ s.consumed + 1 ≤ t.consumed ∧ t.consumed ≤ s.consumed + s.params.size ∧
      (t.consumed = s.consumed + s.params.size ↔ t.prev = 0#16))

/-- Every step consumes between 1 and 2N samples from the head of the input and no others
(43_state_machine.md R142, 20_memory.md R59). -/
def Obligations.StepsConsumeFromTheHead : Prop :=
  ∀ (q : SeqState) (s t : State), Guard q s → exec q.stepInstr s = .next t →
    ∃ c, 1 ≤ c ∧ c ≤ 2 * s.params.size ∧ t.input = s.input.drop c ∧ t.consumed = s.consumed + c

/-- 43_state_machine.md R119: the prologue of a step is DECHIRP, N FEEDs and DETECT, and PREV holds that
detection at the step's end (R140). The results stand in `work`, the model's own (log entry 16). -/
def Obligations.StepDetectsByMicroOps : Prop :=
  ∀ (q : SeqState) (s t : State), Guard q s → exec q.stepInstr s = .next t →
    ∃ s1 s2 s3 : State,
      exec (.dechirp .first (refOf q)) s = .next s1 ∧
      s1.work.block.length = s.params.size ∧
      execAll (feedsFrom 0 s1.work.block) s1 = .next s2 ∧
      exec .detect s2 = .next s3 ∧
      s3.work.symbol < s.params.size ∧ t.prev = BitVec.ofNat 16 s3.work.symbol

/-! ## Mirrors and frames -/

/-- The RAW mirror echoes the consumed samples, in order, none repeated or missing
(44_output_assembler.md R151, R153). -/
def Obligations.RawMirrorEchoesTheInput : Prop :=
  ∀ (q : SeqState) (s t : State), Guard q s → exec q.stepInstr s = .next t →
    (s.rawEn = false → t.rawOut = s.rawOut) ∧
    (s.rawEn = true → ∃ run : List MirrorElem, t.rawOut = s.rawOut ++ run ∧
      run.map MirrorElem.sample ++ t.input = s.input ∧ s.consumed + run.length = t.consumed)

/-- Label placement (44_output_assembler.md R152, R154): on each enabled mirror the first of the step's `c`
elements carries the step's label and the others NONE, the same on both mirrors. -/
def Obligations.LabelsMarkTheFirstElement : Prop :=
  ∀ (q : SeqState) (s t : State), Guard q s → exec q.stepInstr s = .next t →
    ∃ (label : Label) (c : Nat), t.consumed = s.consumed + (c + 1) ∧
      (s.rawEn = true → ∃ run : List MirrorElem, t.rawOut = s.rawOut ++ run ∧
        run.map MirrorElem.label = label :: List.replicate c .blank) ∧
      (s.decEn = true → ∃ run : List MirrorElem, t.decOut = s.decOut ++ run ∧
        run.map MirrorElem.label = label :: List.replicate c .blank)

/-- The mirrors influence nothing else: two states that differ only in the enables and their sinks take the
same step but for the mirror streams (decisions D11, D12). -/
def Obligations.MirrorsDoNotInfluenceTheProtocol : Prop :=
  ∀ (q : SeqState) (s t : State) (raw dec : Bool) (rf df : Nat), Guard q s →
    Guard q { s with rawEn := raw, decEn := dec, rawFree := rf, decFree := df } →
    exec q.stepInstr s = .next t →
    ∃ r d, exec q.stepInstr { s with rawEn := raw, decEn := dec, rawFree := rf, decFree := df }
      = .next { t with rawEn := raw, decEn := dec, rawFree := rf, decFree := df, rawOut := r, decOut := d }

/-- Frames (44_output_assembler.md R149 (a)-(c)): a step emits no frame or exactly one, complete, of MTU_L
symbols, all of them appended in this frame, the last one by this step. -/
def Obligations.EmittedFramesAreComplete : Prop :=
  ∀ s t : State, s.Inv → step s = .next t →
    t.frames = s.frames ∨
    (s.seq = 0b100#3 ∧ t.seq = 0b000#3 ∧ s.symcount.toNat + 1 = s.mtuL.toNat ∧
      ∃ f : Frame, t.frames = s.frames ++ [f] ∧ f.length = s.mtuL.toNat ∧
        f.symbols.length = s.mtuL.toNat ∧
        (∀ k < s.symcount.toNat, ∃ v, getSlot k s.buf = some v ∧ f.symbols[k]? = some v) ∧
        f.symbols[s.symcount.toNat]? = some t.prev)

/-! ## Micro-operations -/

/-- GEN writes both tables from SF alone (41_chirp_table.md R93). The ideal entries are IdealUpTableValues'; a
finite-precision entry is evaluated from the accumulator after its own rounded addition, in increasing order
(R94, P_order of R97), and has the other properties of R97 by `tableWord` (log entry 6). -/
def Obligations.GenWritesBothTables : Prop :=
  ∀ s : State,
    exec .gen s = .next { s with up := upTable s.params, down := downTable s.params } ∧
    (upTable s.params).length = s.params.size ∧ (downTable s.params).length = s.params.size ∧
    (s.params.num.real ≠ .ideal → ∀ i < s.params.size,
      (upTable s.params)[i]? = some (.word (tableWord s.params.num (Config.phaseExp s.params.num
        ((List.range (i + 1)).foldl
          (fun acc m => Config.phaseAdd s.params.num acc (Config.phaseInc s.params.num s.params.sf m))
          (Config.phaseZero s.params.num))))))

/-- 41_chirp_table.md R95: the ideal table is `exp(j·θ_i)` with `θ_i = π·i·(i+1)/N + π·(i+1)`, the sum of the
increments `2π(m + N/2)/N`. -/
def Obligations.IdealUpTableValues : Prop :=
  ∀ (p : Params), p.num.real = .ideal → ∀ i < p.size,
    ∃ z : ExactNum, (upTable p)[i]? = some (.exact z) ∧
      toComplex z = Complex.exp ((Real.pi * i * (i + 1) / p.size + Real.pi * (i + 1)) * Complex.I) ∧
      toComplex z = Complex.exp ((∑ m ∈ Finset.range (i + 1),
        2 * Real.pi * ((m : ℂ) + (p.size : ℂ) / 2) / p.size) * Complex.I)

/-- 41_chirp_table.md R96: DOWN is the conjugate of UP, entry by entry, exactly and in every realisation and
format, and UP is the conjugate of DOWN (42_symbol_detector.md R102); in a finite-precision instance of
binary32 an entry of DOWN differs in the sign bit of Q alone. -/
def Obligations.DownIsTheConjugate : Prop :=
  ∀ (p : Params) (i : Nat), i < p.size →
    (∃ (x y : Sample) (z z' : ExactNum), (upTable p)[i]? = some x ∧ (downTable p)[i]? = some y ∧
      y = sampleConj p.num.fmt x ∧ x = sampleConj p.num.fmt y ∧
      sampleValue p.num.fmt x = some z ∧ sampleValue p.num.fmt y = some z' ∧
      toComplex z' = (starRingEnd ℂ) (toComplex z)) ∧
    (p.num.real ≠ .ideal → p.num.fmt = .binary32 → ∃ w w' : BitVec 64, (upTable p)[i]? = some (.word w) ∧
      (downTable p)[i]? = some (.word w') ∧ w' = w ^^^ 0x8000_0000_0000_0000#64)

/-- 41_chirp_table.md R100: the ideal tables are symmetric, and begin and end with -1. -/
def Obligations.ChirpTablesAreSymmetric : Prop :=
  ∀ (p : Params), p.num.real = .ideal →
    (∀ i < p.size, (upTable p)[i]? = (upTable p)[p.size - 1 - i]?
      ∧ (downTable p)[i]? = (downTable p)[p.size - 1 - i]?) ∧
    (upTable p)[0]? = some (exactSample (-1) 0) ∧ (upTable p)[p.size - 1]? = some (exactSample (-1) 0) ∧
    (downTable p)[0]? = some (exactSample (-1) 0) ∧ (downTable p)[p.size - 1]? = some (exactSample (-1) 0)

/-- Every table has unit magnitude within the TOL_TBL of its instance, and the ideal table exactly
(41_chirp_table.md R97 (P_unit)). What TOL_TBL is where the format is not binary32 is the model's, log
entry 26. -/
def Obligations.IdealTableHasUnitMagnitude : Prop :=
  ∀ (p : Params),
    unitTable p.num (upTable p) = true ∧
    (∀ x ∈ upTable p, ∃ z : ExactNum, sampleValue p.num.fmt x = some z ∧
      |‖toComplex z‖ - 1| ≤ ((tolTbl p.num : ℚ) : ℝ)) ∧
    (p.num.real = .ideal → tolTbl p.num = 0 ∧
      ∀ x ∈ upTable p, ∃ z : ExactNum, x = .exact z ∧ Complex.normSq (toComplex z) = 1)

/-- DECHIRP's block, entry by entry; no architectural state changes (42_symbol_detector.md R102). That the
result stands in `work` is the model's choice, log entry 16. -/
def Obligations.DechirpMultipliesByTheConjugate : Prop :=
  ∀ (s : State) (b : WinBase) (r : ChirpRef),
    exec (.dechirp b r) s = .next { s with work := ⟨dechirpBlock b r s, s.work.symbol⟩ } ∧
    (dechirpBlock b r s).length = s.params.size ∧
    (2 * s.params.size ≤ s.input.length → ∀ i < s.params.size, ∀ x t : Sample,
      s.input[(match b with | .first => 0 | .second => s.params.size) + i]? = some x →
      (match r with | .up => s.up | .down => s.down)[i]? = some t →
      (match r with | .up => s.up | .down => s.down).length = s.params.size →
      (dechirpBlock b r s)[i]? = some (cmul s.params.num x (sampleConj s.params.num.fmt t)))

/-- The ideal `cmul_fmt` is the exact complex product of its two operands, the second of which is the
conjugate of a table entry: `InWin(b+i) * conj(R[i])` (42_symbol_detector.md R102). The operand `c + jd` of
R104 (b), whose product has `c − jd`, is read as the table entry `R[i]`: log entry 28. -/
def Obligations.IdealProductIsExact : Prop :=
  ∀ (n : Numerics) (a b : Sample) (x y : ExactNum), n.real = .ideal →
    sampleValue n.fmt a = some x → sampleValue n.fmt b = some y →
    ∃ z : ExactNum, cmul n a b = .exact z ∧ toComplex z = toComplex x * toComplex y

/-- FEED writes one slot, the last write wins, and the other slots stay (42_symbol_detector.md R106). That an
exact value fed to a finite-precision instance becomes a word is the model's choice, log entry 25; a word, and in an ideal instance every sample, is stored as it is. -/
def Obligations.FeedWritesOneSlot : Prop :=
  ∀ (s : State) (i : BitVec 16) (x : Sample), i.toNat < s.params.size →
    ∃ t : State, exec (.feed i x) s = .next t ∧ t = { s with window := t.window } ∧
      windowAt t i.toNat = portSample s.params.num x ∧
      (s.params.num.real = .ideal ∨ (∃ w, x = .word w) → windowAt t i.toNat = x) ∧
      ∀ j, j ≠ i.toNat → windowAt t j = windowAt s j

/-- DETECT answers DETECT_cfg of the N slots as they stand and changes no architectural state
(42_symbol_detector.md R108). That the result stands in `work` is the model's choice, log entry 16. -/
def Obligations.DetectReadsTheWindow : Prop :=
  ∀ s : State, exec .detect s = .next { s with
      work := ⟨s.work.block, detectWindow s.params ((List.range s.params.size).map (windowAt s))⟩ } ∧
    detectWindow s.params ((List.range s.params.size).map (windowAt s)) < s.params.size

/-- 42_symbol_detector.md R109, R110: in the ideal instance DETECT answers the lowest index among the bins
of greatest energy |X[m]|², X the forward DFT over the complex numbers. -/
def Obligations.IdealDetectIsTheLowestPeak : Prop :=
  ∀ (p : Params) (w : List Sample) (ws : List ExactNum), p.num.real = .ideal → w.length = p.size →
    windowValues p.num.fmt w = some ws →
    detectWindow p w < p.size ∧
    (∀ m < p.size, Complex.normSq (dftBin p.size m (ws.map toComplex))
      ≤ Complex.normSq (dftBin p.size (detectWindow p w) (ws.map toComplex))) ∧
    (∀ m < detectWindow p w, Complex.normSq (dftBin p.size m (ws.map toComplex))
      < Complex.normSq (dftBin p.size (detectWindow p w) (ws.map toComplex)))

/-- D_range and D_ideal of every instance (42_symbol_detector.md R111): a peak clear by more than
TOL_DET·Σ|W|² is found, whatever the arithmetic. -/
def Obligations.EveryDetectorFindsAClearPeak : Prop :=
  (∀ (p : Params) (w : List Sample), detectWindow p w < p.size) ∧
  (∀ (p : Params) (w : List Sample) (ws : List ExactNum) (v : Nat), w.length = p.size →
    windowValues p.num.fmt w = some ws → v < p.size →
    (∀ m < p.size, m ≠ v →
      Complex.normSq (dftBin p.size m (ws.map toComplex))
          + tolDet p * (ws.map fun z => Complex.normSq (toComplex z)).sum
        < Complex.normSq (dftBin p.size v (ws.map toComplex))) →
    detectWindow p w = v)

/-- Pure tones and silence (42_symbol_detector.md R112 (a), (c)). -/
def Obligations.PureTonesAreDetected : Prop :=
  (∀ (p : Params) (w : List Sample) (ws : List ExactNum) (k : Nat) (a : ℂ), p.num.real = .ideal →
    w.length = p.size → windowValues p.num.fmt w = some ws → k < p.size → a ≠ 0 →
    (∀ n < p.size, toComplex (ws.getD n [])
      = a * Complex.exp (2 * Real.pi * k * n / p.size * Complex.I)) →
    detectWindow p w = k) ∧
  (∀ (p : Params) (w : List Sample) (ws : List ExactNum), p.num.real = .ideal → w.length = p.size →
    windowValues p.num.fmt w = some ws → (∀ z ∈ ws, toComplex z = 0) → detectWindow p w = 0)

/-- The frequency-shifted chirp `up(k)`, dechirped against UP, is detected as `k`
(42_symbol_detector.md R112 (f), (g)). -/
def Obligations.ShiftedChirpsAreDetected : Prop :=
  ∀ (p : Params) (k : Nat), p.num.real = .ideal → k < p.size →
    detectWindow p (List.zipWith (fun x t => cmul p.num x (sampleConj p.num.fmt t)) (shiftedChirp p k)
      (upTable p)) = k

/-- 44_output_assembler.md R145: ALLOC. The entries are unspecified: the model's free values (log entry
9). -/
def Obligations.AllocGivesAFreshBuffer : Prop :=
  ∀ (s : State) (m : BitVec 16), s.bufAlloc = false → m.toNat ≤ s.params.mtuMax →
    exec (.alloc m) s = .next { s with bufAlloc := true, buf := [], bufEpoch := s.bufEpoch + 1 } ∧
    ∀ k, bufAt { s with bufAlloc := true, buf := [], bufEpoch := s.bufEpoch + 1 } k
      = Config.freeSymbol (s.bufEpoch + 1) k

/-- 44_output_assembler.md R144: APPEND stores one entry and leaves the others. The bound MTU_MAX on the
index is the model's, log entry 10. -/
def Obligations.AppendStoresOneEntry : Prop :=
  ∀ (s : State) (k : BitVec 16) (v : SymbolWord), s.bufAlloc = true → k.toNat < s.mtuL.toNat →
    k.toNat < s.params.mtuMax →
    ∃ t : State, exec (.append k v) s = .next t ∧ t = { s with buf := t.buf } ∧ bufAt t k.toNat = v ∧
      ∀ j, j ≠ k.toNat → bufAt t j = bufAt s j

/-- 44_output_assembler.md R146: EMIT hands BUF[0..M-1] over as one frame and keeps nothing of it: the
entries become free values (log entry 9). The bound MTU_MAX on the length is the model's, log entry 10. -/
def Obligations.EmitHandsOverTheFrame : Prop :=
  ∀ (s : State) (m : BitVec 16), s.bufAlloc = true → s.frameReady = true → m.toNat ≤ s.params.mtuMax →
    exec (.emit m) s = .next { s with
      frames := s.frames ++ [⟨m.toNat, (List.range m.toNat).map (bufAt s)⟩],
      bufAlloc := false, buf := [], bufEpoch := s.bufEpoch + 1 }

/-- DISCARD releases the buffer and emits no frame; with no buffer allocated it has no effect
(44_output_assembler.md R148). That the entries become free values (`buf = []`, the next epoch) is the model's
choice, log entry 9. -/
def Obligations.DiscardReleasesTheBuffer : Prop :=
  ∀ s : State,
    (s.bufAlloc = true →
      exec .discard s = .next { s with bufAlloc := false, buf := [], bufEpoch := s.bufEpoch + 1 }) ∧
    (s.bufAlloc = false → exec .discard s = .next s)

/-! ## The whole machine -/

/-- What construction leaves (70_reset_and_hazards.md R196, 10_state.md R46). That W's slots and BUF's
entries, which the spec leaves unspecified, read as the free values `freeWindow` (in what the datapath of the
instance holds) and `freeSymbol` is the model's choice, log entries 8 and 9. -/
def Obligations.ResetValues : Prop :=
  ∀ (p : Params) (s : State), s = State.construct p →
    s.params = p ∧ s.seq = 0b000#3 ∧ s.active = false ∧ s.prev = 0#16 ∧ s.symcount = 0#16 ∧
    s.syncword = 0x00#8 ∧ s.mtu = 0#16 ∧ s.mtuL = 0#16 ∧ s.rawEn = false ∧ s.decEn = false ∧
    s.err = false ∧ s.errCause = 0#4 ∧ s.errAddr = 0#8 ∧ s.bufAlloc = false ∧
    exec .gen s = .next s ∧ (∀ i, windowAt s i = portSample p.num (Config.freeWindow i)) ∧
    (∀ k, bufAt s k = Config.freeSymbol s.bufEpoch k)

/-- 70_reset_and_hazards.md R197: an instance exists exactly for the legal parameters, and none changes. -/
def Obligations.ElaborationChecksParameters : Prop :=
  (∀ (sf m : Nat) (n : Numerics),
    (∃ p, Params.elaborate sf m n = some p ∧ p.sf = sf ∧ p.mtuMax = m ∧ p.num = n)
    ↔ (2 ≤ sf ∧ sf ≤ 16 ∧ 1 ≤ m ∧ m ≤ 65535)) ∧
  (∀ (sf m : Nat) (n : Numerics), ¬(2 ≤ sf ∧ sf ≤ 16 ∧ 1 ≤ m ∧ m ≤ 65535) →
    Params.elaborate sf m n = none) ∧
  (∀ s t : State, step s = .next t → t.params = s.params)

/-- The machine right after construction satisfies the invariant (10_state.md R48). -/
def Obligations.InvariantAtConstruction : Prop := ∀ p : Params, (State.construct p).Inv

/-- Every step keeps the invariant (10_state.md R48), from every state that has it. -/
def Obligations.InvariantIsKept : Prop := ∀ s t : State, s.Inv → step s = .next t → t.Inv

/-- From a state with the invariant every step goes on: no fault is reachable (60_exceptions.md R179,
R184). -/
def Obligations.InvariantStatesGoOn : Prop := ∀ s : State, s.Inv → goesOn (step s)

/-- 10_state.md R27: only an accepted ACTIVATE sets ACTIVE, nothing clears it, and while it is 0 the step
engine does nothing. -/
def Obligations.ActiveIsSetByActivationOnly : Prop :=
  (∀ s t : State, s.active = true → step s = .next t → t.active = true) ∧
  (∀ s t : State, s.active = false → step s = .next t → t.active = true →
    ∃ (w : Hcw) (rest : List Event) (d : Word32), s.agenda = .host w :: rest ∧
      decode (.hcw w) = .ok (.wrCtrl d) ∧ d.getLsbD 0 = true ∧ s.mtu ≠ 0#16) ∧
  (∀ (s : State) (d : Word32), d.getLsbD 0 = true → s.mtu ≠ 0#16 →
    ∃ t, exec (.wrCtrl d) s = .next t ∧ t.active = true) ∧
  (∀ p : Params, (State.construct p).active = false) ∧
  (∀ s : State, s.active = false → s.agenda = [] → step s = .next s)

/-- Activation is the only transition other than a step that changes state, PREV, SYMCOUNT or MTU_L
(70_reset_and_hazards.md R200). -/
def Obligations.OnlyStepsAndActivationMoveTheSequencer : Prop :=
  ∀ (s t : State) (e : Event) (rest : List Event), s.agenda = e :: rest → e ≠ .core → step s = .next t →
    (t.seq = s.seq ∧ t.prev = s.prev ∧ t.symcount = s.symcount ∧ t.mtuL = s.mtuL) ∨
    (∃ (w : Hcw) (d : Word32), e = .host w ∧ decode (.hcw w) = .ok (.wrCtrl d) ∧ d.getLsbD 0 = true ∧
      s.mtu ≠ 0#16 ∧ t.seq = 0b000#3 ∧ t.prev = 0#16 ∧ t.symcount = 0#16 ∧ t.mtuL = 0#16)

/-- No transition writes the chirp tables, and no transition but a host access writes SYNCWORD, MTU, the
enables, the error record or the responses (10_state.md R23, R37). -/
def Obligations.TablesAndConfigurationAreStable : Prop :=
  ∀ s t : State, step s = .next t →
    t.up = s.up ∧ t.down = s.down ∧
    ((∀ w rest, s.agenda ≠ .host w :: rest) →
      t.syncword = s.syncword ∧ t.mtu = s.mtu ∧ t.rawEn = s.rawEn ∧ t.decEn = s.decEn ∧
      errRecord t = errRecord s ∧ t.responses = s.responses)
end

