-- ==== Sys2Proof/Laws/State.lean ====
section
/-! SUPPORT. What each named update of the state leaves in each field. -/

namespace Sys2Proof.Machine

/-! ## respond -/

@[simp] theorem respond_params (v : Word32) (s : State) : (respond v s).params = s.params := rfl
@[simp] theorem respond_seq (v : Word32) (s : State) : (respond v s).seq = s.seq := rfl
@[simp] theorem respond_active (v : Word32) (s : State) : (respond v s).active = s.active := rfl
@[simp] theorem respond_prev (v : Word32) (s : State) : (respond v s).prev = s.prev := rfl
@[simp] theorem respond_symcount (v : Word32) (s : State) : (respond v s).symcount = s.symcount := rfl
@[simp] theorem respond_syncword (v : Word32) (s : State) : (respond v s).syncword = s.syncword := rfl
@[simp] theorem respond_mtu (v : Word32) (s : State) : (respond v s).mtu = s.mtu := rfl
@[simp] theorem respond_mtuL (v : Word32) (s : State) : (respond v s).mtuL = s.mtuL := rfl
@[simp] theorem respond_rawEn (v : Word32) (s : State) : (respond v s).rawEn = s.rawEn := rfl
@[simp] theorem respond_decEn (v : Word32) (s : State) : (respond v s).decEn = s.decEn := rfl
@[simp] theorem respond_err (v : Word32) (s : State) : (respond v s).err = s.err := rfl
@[simp] theorem respond_errCause (v : Word32) (s : State) : (respond v s).errCause = s.errCause := rfl
@[simp] theorem respond_errAddr (v : Word32) (s : State) : (respond v s).errAddr = s.errAddr := rfl
@[simp] theorem respond_up (v : Word32) (s : State) : (respond v s).up = s.up := rfl
@[simp] theorem respond_down (v : Word32) (s : State) : (respond v s).down = s.down := rfl
@[simp] theorem respond_window (v : Word32) (s : State) : (respond v s).window = s.window := rfl
@[simp] theorem respond_buf (v : Word32) (s : State) : (respond v s).buf = s.buf := rfl
@[simp] theorem respond_bufAlloc (v : Word32) (s : State) : (respond v s).bufAlloc = s.bufAlloc := rfl
@[simp] theorem respond_input (v : Word32) (s : State) : (respond v s).input = s.input := rfl
@[simp] theorem respond_rawFree (v : Word32) (s : State) : (respond v s).rawFree = s.rawFree := rfl
@[simp] theorem respond_decFree (v : Word32) (s : State) : (respond v s).decFree = s.decFree := rfl
@[simp] theorem respond_frameReady (v : Word32) (s : State) : (respond v s).frameReady = s.frameReady := rfl
@[simp] theorem respond_frames (v : Word32) (s : State) : (respond v s).frames = s.frames := rfl
@[simp] theorem respond_rawOut (v : Word32) (s : State) : (respond v s).rawOut = s.rawOut := rfl
@[simp] theorem respond_decOut (v : Word32) (s : State) : (respond v s).decOut = s.decOut := rfl
@[simp] theorem respond_responses (v : Word32) (s : State) : (respond v s).responses = s.responses ++ [v] := rfl
@[simp] theorem respond_agenda (v : Word32) (s : State) : (respond v s).agenda = s.agenda := rfl
@[simp] theorem respond_consumed (v : Word32) (s : State) : (respond v s).consumed = s.consumed := rfl
@[simp] theorem respond_bufEpoch (v : Word32) (s : State) : (respond v s).bufEpoch = s.bufEpoch := rfl
@[simp] theorem respond_work (v : Word32) (s : State) : (respond v s).work = s.work := rfl

/-! ## supplyInput -/

@[simp] theorem supplyInput_params (xs : List Sample) (s : State) :
    (supplyInput xs s).params = s.params := rfl
@[simp] theorem supplyInput_seq (xs : List Sample) (s : State) : (supplyInput xs s).seq = s.seq := rfl
@[simp] theorem supplyInput_active (xs : List Sample) (s : State) :
    (supplyInput xs s).active = s.active := rfl
@[simp] theorem supplyInput_prev (xs : List Sample) (s : State) : (supplyInput xs s).prev = s.prev := rfl
@[simp] theorem supplyInput_symcount (xs : List Sample) (s : State) :
    (supplyInput xs s).symcount = s.symcount := rfl
@[simp] theorem supplyInput_syncword (xs : List Sample) (s : State) :
    (supplyInput xs s).syncword = s.syncword := rfl
@[simp] theorem supplyInput_mtu (xs : List Sample) (s : State) : (supplyInput xs s).mtu = s.mtu := rfl
@[simp] theorem supplyInput_mtuL (xs : List Sample) (s : State) : (supplyInput xs s).mtuL = s.mtuL := rfl
@[simp] theorem supplyInput_rawEn (xs : List Sample) (s : State) : (supplyInput xs s).rawEn = s.rawEn := rfl
@[simp] theorem supplyInput_decEn (xs : List Sample) (s : State) : (supplyInput xs s).decEn = s.decEn := rfl
@[simp] theorem supplyInput_err (xs : List Sample) (s : State) : (supplyInput xs s).err = s.err := rfl
@[simp] theorem supplyInput_errCause (xs : List Sample) (s : State) :
    (supplyInput xs s).errCause = s.errCause := rfl
@[simp] theorem supplyInput_errAddr (xs : List Sample) (s : State) :
    (supplyInput xs s).errAddr = s.errAddr := rfl
@[simp] theorem supplyInput_up (xs : List Sample) (s : State) : (supplyInput xs s).up = s.up := rfl
@[simp] theorem supplyInput_down (xs : List Sample) (s : State) : (supplyInput xs s).down = s.down := rfl
@[simp] theorem supplyInput_window (xs : List Sample) (s : State) :
    (supplyInput xs s).window = s.window := rfl
@[simp] theorem supplyInput_buf (xs : List Sample) (s : State) : (supplyInput xs s).buf = s.buf := rfl
@[simp] theorem supplyInput_bufAlloc (xs : List Sample) (s : State) :
    (supplyInput xs s).bufAlloc = s.bufAlloc := rfl
@[simp] theorem supplyInput_input (xs : List Sample) (s : State) :
    (supplyInput xs s).input = s.input ++ xs.map (portSample s.params.num) := rfl
@[simp] theorem supplyInput_rawFree (xs : List Sample) (s : State) :
    (supplyInput xs s).rawFree = s.rawFree := rfl
@[simp] theorem supplyInput_decFree (xs : List Sample) (s : State) :
    (supplyInput xs s).decFree = s.decFree := rfl
@[simp] theorem supplyInput_frameReady (xs : List Sample) (s : State) :
    (supplyInput xs s).frameReady = s.frameReady := rfl
@[simp] theorem supplyInput_frames (xs : List Sample) (s : State) :
    (supplyInput xs s).frames = s.frames := rfl
@[simp] theorem supplyInput_rawOut (xs : List Sample) (s : State) :
    (supplyInput xs s).rawOut = s.rawOut := rfl
@[simp] theorem supplyInput_decOut (xs : List Sample) (s : State) :
    (supplyInput xs s).decOut = s.decOut := rfl
@[simp] theorem supplyInput_responses (xs : List Sample) (s : State) :
    (supplyInput xs s).responses = s.responses := rfl
@[simp] theorem supplyInput_agenda (xs : List Sample) (s : State) :
    (supplyInput xs s).agenda = s.agenda := rfl
@[simp] theorem supplyInput_consumed (xs : List Sample) (s : State) :
    (supplyInput xs s).consumed = s.consumed := rfl
@[simp] theorem supplyInput_bufEpoch (xs : List Sample) (s : State) :
    (supplyInput xs s).bufEpoch = s.bufEpoch := rfl
@[simp] theorem supplyInput_work (xs : List Sample) (s : State) : (supplyInput xs s).work = s.work := rfl

/-! ## clearError -/

@[simp] theorem clearError_params (s : State) : (clearError s).params = s.params := rfl
@[simp] theorem clearError_seq (s : State) : (clearError s).seq = s.seq := rfl
@[simp] theorem clearError_active (s : State) : (clearError s).active = s.active := rfl
@[simp] theorem clearError_prev (s : State) : (clearError s).prev = s.prev := rfl
@[simp] theorem clearError_symcount (s : State) : (clearError s).symcount = s.symcount := rfl
@[simp] theorem clearError_syncword (s : State) : (clearError s).syncword = s.syncword := rfl
@[simp] theorem clearError_mtu (s : State) : (clearError s).mtu = s.mtu := rfl
@[simp] theorem clearError_mtuL (s : State) : (clearError s).mtuL = s.mtuL := rfl
@[simp] theorem clearError_rawEn (s : State) : (clearError s).rawEn = s.rawEn := rfl
@[simp] theorem clearError_decEn (s : State) : (clearError s).decEn = s.decEn := rfl
@[simp] theorem clearError_err (s : State) : (clearError s).err = false := rfl
@[simp] theorem clearError_errCause (s : State) : (clearError s).errCause = 0#4 := rfl
@[simp] theorem clearError_errAddr (s : State) : (clearError s).errAddr = 0#8 := rfl
@[simp] theorem clearError_up (s : State) : (clearError s).up = s.up := rfl
@[simp] theorem clearError_down (s : State) : (clearError s).down = s.down := rfl
@[simp] theorem clearError_window (s : State) : (clearError s).window = s.window := rfl
@[simp] theorem clearError_buf (s : State) : (clearError s).buf = s.buf := rfl
@[simp] theorem clearError_bufAlloc (s : State) : (clearError s).bufAlloc = s.bufAlloc := rfl
@[simp] theorem clearError_input (s : State) : (clearError s).input = s.input := rfl
@[simp] theorem clearError_rawFree (s : State) : (clearError s).rawFree = s.rawFree := rfl
@[simp] theorem clearError_decFree (s : State) : (clearError s).decFree = s.decFree := rfl
@[simp] theorem clearError_frameReady (s : State) : (clearError s).frameReady = s.frameReady := rfl
@[simp] theorem clearError_frames (s : State) : (clearError s).frames = s.frames := rfl
@[simp] theorem clearError_rawOut (s : State) : (clearError s).rawOut = s.rawOut := rfl
@[simp] theorem clearError_decOut (s : State) : (clearError s).decOut = s.decOut := rfl
@[simp] theorem clearError_responses (s : State) : (clearError s).responses = s.responses := rfl
@[simp] theorem clearError_agenda (s : State) : (clearError s).agenda = s.agenda := rfl
@[simp] theorem clearError_consumed (s : State) : (clearError s).consumed = s.consumed := rfl
@[simp] theorem clearError_bufEpoch (s : State) : (clearError s).bufEpoch = s.bufEpoch := rfl
@[simp] theorem clearError_work (s : State) : (clearError s).work = s.work := rfl

/-! ## feedSlot -/

@[simp] theorem feedSlot_params (i : Nat) (x : Sample) (s : State) : (feedSlot i x s).params = s.params := rfl
@[simp] theorem feedSlot_seq (i : Nat) (x : Sample) (s : State) : (feedSlot i x s).seq = s.seq := rfl
@[simp] theorem feedSlot_active (i : Nat) (x : Sample) (s : State) : (feedSlot i x s).active = s.active := rfl
@[simp] theorem feedSlot_prev (i : Nat) (x : Sample) (s : State) : (feedSlot i x s).prev = s.prev := rfl
@[simp] theorem feedSlot_symcount (i : Nat) (x : Sample) (s : State) : (feedSlot i x s).symcount = s.symcount := rfl
@[simp] theorem feedSlot_syncword (i : Nat) (x : Sample) (s : State) : (feedSlot i x s).syncword = s.syncword := rfl
@[simp] theorem feedSlot_mtu (i : Nat) (x : Sample) (s : State) : (feedSlot i x s).mtu = s.mtu := rfl
@[simp] theorem feedSlot_mtuL (i : Nat) (x : Sample) (s : State) : (feedSlot i x s).mtuL = s.mtuL := rfl
@[simp] theorem feedSlot_rawEn (i : Nat) (x : Sample) (s : State) : (feedSlot i x s).rawEn = s.rawEn := rfl
@[simp] theorem feedSlot_decEn (i : Nat) (x : Sample) (s : State) : (feedSlot i x s).decEn = s.decEn := rfl
@[simp] theorem feedSlot_err (i : Nat) (x : Sample) (s : State) : (feedSlot i x s).err = s.err := rfl
@[simp] theorem feedSlot_errCause (i : Nat) (x : Sample) (s : State) : (feedSlot i x s).errCause = s.errCause := rfl
@[simp] theorem feedSlot_errAddr (i : Nat) (x : Sample) (s : State) : (feedSlot i x s).errAddr = s.errAddr := rfl
@[simp] theorem feedSlot_up (i : Nat) (x : Sample) (s : State) : (feedSlot i x s).up = s.up := rfl
@[simp] theorem feedSlot_down (i : Nat) (x : Sample) (s : State) : (feedSlot i x s).down = s.down := rfl
@[simp] theorem feedSlot_window (i : Nat) (x : Sample) (s : State) : (feedSlot i x s).window = putSlot i x s.window := rfl
@[simp] theorem feedSlot_buf (i : Nat) (x : Sample) (s : State) : (feedSlot i x s).buf = s.buf := rfl
@[simp] theorem feedSlot_bufAlloc (i : Nat) (x : Sample) (s : State) : (feedSlot i x s).bufAlloc = s.bufAlloc := rfl
@[simp] theorem feedSlot_input (i : Nat) (x : Sample) (s : State) : (feedSlot i x s).input = s.input := rfl
@[simp] theorem feedSlot_rawFree (i : Nat) (x : Sample) (s : State) : (feedSlot i x s).rawFree = s.rawFree := rfl
@[simp] theorem feedSlot_decFree (i : Nat) (x : Sample) (s : State) : (feedSlot i x s).decFree = s.decFree := rfl
@[simp] theorem feedSlot_frameReady (i : Nat) (x : Sample) (s : State) : (feedSlot i x s).frameReady = s.frameReady := rfl
@[simp] theorem feedSlot_frames (i : Nat) (x : Sample) (s : State) : (feedSlot i x s).frames = s.frames := rfl
@[simp] theorem feedSlot_rawOut (i : Nat) (x : Sample) (s : State) : (feedSlot i x s).rawOut = s.rawOut := rfl
@[simp] theorem feedSlot_decOut (i : Nat) (x : Sample) (s : State) : (feedSlot i x s).decOut = s.decOut := rfl
@[simp] theorem feedSlot_responses (i : Nat) (x : Sample) (s : State) : (feedSlot i x s).responses = s.responses := rfl
@[simp] theorem feedSlot_agenda (i : Nat) (x : Sample) (s : State) : (feedSlot i x s).agenda = s.agenda := rfl
@[simp] theorem feedSlot_consumed (i : Nat) (x : Sample) (s : State) : (feedSlot i x s).consumed = s.consumed := rfl
@[simp] theorem feedSlot_bufEpoch (i : Nat) (x : Sample) (s : State) : (feedSlot i x s).bufEpoch = s.bufEpoch := rfl
@[simp] theorem feedSlot_work (i : Nat) (x : Sample) (s : State) : (feedSlot i x s).work = s.work := rfl

/-! ## forgetBuf -/

@[simp] theorem forgetBuf_params (s : State) : (forgetBuf s).params = s.params := rfl
@[simp] theorem forgetBuf_seq (s : State) : (forgetBuf s).seq = s.seq := rfl
@[simp] theorem forgetBuf_active (s : State) : (forgetBuf s).active = s.active := rfl
@[simp] theorem forgetBuf_prev (s : State) : (forgetBuf s).prev = s.prev := rfl
@[simp] theorem forgetBuf_symcount (s : State) : (forgetBuf s).symcount = s.symcount := rfl
@[simp] theorem forgetBuf_syncword (s : State) : (forgetBuf s).syncword = s.syncword := rfl
@[simp] theorem forgetBuf_mtu (s : State) : (forgetBuf s).mtu = s.mtu := rfl
@[simp] theorem forgetBuf_mtuL (s : State) : (forgetBuf s).mtuL = s.mtuL := rfl
@[simp] theorem forgetBuf_rawEn (s : State) : (forgetBuf s).rawEn = s.rawEn := rfl
@[simp] theorem forgetBuf_decEn (s : State) : (forgetBuf s).decEn = s.decEn := rfl
@[simp] theorem forgetBuf_err (s : State) : (forgetBuf s).err = s.err := rfl
@[simp] theorem forgetBuf_errCause (s : State) : (forgetBuf s).errCause = s.errCause := rfl
@[simp] theorem forgetBuf_errAddr (s : State) : (forgetBuf s).errAddr = s.errAddr := rfl
@[simp] theorem forgetBuf_up (s : State) : (forgetBuf s).up = s.up := rfl
@[simp] theorem forgetBuf_down (s : State) : (forgetBuf s).down = s.down := rfl
@[simp] theorem forgetBuf_window (s : State) : (forgetBuf s).window = s.window := rfl
@[simp] theorem forgetBuf_buf (s : State) : (forgetBuf s).buf = [] := rfl
@[simp] theorem forgetBuf_bufAlloc (s : State) : (forgetBuf s).bufAlloc = s.bufAlloc := rfl
@[simp] theorem forgetBuf_input (s : State) : (forgetBuf s).input = s.input := rfl
@[simp] theorem forgetBuf_rawFree (s : State) : (forgetBuf s).rawFree = s.rawFree := rfl
@[simp] theorem forgetBuf_decFree (s : State) : (forgetBuf s).decFree = s.decFree := rfl
@[simp] theorem forgetBuf_frameReady (s : State) : (forgetBuf s).frameReady = s.frameReady := rfl
@[simp] theorem forgetBuf_frames (s : State) : (forgetBuf s).frames = s.frames := rfl
@[simp] theorem forgetBuf_rawOut (s : State) : (forgetBuf s).rawOut = s.rawOut := rfl
@[simp] theorem forgetBuf_decOut (s : State) : (forgetBuf s).decOut = s.decOut := rfl
@[simp] theorem forgetBuf_responses (s : State) : (forgetBuf s).responses = s.responses := rfl
@[simp] theorem forgetBuf_agenda (s : State) : (forgetBuf s).agenda = s.agenda := rfl
@[simp] theorem forgetBuf_consumed (s : State) : (forgetBuf s).consumed = s.consumed := rfl
@[simp] theorem forgetBuf_bufEpoch (s : State) : (forgetBuf s).bufEpoch = s.bufEpoch + 1 := rfl
@[simp] theorem forgetBuf_work (s : State) : (forgetBuf s).work = s.work := rfl

/-! ## epilogue -/

@[simp] theorem epilogue_params (plan : StepPlan) (v : Nat) (s : State) : (epilogue plan v s).params = s.params := rfl
@[simp] theorem epilogue_seq (plan : StepPlan) (v : Nat) (s : State) : (epilogue plan v s).seq = plan.next.code := rfl
@[simp] theorem epilogue_active (plan : StepPlan) (v : Nat) (s : State) : (epilogue plan v s).active = s.active := rfl
@[simp] theorem epilogue_prev (plan : StepPlan) (v : Nat) (s : State) : (epilogue plan v s).prev = BitVec.ofNat 16 v := rfl
@[simp] theorem epilogue_symcount (plan : StepPlan) (v : Nat) (s : State) : (epilogue plan v s).symcount = s.symcount := rfl
@[simp] theorem epilogue_syncword (plan : StepPlan) (v : Nat) (s : State) : (epilogue plan v s).syncword = s.syncword := rfl
@[simp] theorem epilogue_mtu (plan : StepPlan) (v : Nat) (s : State) : (epilogue plan v s).mtu = s.mtu := rfl
@[simp] theorem epilogue_mtuL (plan : StepPlan) (v : Nat) (s : State) : (epilogue plan v s).mtuL = s.mtuL := rfl
@[simp] theorem epilogue_rawEn (plan : StepPlan) (v : Nat) (s : State) : (epilogue plan v s).rawEn = s.rawEn := rfl
@[simp] theorem epilogue_decEn (plan : StepPlan) (v : Nat) (s : State) : (epilogue plan v s).decEn = s.decEn := rfl
@[simp] theorem epilogue_err (plan : StepPlan) (v : Nat) (s : State) : (epilogue plan v s).err = s.err := rfl
@[simp] theorem epilogue_errCause (plan : StepPlan) (v : Nat) (s : State) : (epilogue plan v s).errCause = s.errCause := rfl
@[simp] theorem epilogue_errAddr (plan : StepPlan) (v : Nat) (s : State) : (epilogue plan v s).errAddr = s.errAddr := rfl
@[simp] theorem epilogue_up (plan : StepPlan) (v : Nat) (s : State) : (epilogue plan v s).up = s.up := rfl
@[simp] theorem epilogue_down (plan : StepPlan) (v : Nat) (s : State) : (epilogue plan v s).down = s.down := rfl
@[simp] theorem epilogue_window (plan : StepPlan) (v : Nat) (s : State) : (epilogue plan v s).window = s.window := rfl
@[simp] theorem epilogue_buf (plan : StepPlan) (v : Nat) (s : State) : (epilogue plan v s).buf = s.buf := rfl
@[simp] theorem epilogue_bufAlloc (plan : StepPlan) (v : Nat) (s : State) : (epilogue plan v s).bufAlloc = s.bufAlloc := rfl
@[simp] theorem epilogue_input (plan : StepPlan) (v : Nat) (s : State) : (epilogue plan v s).input = s.input.drop plan.c := rfl
@[simp] theorem epilogue_rawFree (plan : StepPlan) (v : Nat) (s : State) : (epilogue plan v s).rawFree = s.rawFree := rfl
@[simp] theorem epilogue_decFree (plan : StepPlan) (v : Nat) (s : State) : (epilogue plan v s).decFree = s.decFree := rfl
@[simp] theorem epilogue_frameReady (plan : StepPlan) (v : Nat) (s : State) : (epilogue plan v s).frameReady = s.frameReady := rfl
@[simp] theorem epilogue_frames (plan : StepPlan) (v : Nat) (s : State) : (epilogue plan v s).frames = s.frames := rfl
@[simp] theorem epilogue_rawOut (plan : StepPlan) (v : Nat) (s : State) : (epilogue plan v s).rawOut = (if s.rawEn then s.rawOut ++ mirrorRun plan.label ((inWindow s).take plan.c) else s.rawOut) := rfl
@[simp] theorem epilogue_decOut (plan : StepPlan) (v : Nat) (s : State) : (epilogue plan v s).decOut = (if s.decEn then s.decOut ++ mirrorRun plan.label (plan.dd.take plan.c) else s.decOut) := rfl
@[simp] theorem epilogue_responses (plan : StepPlan) (v : Nat) (s : State) : (epilogue plan v s).responses = s.responses := rfl
@[simp] theorem epilogue_agenda (plan : StepPlan) (v : Nat) (s : State) : (epilogue plan v s).agenda = s.agenda := rfl
@[simp] theorem epilogue_consumed (plan : StepPlan) (v : Nat) (s : State) : (epilogue plan v s).consumed = s.consumed + plan.c := rfl
@[simp] theorem epilogue_bufEpoch (plan : StepPlan) (v : Nat) (s : State) : (epilogue plan v s).bufEpoch = s.bufEpoch := rfl
@[simp] theorem epilogue_work (plan : StepPlan) (v : Nat) (s : State) : (epilogue plan v s).work = s.work := rfl

/-! ## raiseError -/

@[simp] theorem raiseError_params (c : ErrCause) (a : BitVec 8) (s : State) : (raiseError c a s).params = s.params := by
  unfold raiseError; split <;> rfl
@[simp] theorem raiseError_seq (c : ErrCause) (a : BitVec 8) (s : State) : (raiseError c a s).seq = s.seq := by
  unfold raiseError; split <;> rfl
@[simp] theorem raiseError_active (c : ErrCause) (a : BitVec 8) (s : State) : (raiseError c a s).active = s.active := by
  unfold raiseError; split <;> rfl
@[simp] theorem raiseError_prev (c : ErrCause) (a : BitVec 8) (s : State) : (raiseError c a s).prev = s.prev := by
  unfold raiseError; split <;> rfl
@[simp] theorem raiseError_symcount (c : ErrCause) (a : BitVec 8) (s : State) : (raiseError c a s).symcount = s.symcount := by
  unfold raiseError; split <;> rfl
@[simp] theorem raiseError_syncword (c : ErrCause) (a : BitVec 8) (s : State) : (raiseError c a s).syncword = s.syncword := by
  unfold raiseError; split <;> rfl
@[simp] theorem raiseError_mtu (c : ErrCause) (a : BitVec 8) (s : State) : (raiseError c a s).mtu = s.mtu := by
  unfold raiseError; split <;> rfl
@[simp] theorem raiseError_mtuL (c : ErrCause) (a : BitVec 8) (s : State) : (raiseError c a s).mtuL = s.mtuL := by
  unfold raiseError; split <;> rfl
@[simp] theorem raiseError_rawEn (c : ErrCause) (a : BitVec 8) (s : State) : (raiseError c a s).rawEn = s.rawEn := by
  unfold raiseError; split <;> rfl
@[simp] theorem raiseError_decEn (c : ErrCause) (a : BitVec 8) (s : State) : (raiseError c a s).decEn = s.decEn := by
  unfold raiseError; split <;> rfl
@[simp] theorem raiseError_up (c : ErrCause) (a : BitVec 8) (s : State) : (raiseError c a s).up = s.up := by
  unfold raiseError; split <;> rfl
@[simp] theorem raiseError_down (c : ErrCause) (a : BitVec 8) (s : State) : (raiseError c a s).down = s.down := by
  unfold raiseError; split <;> rfl
@[simp] theorem raiseError_window (c : ErrCause) (a : BitVec 8) (s : State) : (raiseError c a s).window = s.window := by
  unfold raiseError; split <;> rfl
@[simp] theorem raiseError_buf (c : ErrCause) (a : BitVec 8) (s : State) : (raiseError c a s).buf = s.buf := by
  unfold raiseError; split <;> rfl
@[simp] theorem raiseError_bufAlloc (c : ErrCause) (a : BitVec 8) (s : State) : (raiseError c a s).bufAlloc = s.bufAlloc := by
  unfold raiseError; split <;> rfl
@[simp] theorem raiseError_input (c : ErrCause) (a : BitVec 8) (s : State) : (raiseError c a s).input = s.input := by
  unfold raiseError; split <;> rfl
@[simp] theorem raiseError_rawFree (c : ErrCause) (a : BitVec 8) (s : State) : (raiseError c a s).rawFree = s.rawFree := by
  unfold raiseError; split <;> rfl
@[simp] theorem raiseError_decFree (c : ErrCause) (a : BitVec 8) (s : State) : (raiseError c a s).decFree = s.decFree := by
  unfold raiseError; split <;> rfl
@[simp] theorem raiseError_frameReady (c : ErrCause) (a : BitVec 8) (s : State) : (raiseError c a s).frameReady = s.frameReady := by
  unfold raiseError; split <;> rfl
@[simp] theorem raiseError_frames (c : ErrCause) (a : BitVec 8) (s : State) : (raiseError c a s).frames = s.frames := by
  unfold raiseError; split <;> rfl
@[simp] theorem raiseError_rawOut (c : ErrCause) (a : BitVec 8) (s : State) : (raiseError c a s).rawOut = s.rawOut := by
  unfold raiseError; split <;> rfl
@[simp] theorem raiseError_decOut (c : ErrCause) (a : BitVec 8) (s : State) : (raiseError c a s).decOut = s.decOut := by
  unfold raiseError; split <;> rfl
@[simp] theorem raiseError_responses (c : ErrCause) (a : BitVec 8) (s : State) : (raiseError c a s).responses = s.responses := by
  unfold raiseError; split <;> rfl
@[simp] theorem raiseError_agenda (c : ErrCause) (a : BitVec 8) (s : State) : (raiseError c a s).agenda = s.agenda := by
  unfold raiseError; split <;> rfl
@[simp] theorem raiseError_consumed (c : ErrCause) (a : BitVec 8) (s : State) : (raiseError c a s).consumed = s.consumed := by
  unfold raiseError; split <;> rfl
@[simp] theorem raiseError_bufEpoch (c : ErrCause) (a : BitVec 8) (s : State) : (raiseError c a s).bufEpoch = s.bufEpoch := by
  unfold raiseError; split <;> rfl
@[simp] theorem raiseError_work (c : ErrCause) (a : BitVec 8) (s : State) : (raiseError c a s).work = s.work := by
  unfold raiseError; split <;> rfl

/-! ## discardBuf -/

@[simp] theorem discardBuf_params (s : State) : (discardBuf s).params = s.params := by
  unfold discardBuf; split <;> rfl
@[simp] theorem discardBuf_seq (s : State) : (discardBuf s).seq = s.seq := by
  unfold discardBuf; split <;> rfl
@[simp] theorem discardBuf_active (s : State) : (discardBuf s).active = s.active := by
  unfold discardBuf; split <;> rfl
@[simp] theorem discardBuf_prev (s : State) : (discardBuf s).prev = s.prev := by
  unfold discardBuf; split <;> rfl
@[simp] theorem discardBuf_symcount (s : State) : (discardBuf s).symcount = s.symcount := by
  unfold discardBuf; split <;> rfl
@[simp] theorem discardBuf_syncword (s : State) : (discardBuf s).syncword = s.syncword := by
  unfold discardBuf; split <;> rfl
@[simp] theorem discardBuf_mtu (s : State) : (discardBuf s).mtu = s.mtu := by
  unfold discardBuf; split <;> rfl
@[simp] theorem discardBuf_mtuL (s : State) : (discardBuf s).mtuL = s.mtuL := by
  unfold discardBuf; split <;> rfl
@[simp] theorem discardBuf_rawEn (s : State) : (discardBuf s).rawEn = s.rawEn := by
  unfold discardBuf; split <;> rfl
@[simp] theorem discardBuf_decEn (s : State) : (discardBuf s).decEn = s.decEn := by
  unfold discardBuf; split <;> rfl
@[simp] theorem discardBuf_err (s : State) : (discardBuf s).err = s.err := by
  unfold discardBuf; split <;> rfl
@[simp] theorem discardBuf_errCause (s : State) : (discardBuf s).errCause = s.errCause := by
  unfold discardBuf; split <;> rfl
@[simp] theorem discardBuf_errAddr (s : State) : (discardBuf s).errAddr = s.errAddr := by
  unfold discardBuf; split <;> rfl
@[simp] theorem discardBuf_up (s : State) : (discardBuf s).up = s.up := by
  unfold discardBuf; split <;> rfl
@[simp] theorem discardBuf_down (s : State) : (discardBuf s).down = s.down := by
  unfold discardBuf; split <;> rfl
@[simp] theorem discardBuf_window (s : State) : (discardBuf s).window = s.window := by
  unfold discardBuf; split <;> rfl
@[simp] theorem discardBuf_input (s : State) : (discardBuf s).input = s.input := by
  unfold discardBuf; split <;> rfl
@[simp] theorem discardBuf_rawFree (s : State) : (discardBuf s).rawFree = s.rawFree := by
  unfold discardBuf; split <;> rfl
@[simp] theorem discardBuf_decFree (s : State) : (discardBuf s).decFree = s.decFree := by
  unfold discardBuf; split <;> rfl
@[simp] theorem discardBuf_frameReady (s : State) : (discardBuf s).frameReady = s.frameReady := by
  unfold discardBuf; split <;> rfl
@[simp] theorem discardBuf_frames (s : State) : (discardBuf s).frames = s.frames := by
  unfold discardBuf; split <;> rfl
@[simp] theorem discardBuf_rawOut (s : State) : (discardBuf s).rawOut = s.rawOut := by
  unfold discardBuf; split <;> rfl
@[simp] theorem discardBuf_decOut (s : State) : (discardBuf s).decOut = s.decOut := by
  unfold discardBuf; split <;> rfl
@[simp] theorem discardBuf_responses (s : State) : (discardBuf s).responses = s.responses := by
  unfold discardBuf; split <;> rfl
@[simp] theorem discardBuf_agenda (s : State) : (discardBuf s).agenda = s.agenda := by
  unfold discardBuf; split <;> rfl
@[simp] theorem discardBuf_consumed (s : State) : (discardBuf s).consumed = s.consumed := by
  unfold discardBuf; split <;> rfl
@[simp] theorem discardBuf_work (s : State) : (discardBuf s).work = s.work := by
  unfold discardBuf; split <;> rfl

@[simp] theorem discardBuf_bufAlloc (s : State) : (discardBuf s).bufAlloc = false := by
  unfold discardBuf; split <;> simp_all

/-! ## activate -/

@[simp] theorem activate_params (s : State) : (activate s).params = s.params := by
  unfold activate; split <;> simp
@[simp] theorem activate_syncword (s : State) : (activate s).syncword = s.syncword := by
  unfold activate; split <;> simp
@[simp] theorem activate_mtu (s : State) : (activate s).mtu = s.mtu := by
  unfold activate; split <;> simp
@[simp] theorem activate_rawEn (s : State) : (activate s).rawEn = s.rawEn := by
  unfold activate; split <;> simp
@[simp] theorem activate_decEn (s : State) : (activate s).decEn = s.decEn := by
  unfold activate; split <;> simp
@[simp] theorem activate_up (s : State) : (activate s).up = s.up := by
  unfold activate; split <;> simp
@[simp] theorem activate_down (s : State) : (activate s).down = s.down := by
  unfold activate; split <;> simp
@[simp] theorem activate_window (s : State) : (activate s).window = s.window := by
  unfold activate; split <;> simp
@[simp] theorem activate_input (s : State) : (activate s).input = s.input := by
  unfold activate; split <;> simp
@[simp] theorem activate_rawFree (s : State) : (activate s).rawFree = s.rawFree := by
  unfold activate; split <;> simp
@[simp] theorem activate_decFree (s : State) : (activate s).decFree = s.decFree := by
  unfold activate; split <;> simp
@[simp] theorem activate_frameReady (s : State) : (activate s).frameReady = s.frameReady := by
  unfold activate; split <;> simp
@[simp] theorem activate_frames (s : State) : (activate s).frames = s.frames := by
  unfold activate; split <;> simp
@[simp] theorem activate_rawOut (s : State) : (activate s).rawOut = s.rawOut := by
  unfold activate; split <;> simp
@[simp] theorem activate_decOut (s : State) : (activate s).decOut = s.decOut := by
  unfold activate; split <;> simp
@[simp] theorem activate_responses (s : State) : (activate s).responses = s.responses := by
  unfold activate; split <;> simp
@[simp] theorem activate_agenda (s : State) : (activate s).agenda = s.agenda := by
  unfold activate; split <;> simp
@[simp] theorem activate_consumed (s : State) : (activate s).consumed = s.consumed := by
  unfold activate; split <;> simp
@[simp] theorem activate_work (s : State) : (activate s).work = s.work := by
  unfold activate; split <;> simp

/-! ## feedFrom, prologue and secondWindow: only W changes -/

@[simp] theorem feedFrom_params (i : Nat) (xs : List Sample) (s : State) : (feedFrom i xs s).params = s.params := by
  induction xs generalizing i s with
  | nil => rfl
  | cons x xs ih => simp [feedFrom, ih]
@[simp] theorem prologue_params (q : SeqState) (s : State) : (prologue q s).params = s.params := by
  simp [prologue]
@[simp] theorem secondWindow_params (s : State) : (secondWindow s).params = s.params := by
  simp [secondWindow]
@[simp] theorem feedFrom_seq (i : Nat) (xs : List Sample) (s : State) : (feedFrom i xs s).seq = s.seq := by
  induction xs generalizing i s with
  | nil => rfl
  | cons x xs ih => simp [feedFrom, ih]
@[simp] theorem prologue_seq (q : SeqState) (s : State) : (prologue q s).seq = s.seq := by
  simp [prologue]
@[simp] theorem secondWindow_seq (s : State) : (secondWindow s).seq = s.seq := by
  simp [secondWindow]
@[simp] theorem feedFrom_active (i : Nat) (xs : List Sample) (s : State) : (feedFrom i xs s).active = s.active := by
  induction xs generalizing i s with
  | nil => rfl
  | cons x xs ih => simp [feedFrom, ih]
@[simp] theorem prologue_active (q : SeqState) (s : State) : (prologue q s).active = s.active := by
  simp [prologue]
@[simp] theorem secondWindow_active (s : State) : (secondWindow s).active = s.active := by
  simp [secondWindow]
@[simp] theorem feedFrom_prev (i : Nat) (xs : List Sample) (s : State) : (feedFrom i xs s).prev = s.prev := by
  induction xs generalizing i s with
  | nil => rfl
  | cons x xs ih => simp [feedFrom, ih]
@[simp] theorem prologue_prev (q : SeqState) (s : State) : (prologue q s).prev = s.prev := by
  simp [prologue]
@[simp] theorem secondWindow_prev (s : State) : (secondWindow s).prev = s.prev := by
  simp [secondWindow]
@[simp] theorem feedFrom_symcount (i : Nat) (xs : List Sample) (s : State) : (feedFrom i xs s).symcount = s.symcount := by
  induction xs generalizing i s with
  | nil => rfl
  | cons x xs ih => simp [feedFrom, ih]
@[simp] theorem prologue_symcount (q : SeqState) (s : State) : (prologue q s).symcount = s.symcount := by
  simp [prologue]
@[simp] theorem secondWindow_symcount (s : State) : (secondWindow s).symcount = s.symcount := by
  simp [secondWindow]
@[simp] theorem feedFrom_syncword (i : Nat) (xs : List Sample) (s : State) : (feedFrom i xs s).syncword = s.syncword := by
  induction xs generalizing i s with
  | nil => rfl
  | cons x xs ih => simp [feedFrom, ih]
@[simp] theorem prologue_syncword (q : SeqState) (s : State) : (prologue q s).syncword = s.syncword := by
  simp [prologue]
@[simp] theorem secondWindow_syncword (s : State) : (secondWindow s).syncword = s.syncword := by
  simp [secondWindow]
@[simp] theorem feedFrom_mtu (i : Nat) (xs : List Sample) (s : State) : (feedFrom i xs s).mtu = s.mtu := by
  induction xs generalizing i s with
  | nil => rfl
  | cons x xs ih => simp [feedFrom, ih]
@[simp] theorem prologue_mtu (q : SeqState) (s : State) : (prologue q s).mtu = s.mtu := by
  simp [prologue]
@[simp] theorem secondWindow_mtu (s : State) : (secondWindow s).mtu = s.mtu := by
  simp [secondWindow]
@[simp] theorem feedFrom_mtuL (i : Nat) (xs : List Sample) (s : State) : (feedFrom i xs s).mtuL = s.mtuL := by
  induction xs generalizing i s with
  | nil => rfl
  | cons x xs ih => simp [feedFrom, ih]
@[simp] theorem prologue_mtuL (q : SeqState) (s : State) : (prologue q s).mtuL = s.mtuL := by
  simp [prologue]
@[simp] theorem secondWindow_mtuL (s : State) : (secondWindow s).mtuL = s.mtuL := by
  simp [secondWindow]
@[simp] theorem feedFrom_rawEn (i : Nat) (xs : List Sample) (s : State) : (feedFrom i xs s).rawEn = s.rawEn := by
  induction xs generalizing i s with
  | nil => rfl
  | cons x xs ih => simp [feedFrom, ih]
@[simp] theorem prologue_rawEn (q : SeqState) (s : State) : (prologue q s).rawEn = s.rawEn := by
  simp [prologue]
@[simp] theorem secondWindow_rawEn (s : State) : (secondWindow s).rawEn = s.rawEn := by
  simp [secondWindow]
@[simp] theorem feedFrom_decEn (i : Nat) (xs : List Sample) (s : State) : (feedFrom i xs s).decEn = s.decEn := by
  induction xs generalizing i s with
  | nil => rfl
  | cons x xs ih => simp [feedFrom, ih]
@[simp] theorem prologue_decEn (q : SeqState) (s : State) : (prologue q s).decEn = s.decEn := by
  simp [prologue]
@[simp] theorem secondWindow_decEn (s : State) : (secondWindow s).decEn = s.decEn := by
  simp [secondWindow]
@[simp] theorem feedFrom_err (i : Nat) (xs : List Sample) (s : State) : (feedFrom i xs s).err = s.err := by
  induction xs generalizing i s with
  | nil => rfl
  | cons x xs ih => simp [feedFrom, ih]
@[simp] theorem prologue_err (q : SeqState) (s : State) : (prologue q s).err = s.err := by
  simp [prologue]
@[simp] theorem secondWindow_err (s : State) : (secondWindow s).err = s.err := by
  simp [secondWindow]
@[simp] theorem feedFrom_errCause (i : Nat) (xs : List Sample) (s : State) : (feedFrom i xs s).errCause = s.errCause := by
  induction xs generalizing i s with
  | nil => rfl
  | cons x xs ih => simp [feedFrom, ih]
@[simp] theorem prologue_errCause (q : SeqState) (s : State) : (prologue q s).errCause = s.errCause := by
  simp [prologue]
@[simp] theorem secondWindow_errCause (s : State) : (secondWindow s).errCause = s.errCause := by
  simp [secondWindow]
@[simp] theorem feedFrom_errAddr (i : Nat) (xs : List Sample) (s : State) : (feedFrom i xs s).errAddr = s.errAddr := by
  induction xs generalizing i s with
  | nil => rfl
  | cons x xs ih => simp [feedFrom, ih]
@[simp] theorem prologue_errAddr (q : SeqState) (s : State) : (prologue q s).errAddr = s.errAddr := by
  simp [prologue]
@[simp] theorem secondWindow_errAddr (s : State) : (secondWindow s).errAddr = s.errAddr := by
  simp [secondWindow]
@[simp] theorem feedFrom_up (i : Nat) (xs : List Sample) (s : State) : (feedFrom i xs s).up = s.up := by
  induction xs generalizing i s with
  | nil => rfl
  | cons x xs ih => simp [feedFrom, ih]
@[simp] theorem prologue_up (q : SeqState) (s : State) : (prologue q s).up = s.up := by
  simp [prologue]
@[simp] theorem secondWindow_up (s : State) : (secondWindow s).up = s.up := by
  simp [secondWindow]
@[simp] theorem feedFrom_down (i : Nat) (xs : List Sample) (s : State) : (feedFrom i xs s).down = s.down := by
  induction xs generalizing i s with
  | nil => rfl
  | cons x xs ih => simp [feedFrom, ih]
@[simp] theorem prologue_down (q : SeqState) (s : State) : (prologue q s).down = s.down := by
  simp [prologue]
@[simp] theorem secondWindow_down (s : State) : (secondWindow s).down = s.down := by
  simp [secondWindow]
@[simp] theorem feedFrom_buf (i : Nat) (xs : List Sample) (s : State) : (feedFrom i xs s).buf = s.buf := by
  induction xs generalizing i s with
  | nil => rfl
  | cons x xs ih => simp [feedFrom, ih]
@[simp] theorem prologue_buf (q : SeqState) (s : State) : (prologue q s).buf = s.buf := by
  simp [prologue]
@[simp] theorem secondWindow_buf (s : State) : (secondWindow s).buf = s.buf := by
  simp [secondWindow]
@[simp] theorem feedFrom_bufAlloc (i : Nat) (xs : List Sample) (s : State) : (feedFrom i xs s).bufAlloc = s.bufAlloc := by
  induction xs generalizing i s with
  | nil => rfl
  | cons x xs ih => simp [feedFrom, ih]
@[simp] theorem prologue_bufAlloc (q : SeqState) (s : State) : (prologue q s).bufAlloc = s.bufAlloc := by
  simp [prologue]
@[simp] theorem secondWindow_bufAlloc (s : State) : (secondWindow s).bufAlloc = s.bufAlloc := by
  simp [secondWindow]
@[simp] theorem feedFrom_input (i : Nat) (xs : List Sample) (s : State) : (feedFrom i xs s).input = s.input := by
  induction xs generalizing i s with
  | nil => rfl
  | cons x xs ih => simp [feedFrom, ih]
@[simp] theorem prologue_input (q : SeqState) (s : State) : (prologue q s).input = s.input := by
  simp [prologue]
@[simp] theorem secondWindow_input (s : State) : (secondWindow s).input = s.input := by
  simp [secondWindow]
@[simp] theorem feedFrom_rawFree (i : Nat) (xs : List Sample) (s : State) : (feedFrom i xs s).rawFree = s.rawFree := by
  induction xs generalizing i s with
  | nil => rfl
  | cons x xs ih => simp [feedFrom, ih]
@[simp] theorem prologue_rawFree (q : SeqState) (s : State) : (prologue q s).rawFree = s.rawFree := by
  simp [prologue]
@[simp] theorem secondWindow_rawFree (s : State) : (secondWindow s).rawFree = s.rawFree := by
  simp [secondWindow]
@[simp] theorem feedFrom_decFree (i : Nat) (xs : List Sample) (s : State) : (feedFrom i xs s).decFree = s.decFree := by
  induction xs generalizing i s with
  | nil => rfl
  | cons x xs ih => simp [feedFrom, ih]
@[simp] theorem prologue_decFree (q : SeqState) (s : State) : (prologue q s).decFree = s.decFree := by
  simp [prologue]
@[simp] theorem secondWindow_decFree (s : State) : (secondWindow s).decFree = s.decFree := by
  simp [secondWindow]
@[simp] theorem feedFrom_frameReady (i : Nat) (xs : List Sample) (s : State) : (feedFrom i xs s).frameReady = s.frameReady := by
  induction xs generalizing i s with
  | nil => rfl
  | cons x xs ih => simp [feedFrom, ih]
@[simp] theorem prologue_frameReady (q : SeqState) (s : State) : (prologue q s).frameReady = s.frameReady := by
  simp [prologue]
@[simp] theorem secondWindow_frameReady (s : State) : (secondWindow s).frameReady = s.frameReady := by
  simp [secondWindow]
@[simp] theorem feedFrom_frames (i : Nat) (xs : List Sample) (s : State) : (feedFrom i xs s).frames = s.frames := by
  induction xs generalizing i s with
  | nil => rfl
  | cons x xs ih => simp [feedFrom, ih]
@[simp] theorem prologue_frames (q : SeqState) (s : State) : (prologue q s).frames = s.frames := by
  simp [prologue]
@[simp] theorem secondWindow_frames (s : State) : (secondWindow s).frames = s.frames := by
  simp [secondWindow]
@[simp] theorem feedFrom_rawOut (i : Nat) (xs : List Sample) (s : State) : (feedFrom i xs s).rawOut = s.rawOut := by
  induction xs generalizing i s with
  | nil => rfl
  | cons x xs ih => simp [feedFrom, ih]
@[simp] theorem prologue_rawOut (q : SeqState) (s : State) : (prologue q s).rawOut = s.rawOut := by
  simp [prologue]
@[simp] theorem secondWindow_rawOut (s : State) : (secondWindow s).rawOut = s.rawOut := by
  simp [secondWindow]
@[simp] theorem feedFrom_decOut (i : Nat) (xs : List Sample) (s : State) : (feedFrom i xs s).decOut = s.decOut := by
  induction xs generalizing i s with
  | nil => rfl
  | cons x xs ih => simp [feedFrom, ih]
@[simp] theorem prologue_decOut (q : SeqState) (s : State) : (prologue q s).decOut = s.decOut := by
  simp [prologue]
@[simp] theorem secondWindow_decOut (s : State) : (secondWindow s).decOut = s.decOut := by
  simp [secondWindow]
@[simp] theorem feedFrom_responses (i : Nat) (xs : List Sample) (s : State) : (feedFrom i xs s).responses = s.responses := by
  induction xs generalizing i s with
  | nil => rfl
  | cons x xs ih => simp [feedFrom, ih]
@[simp] theorem prologue_responses (q : SeqState) (s : State) : (prologue q s).responses = s.responses := by
  simp [prologue]
@[simp] theorem secondWindow_responses (s : State) : (secondWindow s).responses = s.responses := by
  simp [secondWindow]
@[simp] theorem feedFrom_agenda (i : Nat) (xs : List Sample) (s : State) : (feedFrom i xs s).agenda = s.agenda := by
  induction xs generalizing i s with
  | nil => rfl
  | cons x xs ih => simp [feedFrom, ih]
@[simp] theorem prologue_agenda (q : SeqState) (s : State) : (prologue q s).agenda = s.agenda := by
  simp [prologue]
@[simp] theorem secondWindow_agenda (s : State) : (secondWindow s).agenda = s.agenda := by
  simp [secondWindow]
@[simp] theorem feedFrom_consumed (i : Nat) (xs : List Sample) (s : State) : (feedFrom i xs s).consumed = s.consumed := by
  induction xs generalizing i s with
  | nil => rfl
  | cons x xs ih => simp [feedFrom, ih]
@[simp] theorem prologue_consumed (q : SeqState) (s : State) : (prologue q s).consumed = s.consumed := by
  simp [prologue]
@[simp] theorem secondWindow_consumed (s : State) : (secondWindow s).consumed = s.consumed := by
  simp [secondWindow]
@[simp] theorem feedFrom_bufEpoch (i : Nat) (xs : List Sample) (s : State) : (feedFrom i xs s).bufEpoch = s.bufEpoch := by
  induction xs generalizing i s with
  | nil => rfl
  | cons x xs ih => simp [feedFrom, ih]
@[simp] theorem prologue_bufEpoch (q : SeqState) (s : State) : (prologue q s).bufEpoch = s.bufEpoch := by
  simp [prologue]
@[simp] theorem secondWindow_bufEpoch (s : State) : (secondWindow s).bufEpoch = s.bufEpoch := by
  simp [secondWindow]
@[simp] theorem feedFrom_work (i : Nat) (xs : List Sample) (s : State) : (feedFrom i xs s).work = s.work := by
  induction xs generalizing i s with
  | nil => rfl
  | cons x xs ih => simp [feedFrom, ih]
@[simp] theorem prologue_work (q : SeqState) (s : State) : (prologue q s).work = s.work := by
  simp [prologue]
@[simp] theorem secondWindow_work (s : State) : (secondWindow s).work = s.work := by
  simp [secondWindow]

end Sys2Proof.Machine
end

