-- ==== Sys2Proof/Laws/Ops.lean ====
section
/-! SUPPORT. What each shared operation can do, once: sparse arrays keep their canonical form and read back
what was written, the input window and the dechirped block have their lengths, detection stays below N,
and the buffer operations answer a next state exactly where their requirements hold. -/

namespace Sys2Proof.Machine

variable {α : Type}

/-! ## Outcomes -/

@[simp] theorem andThen_next (s : State) (k : State → Result) : andThen (.next s) k = k s := rfl
@[simp] theorem andThen_fault (e : Fault) (k : State → Result) : andThen (.fault e) k = .fault e := rfl
@[simp] theorem andThen_refused (e : Refusal) (k : State → Result) :
    andThen (.refused e) k = .refused e := rfl

theorem andThen_eq_next {r : Result} {k : State → Result} {t : State} (h : andThen r k = .next t) :
    ∃ s, r = .next s ∧ k s = .next t := by
  cases r with
  | next s => exact ⟨s, rfl, h⟩
  | fault e => cases h
  | refused e => cases h

/-! ## Sparse arrays -/

@[simp] theorem getSlot_putSlot_same (k : Nat) (v : α) (l : List (Nat × α)) :
    getSlot k (putSlot k v l) = some v := by
  induction l with
  | nil => simp [putSlot, getSlot]
  | cons e rest ih =>
    obtain ⟨i, x⟩ := e
    unfold putSlot
    split
    · simp [getSlot]
    · split
      · simp [getSlot]
      · rename_i _ hne
        simp [getSlot, hne, ih]

theorem getSlot_putSlot_other {j k : Nat} (h : j ≠ k) (v : α) (l : List (Nat × α)) :
    getSlot j (putSlot k v l) = getSlot j l := by
  induction l with
  | nil => simp [putSlot, getSlot, h]
  | cons e rest ih =>
    obtain ⟨i, x⟩ := e
    unfold putSlot
    split
    · simp [getSlot, h]
    · split
      · rename_i hk
        subst hk
        simp [getSlot, h]
      · simp [getSlot, ih]

theorem slotsWf_weaken {lo lo' bound : Nat} (h : lo' ≤ lo) {l : List (Nat × α)}
    (hl : slotsWf lo bound l = true) : slotsWf lo' bound l = true := by
  cases l with
  | nil => rfl
  | cons e rest =>
    simp only [slotsWf, Bool.and_eq_true, decide_eq_true_eq] at hl ⊢
    exact ⟨⟨by omega, hl.1.2⟩, hl.2⟩

/-- Writing an entry keeps the canonical form. -/
theorem slotsWf_putSlot {lo bound k : Nat} (hlo : lo ≤ k) (hk : k < bound) (v : α)
    {l : List (Nat × α)} (hl : slotsWf lo bound l = true) : slotsWf lo bound (putSlot k v l) = true := by
  induction l generalizing lo with
  | nil => simp [putSlot, slotsWf, hlo, hk]
  | cons e rest ih =>
    obtain ⟨i, x⟩ := e
    simp only [slotsWf, Bool.and_eq_true, decide_eq_true_eq] at hl
    obtain ⟨⟨hi, hib⟩, hrest⟩ := hl
    unfold putSlot
    split
    · rename_i hki
      simp only [slotsWf, Bool.and_eq_true, decide_eq_true_eq]
      exact ⟨⟨hlo, hk⟩, ⟨by omega, hib⟩, hrest⟩
    · split
      · rename_i _ heq
        subst heq
        simp only [slotsWf, Bool.and_eq_true, decide_eq_true_eq]
        exact ⟨⟨hlo, hk⟩, hrest⟩
      · simp only [slotsWf, Bool.and_eq_true, decide_eq_true_eq]
        exact ⟨⟨hi, hib⟩, ih (by omega) hrest⟩

/-! ## Feeding the detector window -/

/-- What a whole block leaves in W: the block in its slots, the other slots as they were. -/
theorem getSlot_feedFrom (i : Nat) (xs : List Sample) (s : State) (j : Nat) :
    getSlot j (feedFrom i xs s).window
      = if i ≤ j ∧ j < i + xs.length then xs[j - i]? else getSlot j s.window := by
  induction xs generalizing i s with
  | nil => simp [feedFrom]
  | cons x xs ih =>
    rw [feedFrom, ih]
    by_cases hj : j = i
    · subst hj
      simp
    · by_cases h : i + 1 ≤ j ∧ j < i + 1 + xs.length
      · have h2 : i ≤ j ∧ j < i + (x :: xs).length := by simp only [List.length_cons]; omega
        rw [if_pos h, if_pos h2]
        obtain ⟨m, rfl⟩ : ∃ m, j = i + 1 + m := ⟨j - (i + 1), by omega⟩
        rw [show i + 1 + m - (i + 1) = m by omega, show i + 1 + m - i = m + 1 by omega]
        simp
      · have h2 : ¬(i ≤ j ∧ j < i + (x :: xs).length) := by
          simp only [List.length_cons]; omega
        rw [if_neg h, if_neg h2, feedSlot_window, getSlot_putSlot_other hj]

/-- Feeding a block that fits keeps W's canonical form. -/
theorem slotsWf_feedFrom {bound : Nat} (i : Nat) (xs : List Sample) (s : State)
    (h : i + xs.length ≤ bound) (hw : slotsWf 0 bound s.window = true) :
    slotsWf 0 bound (feedFrom i xs s).window = true := by
  induction xs generalizing i s with
  | nil => exact hw
  | cons x xs ih =>
    simp only [List.length_cons] at h
    exact ih (i + 1) _ (by omega) (slotsWf_putSlot (by omega) (by omega) x hw)

/-! ## The input window and dechirping -/

@[simp] theorem inWindow_length (s : State) : (inWindow s).length = 2 * s.params.size := by
  unfold inWindow
  split <;> simp_all

@[simp] theorem tableEntries_length (s : State) (r : ChirpRef) :
    (tableEntries s r).length = s.params.size := by
  simp only [tableEntries, List.length_append, List.length_take, List.length_map, List.length_range]
  omega

@[simp] theorem dechirpBlock_length (b : WinBase) (r : ChirpRef) (s : State) :
    (dechirpBlock b r s).length = s.params.size := by
  cases b <;> simp [dechirpBlock, baseOffset] <;> omega

/-- A dechirped block depends only on the instance, the input, the position and the tables. -/
theorem dechirpBlock_congr {s t : State} (b : WinBase) (r : ChirpRef) (hp : t.params = s.params)
    (hi : t.input = s.input) (hc : t.consumed = s.consumed) (hu : t.up = s.up) (hd : t.down = s.down) :
    dechirpBlock b r t = dechirpBlock b r s := by
  have hw : inWindow t = inWindow s := by simp only [inWindow, hp, hi, hc]
  have ht : tableEntries t r = tableEntries s r := by cases r <;> simp [tableEntries, tableOf, hp, hu, hd]
  simp only [dechirpBlock, hp, hw, ht]

/-- With the whole window there and a table of N entries, entry `i` is the product of the `i`-th window
sample from the base on and the conjugate of the `i`-th table entry. -/
theorem dechirpBlock_getElem? (b : WinBase) (r : ChirpRef) (s : State) (i : Nat) {x t : Sample}
    (hin : 2 * s.params.size ≤ s.input.length) (hi : i < s.params.size)
    (hx : s.input[baseOffset s.params b + i]? = some x)
    (hlen : (tableOf s r).length = s.params.size) (ht : (tableOf s r)[i]? = some t) :
    (dechirpBlock b r s)[i]? = some (cmul s.params.num x (sampleConj s.params.num.fmt t)) := by
  have hb : baseOffset s.params b + i < 2 * s.params.size := by cases b <;> simp [baseOffset] <;> omega
  simp only [dechirpBlock, inWindow, hin, if_true, tableEntries, hlen, Nat.sub_self, List.range_zero,
    List.map_nil, List.append_nil, List.getElem?_zipWith, List.getElem?_drop, List.getElem?_take, hb, hx,
    hi, ht]

/-! ## Detection -/

theorem peakScan_lt {β : Type} (lt : β → β → Bool) (best : β) (b i n : Nat) (l : List β)
    (hb : b < n) (h : i + l.length ≤ n) : peakScan lt best b i l < n := by
  induction l generalizing best b i with
  | nil => exact hb
  | cons y ys ih =>
    simp only [List.length_cons] at h
    unfold peakScan
    split
    · exact ih y i (i + 1) (by omega) (by omega)
    · exact ih best b (i + 1) hb (by omega)

/-- The peak of a list is one of its indices. -/
theorem peakIndex_lt {β : Type} (lt : β → β → Bool) (l : List β) (h : 0 < l.length) :
    peakIndex lt l < l.length := by
  cases l with
  | nil => simp at h
  | cons x xs =>
    simp only [List.length_cons]
    exact peakScan_lt lt x 0 1 _ xs (by omega) (by omega)

theorem size_pos (p : Params) : 0 < p.size := Nat.two_pow_pos _

theorem size_le (p : Params) : p.size ≤ 65536 := Nat.pow_le_pow_right (by omega) p.sf_high

/-- N is four times N/4 (43_state_machine.md R135). -/
theorem size_quarter (p : Params) : p.size = 4 * (p.size / 4) ∧ 1 ≤ p.size / 4 := by
  obtain ⟨k, hk⟩ : ∃ k, p.sf = k + 2 := ⟨p.sf - 2, by have := p.sf_low; omega⟩
  have hs : p.size = 2 ^ k * 4 := by simp [Params.size, hk, pow_add]
  have := Nat.two_pow_pos k
  omega

theorem detectIdeal_lt (p : Params) (ws : List ExactNum) : detectIdeal p ws < p.size := by
  have h := peakIndex_lt exLt ((List.range p.size).map (binEnergy p ws)) (by simp [size_pos])
  simpa [detectIdeal] using h

theorem detectRounded_lt (p : Params) (w : List Sample) : detectRounded p w < p.size := by
  have h := peakIndex_lt (fun a b => decide (a < b)) ((List.range p.size).map (ownEnergy p w))
    (by simp [size_pos])
  simpa [detectRounded] using h

theorem detectWindow_lt (p : Params) (w : List Sample) : detectWindow p w < p.size := by
  unfold detectWindow
  split
  · exact detectIdeal_lt _ _
  · exact detectRounded_lt _ _

theorem detectValue_lt (s : State) : detectValue s < s.params.size := detectWindow_lt _ _

/-- After a whole block of N samples is fed, DETECT sees exactly that block. -/
theorem detectValue_feedFrom (s : State) (d : List Sample) (h : d.length = s.params.size) :
    detectValue (feedFrom 0 d s) = detectWindow s.params d := by
  unfold detectValue
  rw [feedFrom_params]
  congr 1
  apply List.ext_getElem?
  intro i
  by_cases hi : i < s.params.size
  · have hd : i < d.length := by omega
    simp [windowAt, getSlot_feedFrom, hi, hd]
  · simp [hi, h]

/-! ## The error record -/

/-- Raising an error changes the record only while it is empty, and nothing else ever. -/
theorem raiseError_eq (c : ErrCause) (a : BitVec 8) (s : State) :
    raiseError c a s = { s with
      err := true,
      errCause := if s.err then s.errCause else causeCode c,
      errAddr := if s.err then s.errAddr else a } := by
  unfold raiseError
  cases s
  dsimp only
  split <;> simp_all

/-! ## The output symbol buffer -/

theorem allocBuf_eq_next {m : BitVec 16} {s t : State} (h : allocBuf m s = .next t) :
    s.bufAlloc = false ∧ m.toNat ≤ s.params.mtuMax ∧ t = { forgetBuf s with bufAlloc := true } := by
  unfold allocBuf at h
  split at h
  · cases h
  · split at h
    · cases h
    · cases h
      exact ⟨by simp_all, by omega, rfl⟩

theorem appendBuf_eq_next {k : BitVec 16} {v : SymbolWord} {s t : State}
    (h : appendBuf k v s = .next t) :
    s.bufAlloc = true ∧ k.toNat < s.mtuL.toNat ∧ k.toNat < s.params.mtuMax
      ∧ t = { s with buf := putSlot k.toNat v s.buf } := by
  unfold appendBuf at h
  split at h
  · cases h
  · split at h
    · cases h
    · cases h
      simp_all

theorem emitBuf_eq_next {m : BitVec 16} {s t : State} (h : emitBuf m s = .next t) :
    s.bufAlloc = true ∧ s.frameReady = true ∧ m.toNat ≤ s.params.mtuMax
      ∧ t = { forgetBuf s with frames := s.frames ++ [frameOf m s], bufAlloc := false } := by
  unfold emitBuf at h
  split at h
  · cases h
  · split at h
    · cases h
    · cases h
      simp_all

/-! ## Activation -/

/-- An activation is refused with MTU = 0 and otherwise resets the protocol state. -/
theorem activate_cases (s : State) :
    (s.mtu = 0#16 ∧ activate s = raiseError .actUnconfigured (Reg.addr .ctrl) s) ∨
    (s.mtu ≠ 0#16 ∧ activate s = discardBuf { s with seq := SeqState.code .framesync, active := true, prev := 0#16, symcount := 0#16, mtuL := 0#16 }) := by
  unfold activate
  split
  · exact .inl ⟨by assumption, rfl⟩
  · exact .inr ⟨by assumption, rfl⟩

/-! ## The step operations -/

theorem mirrorRun_length (l : Label) (xs : List Sample) : (mirrorRun l xs).length = xs.length := by
  cases xs <;> simp [mirrorRun]

theorem mirrorRun_samples (l : Label) (xs : List Sample) :
    (mirrorRun l xs).map MirrorElem.sample = xs := by
  cases xs <;> simp [mirrorRun, Function.comp_def]

/-- What a FRAMESYNC step with its guard true is: full sync or skip. -/
theorem framesyncStep_cases (s : State) :
    (framesyncStep s = epilogue
        (syncPlan s.params (dechirpBlock .first .up s) (dechirpBlock .second .up s))
        (detectValue (prologue .framesync s))
        { secondWindow (prologue .framesync s) with mtuL := s.mtu }) ∨
    (framesyncStep s = epilogue
        (skipPlan s.params (detectValue (prologue .framesync s)) (dechirpBlock .first .up s))
        (detectValue (prologue .framesync s)) (secondWindow (prologue .framesync s))) ∨
    (framesyncStep s = epilogue
        (skipPlan s.params (detectValue (prologue .framesync s)) (dechirpBlock .first .up s))
        (detectValue (prologue .framesync s)) (prologue .framesync s)) := by
  unfold framesyncStep
  dsimp only
  split
  · split
    · exact .inl rfl
    · exact .inr (.inl rfl)
  · exact .inr (.inr rfl)

/-- The guard the step operations test is GUARD() as the rule writes it. -/
theorem stepGuard_iff (q : SeqState) (s : State) : stepGuard q s = true ↔ Guard q s := by
  simp only [stepGuard, Guard, completing, Bool.and_eq_true, Bool.or_eq_true, Bool.not_eq_true',
    decide_eq_true_eq, Bool.and_eq_false_iff]
  constructor
  · rintro ⟨⟨⟨⟨a, b⟩, c⟩, d⟩, e⟩
    refine ⟨a, b, c, d, ?_⟩
    rcases e with e | e
    · left
      rintro ⟨h1, h2⟩
      subst h1
      simp [h2] at e
    · exact .inr e
  · rintro ⟨a, b, c, d, e⟩
    refine ⟨⟨⟨⟨a, b⟩, c⟩, d⟩, ?_⟩
    rcases e with e | e
    · left
      by_cases h1 : q = .datasymbols
      · right
        simpa using fun h => e ⟨h1, h⟩
      · left
        simpa using h1
    · exact .inr e

/-- With the window there, its first `c` samples are the first `c` of the input. -/
theorem inWindow_take {s : State} {c : Nat} (h : 2 * s.params.size ≤ s.input.length)
    (hc : c ≤ 2 * s.params.size) : (inWindow s).take c = s.input.take c := by
  simp [inWindow, h, List.take_take, hc]

/-- The window shows the same samples wherever the instance, the input and the position are the same. -/
theorem inWindow_congr {s t : State} (hp : t.params = s.params) (hi : t.input = s.input)
    (hc : t.consumed = s.consumed) : inWindow t = inWindow s := by
  simp only [inWindow, hp, hi, hc]

/-- A step's first detection is DETECT of its first dechirped block. -/
theorem detectValue_prologue (q : SeqState) (s : State) :
    detectValue (prologue q s) = detectWindow s.params (dechirpBlock .first (refOf q) s) :=
  detectValue_feedFrom _ _ (by simp)

theorem dechirpBlock_prologue (b : WinBase) (r : ChirpRef) (q : SeqState) (s : State) :
    dechirpBlock b r (prologue q s) = dechirpBlock b r s :=
  dechirpBlock_congr b r (by simp) (by simp) (by simp) (by simp) (by simp)

/-- A FRAMESYNC step's second detection is DETECT of the second dechirped block. -/
theorem detectValue_secondWindow (s : State) :
    detectValue (secondWindow (prologue .framesync s))
      = detectWindow s.params (dechirpBlock .second .up s) := by
  rw [secondWindow, dechirpBlock_prologue, detectValue_feedFrom _ _ (by simp), prologue_params]

/-- Feeding a block changes W alone. -/
theorem feedFrom_eq (i : Nat) (xs : List Sample) (s : State) :
    feedFrom i xs s = { s with window := (feedFrom i xs s).window } := by
  induction xs generalizing i s with
  | nil => rfl
  | cons x xs ih => rw [feedFrom, ih]; rfl

/-- All the epilogue does, from a state that differs in W only from one with the window there. -/
theorem epilogue_eq (s : State) (w : List (Nat × Sample)) (plan : StepPlan) (v : Nat)
    (hin : 2 * s.params.size ≤ s.input.length) (hc : plan.c ≤ 2 * s.params.size) :
    epilogue plan v { s with window := w } = { s with
      window := w, prev := BitVec.ofNat 16 v, input := s.input.drop plan.c,
      consumed := s.consumed + plan.c,
      rawOut := mirrored s.rawEn plan.label (s.input.take plan.c) s.rawOut,
      decOut := mirrored s.decEn plan.label (plan.dd.take plan.c) s.decOut, seq := plan.next.code } := by
  have h1 : inWindow { s with window := w } = inWindow s := inWindow_congr rfl rfl rfl
  simp only [epilogue, h1, mirrored, inWindow_take hin hc]

/-! ## Codes -/

@[simp] theorem ofCode_code (q : SeqState) : SeqState.ofCode q.code = some q := by cases q <;> rfl

theorem code_of_ofCode {c : BitVec 3} {q : SeqState} (h : SeqState.ofCode c = some q) : c = q.code := by
  revert h
  cases q <;> revert c <;> decide

@[simp] theorem ofAddr_addr (r : Reg) : Reg.ofAddr r.addr = some r := by cases r <;> rfl

theorem addr_of_ofAddr {a : BitVec 8} {r : Reg} (h : Reg.ofAddr a = some r) : a = r.addr := by
  revert h
  cases r <;> revert a <;> decide

/-- A command word is its match value with DATA put in (30_encoding.md R79). -/
theorem hcwWord_eq (b : Bool) (r : Reg) (d : Word32) :
    hcwWord b r d = hcwWord b r 0#32 ||| d.setWidth 64 := by
  apply BitVec.eq_of_getLsbD_eq
  intro i hi
  simp only [hcwWord, BitVec.getLsbD_append, BitVec.getLsbD_or, BitVec.getLsbD_setWidth]
  by_cases h : i < 32
  · simp [h, hi]
  · have : d.getLsbD i = false := BitVec.getLsbD_of_ge _ _ (by omega)
    simp [h, this]

/-- A command word that decodes is a read or a write of a mapped register. -/
theorem decodeHcw_eq_ok {w : Hcw} {i : Instr} (h : decodeHcw w = .ok i) :
    ∃ r : Reg, r.addr = w.addr ∧ i = if w.isWrite then writeCommand w.data r else readCommand w.data r := by
  unfold decodeHcw at h
  split at h
  · cases h
  · split at h
    · cases h
    · split at h
      · cases h
      · rename_i r hr
        exact ⟨r, (addr_of_ofAddr hr).symm, (Decoded.ok.inj h).symm⟩

end Sys2Proof.Machine
end

