-- ==== Sys2Proof/Laws/Exact.lean ====
section
/-! SUPPORT. The exact arithmetic means what it says: each operation on sums of roots of unity is the
complex one, and `reSign` is the sign of the real part. -/

namespace Sys2Proof.Machine

/-! ## Coefficients -/

/-- The sign of a coefficient is the sign of its numerator. -/
theorem sign_coef (c : ℚ) : ((SignType.sign (c : ℝ) : SignType) : Int) = c.num.sign := by
  rcases lt_trichotomy c 0 with h | h | h
  · rw [sign_neg (by exact_mod_cast h), Int.sign_eq_neg_one_of_neg (Rat.num_neg.mpr h)]; rfl
  · rw [h]; simp
  · rw [sign_pos (by exact_mod_cast h), Int.sign_eq_one_of_pos (Rat.num_pos.mpr h)]; rfl

/-! ## Phases -/

theorem exp_whole_turns (k : Nat) (x : ℂ) : Complex.exp (x + k * (2 * Real.pi * Complex.I)) = Complex.exp x := by
  rw [Complex.exp_add, Complex.exp_nat_mul_two_pi_mul_I, mul_one]

/-- A phase may be counted with whole turns left in. -/
theorem phaseVal_ofNat (n : Nat) :
    phaseVal (BitVec.ofNat 16 n) = Complex.exp (2 * Real.pi * n / 65536 * Complex.I) := by
  have h : (n : ℂ) = ((n % 65536 : Nat) : ℂ) + 65536 * ((n / 65536 : Nat) : ℂ) := by
    exact_mod_cast (Nat.mod_add_div n 65536).symm
  rw [phaseVal, BitVec.toNat_ofNat, h, ← exp_whole_turns (n / 65536)]
  congr 1
  norm_num
  ring

theorem phaseVal_add (a b : Phase) : phaseVal (a + b) = phaseVal a * phaseVal b := by
  have h : a + b = BitVec.ofNat 16 (a.toNat + b.toNat) := by
    apply BitVec.eq_of_toNat_eq; simp
  rw [h, phaseVal_ofNat, phaseVal, phaseVal, ← Complex.exp_add]
  congr 1
  push_cast
  ring

@[simp] theorem phaseVal_zero : phaseVal 0#16 = 1 := by simp [phaseVal]

theorem phaseVal_half : phaseVal 32768#16 = -1 := by
  rw [show (32768#16 : Phase) = BitVec.ofNat 16 32768 from rfl, phaseVal_ofNat]
  rw [show (2 * (Real.pi : ℂ) * ((32768 : Nat) : ℂ) / 65536 * Complex.I) = Real.pi * Complex.I by
    push_cast; ring]
  exact Complex.exp_pi_mul_I

theorem phaseVal_quarter : phaseVal 16384#16 = Complex.I := by
  rw [show (16384#16 : Phase) = BitVec.ofNat 16 16384 from rfl, phaseVal_ofNat]
  rw [show (2 * (Real.pi : ℂ) * ((16384 : Nat) : ℂ) / 65536 * Complex.I) = Real.pi / 2 * Complex.I by
    push_cast; ring]
  exact Complex.exp_pi_div_two_mul_I

theorem phaseVal_mul_neg (a : Phase) : phaseVal a * phaseVal (-a) = 1 := by
  rw [← phaseVal_add, BitVec.add_right_neg]
  exact phaseVal_zero

theorem phaseVal_conj (a : Phase) : (starRingEnd ℂ) (phaseVal a) = phaseVal (-a) := by
  have h1 : phaseVal a * (starRingEnd ℂ) (phaseVal a) = 1 := by
    rw [phaseVal, show (2 * (Real.pi : ℂ) * (a.toNat : ℂ) / 65536 * Complex.I)
      = ((2 * Real.pi * a.toNat / 65536 : ℝ) : ℂ) * Complex.I by push_cast; ring,
      ← Complex.exp_conj, ← Complex.exp_add, map_mul, Complex.conj_ofReal, Complex.conj_I, mul_neg,
      add_neg_cancel, Complex.exp_zero]
  have h0 : phaseVal a ≠ 0 := Complex.exp_ne_zero _
  exact mul_left_cancel₀ h0 (h1.trans (phaseVal_mul_neg a).symm)

theorem phaseVal_sub_half (a : Phase) : phaseVal (a - 32768#16) = -phaseVal a := by
  have h : a - 32768#16 = a + 32768#16 := by
    rw [BitVec.sub_eq_add_neg]; rfl
  rw [h, phaseVal_add, phaseVal_half, mul_neg_one]

theorem phaseVal_re (a : Phase) : (phaseVal a).re = Real.cos (2 * Real.pi * a.toNat / 65536) := by
  rw [phaseVal, show (2 * (Real.pi : ℂ) * (a.toNat : ℂ) / 65536 * Complex.I)
    = ((2 * Real.pi * a.toNat / 65536 : ℝ) : ℂ) * Complex.I by push_cast; ring,
    Complex.exp_ofReal_mul_I_re]

/-! ## Sums -/

@[simp] theorem rootVal_nil : rootVal [] = 0 := rfl

@[simp] theorem rootVal_cons (t : Phase × ℚ) (z : RootSum) :
    rootVal (t :: z) = t.2 * phaseVal t.1 + rootVal z := by
  simp [rootVal]

theorem rootVal_insertTerm (a : Phase) (c : ℚ) (z : RootSum) :
    rootVal (insertTerm a c z) = c * phaseVal a + rootVal z := by
  induction z with
  | nil =>
    unfold insertTerm
    split
    · rename_i h; simp [h]
    · simp
  | cons t rest ih =>
    obtain ⟨b, d⟩ := t
    unfold insertTerm
    split
    · split
      · rename_i h; simp [h]
      · simp
    · split
      · rename_i heq
        subst heq
        have hsum : ((c + d : ℚ) : ℂ) = c + d := by push_cast; rfl
        split
        · rename_i h
          rw [h] at hsum
          have : (c : ℂ) = -d := by
            rw [eq_neg_iff_add_eq_zero, ← hsum]; simp
          simp [this]
        · simp only [rootVal_cons, hsum]; ring
      · simp only [rootVal_cons, ih]; ring

@[simp] theorem rootVal_addTerm (t : Phase × ℚ) (z : RootSum) :
    rootVal (addTerm t z) = t.2 * phaseVal t.1 + rootVal z := by
  unfold addTerm
  split
  · exact rootVal_insertTerm _ _ _
  · rw [rootVal_insertTerm, phaseVal_sub_half]; push_cast; ring

theorem rootVal_foldr_addTerm (x y : List (Phase × ℚ)) :
    rootVal (x.foldr addTerm y) = rootVal x + rootVal y := by
  induction x with
  | nil => simp
  | cons t x ih => simp [ih, add_assoc]

@[simp] theorem rootVal_collect (x : List (Phase × ℚ)) : rootVal (collect x) = rootVal x := by
  simp [collect, rootVal_foldr_addTerm]

@[simp] theorem rootVal_rootAdd (x y : RootSum) : rootVal (rootAdd x y) = rootVal x + rootVal y :=
  rootVal_foldr_addTerm x y

@[simp] theorem rootVal_rootNeg (x : RootSum) : rootVal (rootNeg x) = -rootVal x := by
  induction x with
  | nil => simp [rootNeg]
  | cons t x ih =>
    simp only [rootNeg, List.map_cons, rootVal_cons] at ih ⊢
    rw [ih]; push_cast; ring

@[simp] theorem rootVal_rootSub (x y : RootSum) : rootVal (rootSub x y) = rootVal x - rootVal y := by
  simp [rootSub]; ring

theorem rootVal_shiftTerms (a : Phase) (c : ℚ) (x : RootSum) :
    rootVal (shiftTerms a c x) = c * phaseVal a * rootVal x := by
  induction x with
  | nil => simp [shiftTerms]
  | cons t x ih =>
    simp only [shiftTerms, List.map_cons, rootVal_cons, phaseVal_add] at ih ⊢
    rw [ih]; push_cast; ring

@[simp] theorem rootVal_rootMul (x y : RootSum) : rootVal (rootMul x y) = rootVal x * rootVal y := by
  induction x with
  | nil => simp [rootMul]
  | cons t x ih =>
    simp only [rootMul, List.foldr_cons, rootVal_foldr_addTerm, rootVal_shiftTerms,
      rootVal_cons] at ih ⊢
    rw [ih]; ring

@[simp] theorem rootVal_rootConj (x : RootSum) : rootVal (rootConj x) = (starRingEnd ℂ) (rootVal x) := by
  rw [rootConj, rootVal_collect]
  induction x with
  | nil => simp
  | cons t x ih => simp [ih, phaseVal_conj]

@[simp] theorem rootVal_rootOf (a : Phase) : rootVal (rootOf a) = phaseVal a := by simp [rootOf]

@[simp] theorem rootVal_ofParts (x y : ℚ) :
    rootVal (ofParts x y) = x + y * Complex.I := by
  simp [ofParts, phaseVal_quarter]

theorem re_mulRe (x y : RootSum) : (rootVal (mulRe x y)).re = 2 * (rootVal x).re * (rootVal y).re := by
  simp [mulRe]; ring

/-! ## Which phases a sum uses -/

/-- Every phase of `z` has residue `r` modulo `2^e`. -/
def PhasesMod (e r : Nat) (z : List (Phase × ℚ)) : Prop := ∀ t ∈ z, t.1.toNat % 2 ^ e = r % 2 ^ e

/-- The phases of `z` rise strictly, all below half a turn. -/
def Rising (z : RootSum) : Prop :=
  z.Pairwise (fun t u => t.1.toNat < u.1.toNat) ∧ ∀ t ∈ z, t.1.toNat < 32768

theorem phase_of_mem_insertTerm {a : Phase} {c : ℚ} {z : RootSum} {t : Phase × ℚ}
    (h : t ∈ insertTerm a c z) : t.1 = a ∨ ∃ u ∈ z, u.1 = t.1 := by
  induction z with
  | nil =>
    unfold insertTerm at h
    split at h
    · simp at h
    · simp at h; exact .inl (by rw [h])
  | cons u rest ih =>
    obtain ⟨b, d⟩ := u
    unfold insertTerm at h
    split at h
    · split at h
      · exact .inr ⟨t, h, rfl⟩
      · rcases List.mem_cons.mp h with rfl | h
        · exact .inl rfl
        · exact .inr ⟨t, h, rfl⟩
    · split at h
      · split at h
        · exact .inr ⟨t, List.mem_cons_of_mem _ h, rfl⟩
        · rcases List.mem_cons.mp h with rfl | h
          · exact .inl rfl
          · exact .inr ⟨t, List.mem_cons_of_mem _ h, rfl⟩
      · rcases List.mem_cons.mp h with rfl | h
        · exact .inr ⟨_, List.mem_cons_self, rfl⟩
        · rcases ih h with h | ⟨u, hu, he⟩
          · exact .inl h
          · exact .inr ⟨u, List.mem_cons_of_mem _ hu, he⟩

theorem rising_nil : Rising [] := ⟨List.Pairwise.nil, by simp⟩

theorem rising_insertTerm {a : Phase} (ha : a.toNat < 32768) (c : ℚ) {z : RootSum} (hz : Rising z) :
    Rising (insertTerm a c z) := by
  refine ⟨?_, fun t ht => ?_⟩
  · obtain ⟨hz, -⟩ := hz
    induction z with
    | nil => unfold insertTerm; split <;> simp
    | cons u rest ih =>
      obtain ⟨b, d⟩ := u
      obtain ⟨hb, hrest⟩ := List.pairwise_cons.mp hz
      unfold insertTerm
      split
      · rename_i hab
        split
        · exact hz
        · refine List.pairwise_cons.mpr ⟨fun t ht => ?_, hz⟩
          rcases List.mem_cons.mp ht with rfl | ht
          · exact hab
          · exact lt_trans hab (hb t ht)
      · split
        · rename_i heq
          subst heq
          split
          · exact hrest
          · exact List.pairwise_cons.mpr ⟨hb, hrest⟩
        · rename_i hab hne
          refine List.pairwise_cons.mpr ⟨fun t ht => ?_, ih hrest⟩
          rcases phase_of_mem_insertTerm ht with h | ⟨u, hu, he⟩
          · have : b.toNat ≠ a.toNat := fun h' => hne (BitVec.eq_of_toNat_eq h'.symm)
            show b.toNat < t.1.toNat
            rw [h]; omega
          · have := hb u hu
            rw [he] at this
            exact this
  · rcases phase_of_mem_insertTerm ht with h | ⟨u, hu, he⟩
    · rw [h]; exact ha
    · rw [← he]; exact hz.2 u hu

theorem rising_addTerm (t : Phase × ℚ) {z : RootSum} (hz : Rising z) : Rising (addTerm t z) := by
  unfold addTerm
  split
  · exact rising_insertTerm (by assumption) _ hz
  · refine rising_insertTerm ?_ _ hz
    have := t.1.isLt
    simp only [BitVec.toNat_sub, BitVec.toNat_ofNat]
    omega

theorem rising_foldr (x : List (Phase × ℚ)) {z : RootSum} (hz : Rising z) : Rising (x.foldr addTerm z) := by
  induction x with
  | nil => exact hz
  | cons t x ih => exact rising_addTerm t ih

theorem rising_rootMul (x y : RootSum) : Rising (rootMul x y) := by
  induction x with
  | nil => exact rising_nil
  | cons t x ih => exact rising_foldr _ ih

theorem rising_filter (f : Phase × ℚ → Bool) {z : RootSum} (hz : Rising z) : Rising (z.filter f) :=
  ⟨hz.1.filter f, fun t ht => hz.2 t (List.mem_filter.mp ht).1⟩

theorem rising_mulRe (x y : RootSum) : Rising (mulRe x y) := rising_foldr _ (rising_rootMul _ _)

theorem rising_rootSub (x : RootSum) {y : RootSum} (hx : Rising x) : Rising (rootSub x y) :=
  rising_foldr _ hx

theorem phasesMod_insertTerm {e r : Nat} {a : Phase} (ha : a.toNat % 2 ^ e = r % 2 ^ e) (c : ℚ)
    {z : RootSum} (hz : PhasesMod e r z) : PhasesMod e r (insertTerm a c z) := by
  intro t ht
  rcases phase_of_mem_insertTerm ht with h | ⟨u, hu, h⟩
  · rw [h]; exact ha
  · rw [← h]; exact hz u hu

theorem phasesMod_addTerm {e r : Nat} (he : e ≤ 15) {t : Phase × ℚ} (ht : t.1.toNat % 2 ^ e = r % 2 ^ e)
    {z : RootSum} (hz : PhasesMod e r z) : PhasesMod e r (addTerm t z) := by
  unfold addTerm
  split
  · exact phasesMod_insertTerm ht _ hz
  · rename_i h
    refine phasesMod_insertTerm ?_ _ hz
    have hlt := t.1.isLt
    have hs : (t.1 - 32768#16).toNat = t.1.toNat - 32768 := by
      simp only [BitVec.toNat_sub, BitVec.toNat_ofNat]; omega
    obtain ⟨k, hk⟩ : 2 ^ e ∣ 32768 := by
      rw [show 32768 = 2 ^ 15 from rfl]; exact Nat.pow_dvd_pow 2 he
    rw [hs, ← ht]
    have h2 : t.1.toNat = (t.1.toNat - 32768) + 2 ^ e * k := by omega
    conv_rhs => rw [h2, Nat.add_mul_mod_self_left]

theorem phasesMod_foldr {e r : Nat} (he : e ≤ 15) {x : List (Phase × ℚ)} (hx : PhasesMod e r x)
    {z : RootSum} (hz : PhasesMod e r z) : PhasesMod e r (x.foldr addTerm z) := by
  induction x with
  | nil => exact hz
  | cons t x ih =>
    exact phasesMod_addTerm he (hx t List.mem_cons_self) (ih fun u hu => hx u (List.mem_cons_of_mem _ hu))

theorem phasesMod_nil (e r : Nat) : PhasesMod e r [] := by simp [PhasesMod]

theorem mod_pow_of_mod_turn {e : Nat} (he : e ≤ 15) (n : Nat) : n % 65536 % 2 ^ e = n % 2 ^ e := by
  apply Nat.mod_mod_of_dvd
  rw [show 65536 = 2 ^ 16 from rfl]
  exact Nat.pow_dvd_pow 2 (by omega)

theorem phasesMod_rootMul {e r q : Nat} (he : e ≤ 15) {x y : RootSum} (hx : PhasesMod e r x)
    (hy : PhasesMod e q y) : PhasesMod e (r + q) (rootMul x y) := by
  induction x with
  | nil => exact phasesMod_nil _ _
  | cons t x ih =>
    refine phasesMod_foldr he ?_ (ih fun u hu => hx u (List.mem_cons_of_mem _ hu))
    intro u hu
    obtain ⟨v, hv, rfl⟩ := List.mem_map.mp hu
    rw [BitVec.toNat_add, mod_pow_of_mod_turn he, Nat.add_mod, hx t List.mem_cons_self, hy v hv,
      ← Nat.add_mod]

theorem phasesMod_rootConj {e r : Nat} (he : e ≤ 15) {x : RootSum} (hx : PhasesMod e r x)
    (h2 : 2 * r % 2 ^ e = 0) : PhasesMod e r (rootConj x) := by
  refine phasesMod_foldr he ?_ (phasesMod_nil _ _)
  intro u hu
  obtain ⟨v, hv, rfl⟩ := List.mem_map.mp hu
  have hlt := v.1.isLt
  have hvr := hx v hv
  rw [BitVec.toNat_neg, mod_pow_of_mod_turn he]
  obtain ⟨k, hk⟩ : 2 ^ e ∣ 65536 := by
    rw [show 65536 = 2 ^ 16 from rfl]; exact Nat.pow_dvd_pow 2 (by omega)
  have hsum : (2 ^ 16 - v.1.toNat) + v.1.toNat ≡ r + r [MOD 2 ^ e] := by
    rw [Nat.sub_add_cancel (by omega), show (2 : Nat) ^ 16 = 65536 from rfl]
    unfold Nat.ModEq
    rw [← two_mul, h2, hk, Nat.mul_mod_right]
  exact Nat.ModEq.add_right_cancel (show v.1.toNat ≡ r [MOD 2 ^ e] from hvr) hsum

theorem phasesMod_rootNeg {e r : Nat} {x : RootSum} (hx : PhasesMod e r x) : PhasesMod e r (rootNeg x) := by
  intro u hu
  obtain ⟨v, hv, rfl⟩ := List.mem_map.mp hu
  exact hx v hv

theorem phasesMod_mulRe {e r q : Nat} (he : e ≤ 15) {x y : RootSum} (hx : PhasesMod e r x)
    (hy : PhasesMod e q y) (h2 : 2 * q % 2 ^ e = 0) : PhasesMod e (r + q) (mulRe x y) :=
  phasesMod_foldr he (phasesMod_rootMul he hx hy) (phasesMod_rootMul he hx (phasesMod_rootConj he hy h2))

/-! ## The sign of a real part -/

theorem rootVal_split (b : Nat) (z : RootSum) :
    rootVal z = rootVal (termsWithBit b false z) + rootVal (termsWithBit b true z) := by
  induction z with
  | nil => simp [termsWithBit]
  | cons t z ih =>
    simp only [termsWithBit] at ih
    cases h : t.1.getLsbD b <;> simp [termsWithBit, h, ih] <;> ring

/-- Where every phase is 0 or a quarter turn, the real part is the coefficient at phase 0. -/
theorem reSign_base {z : RootSum} (hr : Rising z) (hm : PhasesMod 14 0 z) :
    reSign 0 z = (SignType.sign (rootVal z).re : Int) := by
  have hre : ∀ t ∈ z, t.1 ≠ 0#16 → (t.2 * phaseVal t.1 : ℂ).re = 0 := by
    intro t ht h0
    have h1 := hr.2 t ht
    have h2 := hm t ht
    have h3 : t.1 = 16384#16 := by
      apply BitVec.eq_of_toNat_eq
      have : t.1.toNat ≠ 0 := fun h => h0 (BitVec.eq_of_toNat_eq h)
      simp only [BitVec.toNat_ofNat]
      norm_num at h2
      omega
    rw [h3, phaseVal_quarter]
    simp
  cases z with
  | nil => simp [reSign]
  | cons t rest =>
    have hrest : (rootVal rest).re = 0 := by
      have hpos : ∀ u ∈ rest, u.1 ≠ 0#16 := by
        intro u hu h
        have := (List.pairwise_cons.mp hr.1).1 u hu
        rw [h] at this
        simp at this
      have hall : ∀ u ∈ rest, (u.2 * phaseVal u.1 : ℂ).re = 0 :=
        fun u hu => hre u (List.mem_cons_of_mem _ hu) (hpos u hu)
      clear hr hm hre hpos
      induction rest with
      | nil => simp
      | cons u rest ih =>
        rw [rootVal_cons, Complex.add_re, hall u List.mem_cons_self,
          ih fun v hv => hall v (List.mem_cons_of_mem _ hv), add_zero]
    have hfold : rest.foldr (fun u acc => if u.1 = 0#16 then u.2.num.sign else acc) 0 = 0 := by
      have hpos : ∀ u ∈ rest, u.1 ≠ 0#16 := by
        intro u hu h
        have := (List.pairwise_cons.mp hr.1).1 u hu
        rw [h] at this
        simp at this
      clear hr hm hre hrest
      induction rest with
      | nil => rfl
      | cons u rest ih =>
        simp only [List.foldr_cons, hpos u List.mem_cons_self, if_false]
        exact ih fun v hv => hpos v (List.mem_cons_of_mem _ hv)
    simp only [reSign, List.foldr_cons, hfold]
    rw [rootVal_cons, Complex.add_re, hrest, add_zero]
    by_cases h0 : t.1 = 0#16
    · rw [if_pos h0, h0, phaseVal_zero, mul_one, Complex.ratCast_re, sign_coef]
    · rw [if_neg h0, hre t List.mem_cons_self h0]
      simp

theorem cos_pos_of_bit {b : Nat} (hb : b ≤ 13) : 0 < (phaseVal (BitVec.ofNat 16 (2 ^ b))).re := by
  have hle : (2 : Nat) ^ b ≤ 8192 := by
    calc (2 : Nat) ^ b ≤ 2 ^ 13 := Nat.pow_le_pow_right (by omega) hb
      _ = 8192 := by norm_num
  have htn : (BitVec.ofNat 16 (2 ^ b)).toNat = 2 ^ b := by
    rw [BitVec.toNat_ofNat]; exact Nat.mod_eq_of_lt (by omega)
  rw [phaseVal_re, htn]
  have hpi := Real.pi_pos
  have h1 : (((2 : Nat) ^ b : Nat) : ℝ) ≤ 8192 := by exact_mod_cast hle
  have h0 : (0 : ℝ) ≤ (((2 : Nat) ^ b : Nat) : ℝ) := Nat.cast_nonneg _
  apply Real.cos_pos_of_mem_Ioo
  constructor
  · have : 0 ≤ 2 * Real.pi * (((2 : Nat) ^ b : Nat) : ℝ) / 65536 := by positivity
    linarith
  · rw [div_lt_iff₀ (by norm_num)]
    nlinarith

theorem bit_of_mod {n b : Nat} (h : n % 2 ^ b = 0) (v : Bool) (hv : n.testBit b = v) :
    n % 2 ^ (b + 1) = if v then 2 ^ b else 0 := by
  have h1 : n % 2 ^ (b + 1) = n % 2 ^ b + 2 ^ b * (n / 2 ^ b % 2) := by
    rw [pow_succ, Nat.mod_mul]
  rw [Nat.testBit_eq_decide_div_mod_eq] at hv
  rw [h1, h, Nat.zero_add]
  have h2 : n / 2 ^ b % 2 < 2 := Nat.mod_lt _ (by omega)
  cases v
  · have : n / 2 ^ b % 2 = 0 := by simp at hv; omega
    simp [this]
  · have : n / 2 ^ b % 2 = 1 := by simpa using hv
    simp [this]

theorem phasesMod_termsWithBit {b : Nat} {v : Bool} {z : RootSum} (hm : PhasesMod b 0 z) :
    PhasesMod (b + 1) (if v then 2 ^ b else 0) (termsWithBit b v z) := by
  intro t ht
  obtain ⟨hz, hbit⟩ := List.mem_filter.mp ht
  have hb : t.1.toNat.testBit b = v := by simpa [BitVec.getLsbD] using hbit
  have h0 : t.1.toNat % 2 ^ b = 0 := by simpa using hm t hz
  rw [bit_of_mod h0 v hb]
  cases v
  · simp
  · simp only [if_true]
    rw [Nat.mod_eq_of_lt (Nat.pow_lt_pow_right (by omega) (by omega))]

/-- The sign of a sum of two reals from the signs of the two and of the difference of their squares. -/
theorem sign_add_cases (x y : ℝ) : (SignType.sign (x + y) : Int) =
    if (SignType.sign x : Int) = 0 then (SignType.sign y : Int)
    else if (SignType.sign y : Int) = 0 then (SignType.sign x : Int)
    else if (SignType.sign x : Int) = (SignType.sign y : Int) then (SignType.sign x : Int)
    else (SignType.sign x : Int) * (SignType.sign (2 * x * x - 2 * y * y) : Int) := by
  rcases lt_trichotomy x 0 with hx | hx | hx <;> rcases lt_trichotomy y 0 with hy | hy | hy
  all_goals try subst hx
  all_goals try subst hy
  · simp [sign_neg hx, sign_neg hy, sign_neg (show x + y < 0 by linarith)]
  · simp [sign_neg hx]
  · simp only [sign_neg hx, sign_pos hy]
    rcases lt_trichotomy (x + y) 0 with h | h | h
    · rw [sign_neg h, sign_pos (show 0 < 2 * x * x - 2 * y * y by nlinarith)]; decide
    · rw [h, show 2 * x * x - 2 * y * y = 2 * (x - y) * (x + y) by ring, h]; simp
    · rw [sign_pos h, sign_neg (show 2 * x * x - 2 * y * y < 0 by nlinarith)]; decide
  · simp
  · simp
  · simp
  · simp only [sign_pos hx, sign_neg hy]
    rcases lt_trichotomy (x + y) 0 with h | h | h
    · rw [sign_neg h, sign_neg (show 2 * x * x - 2 * y * y < 0 by nlinarith)]; decide
    · rw [h, show 2 * x * x - 2 * y * y = 2 * (x - y) * (x + y) by ring, h]; simp
    · rw [sign_pos h, sign_pos (show 0 < 2 * x * x - 2 * y * y by nlinarith)]; decide
  · simp [sign_pos hx]
  · simp [sign_pos hx, sign_pos hy, sign_pos (show 0 < x + y by linarith)]

/-- `reSign` decides the sign of the real part exactly. -/
theorem reSign_spec (n : Nat) (hn : n ≤ 14) {z : RootSum} (hr : Rising z) (hm : PhasesMod (14 - n) 0 z) :
    reSign n z = (SignType.sign (rootVal z).re : Int) := by
  induction n generalizing z with
  | zero => exact reSign_base hr hm
  | succ n ih =>
    have hb : 13 - n ≤ 13 := by omega
    have he : 14 - n = 13 - n + 1 := by omega
    have hm' : PhasesMod (13 - n) 0 z := by rwa [show 13 - n = 14 - (n + 1) by omega]
    have hodd : PhasesMod (13 - n + 1) (2 ^ (13 - n)) (termsWithBit (13 - n) true z) :=
      phasesMod_termsWithBit hm'
    have heven : PhasesMod (13 - n + 1) 0 (termsWithBit (13 - n) false z) := phasesMod_termsWithBit hm'
    have hsplit := rootVal_split (13 - n) z
    have hdouble : 2 * 2 ^ (13 - n) % 2 ^ (13 - n + 1) = 0 := by
      rw [pow_succ, Nat.mul_comm]; exact Nat.mod_self _
    have hre : Rising (termsWithBit (13 - n) false z) := rising_filter _ hr
    unfold reSign
    split
    · rename_i hnil
      refine ih (by omega) hr ?_
      rw [he]
      intro t ht
      have hbit : t.1.getLsbD (13 - n) = false := by
        by_contra hc
        have : t ∈ termsWithBit (13 - n) true z := List.mem_filter.mpr ⟨ht, by simpa using hc⟩
        rw [hnil] at this
        simp at this
      exact heven t (List.mem_filter.mpr ⟨ht, by simpa using hbit⟩)
    · rename_i o os hcons
      rw [← hcons]
      dsimp only
      have hroot : PhasesMod (13 - n + 1) (2 ^ (13 - n)) (rootOf (BitVec.ofNat 16 (2 ^ (13 - n)))) := by
        refine phasesMod_addTerm (by omega) ?_ (phasesMod_nil _ _)
        simp only [BitVec.toNat_ofNat, show (2 : Nat) ^ 16 = 65536 from rfl]
        exact mod_pow_of_mod_turn (by omega) _
      have hso : reSign n (mulRe (rootOf (BitVec.ofNat 16 (2 ^ (13 - n)))) (termsWithBit (13 - n) true z))
          = (SignType.sign (rootVal (termsWithBit (13 - n) true z)).re : Int) := by
        rw [ih (by omega) (rising_mulRe _ _) ?_]
        · rw [re_mulRe, rootVal_rootOf, sign_mul, sign_pos (mul_pos two_pos (cos_pos_of_bit hb)), one_mul]
        · rw [he]
          intro t ht
          have h1 := phasesMod_mulRe (by omega) hroot hodd hdouble t ht
          rw [h1, ← two_mul, hdouble]; simp
      have hsa : reSign n (termsWithBit (13 - n) false z)
          = (SignType.sign (rootVal (termsWithBit (13 - n) false z)).re : Int) :=
        ih (by omega) hre (by rw [he]; exact heven)
      have hsd : reSign n (rootSub (mulRe (termsWithBit (13 - n) false z) (termsWithBit (13 - n) false z))
            (mulRe (termsWithBit (13 - n) true z) (termsWithBit (13 - n) true z)))
          = (SignType.sign (2 * (rootVal (termsWithBit (13 - n) false z)).re
              * (rootVal (termsWithBit (13 - n) false z)).re
              - 2 * (rootVal (termsWithBit (13 - n) true z)).re
              * (rootVal (termsWithBit (13 - n) true z)).re) : Int) := by
        rw [ih (by omega) (rising_rootSub _ (rising_mulRe _ _)) ?_]
        · rw [rootVal_rootSub, Complex.sub_re, re_mulRe, re_mulRe]
        · rw [he]
          refine phasesMod_foldr (by omega) (phasesMod_rootNeg ?_) ?_
          · intro t ht
            have h1 := phasesMod_mulRe (by omega) hodd hodd hdouble t ht
            rw [h1, ← two_mul, hdouble]; simp
          · exact phasesMod_mulRe (by omega) heven heven (by simp)
      rw [hsa, hso, hsd, hsplit, Complex.add_re]
      exact (sign_add_cases _ _).symm

/-! ## Exact numbers -/

/-- The number of one monomial. -/
noncomputable def givenMono (m : Monomial) : ℝ := monoVal givenVal m

@[simp] theorem givenMono_nil : givenMono [] = 1 := by simp [givenMono, monoVal]

@[simp] theorem toComplex_nil : toComplex [] = 0 := rfl

@[simp] theorem toComplex_cons (t : Monomial × RootSum) (z : ExactNum) :
    toComplex (t :: z) = givenMono t.1 * rootVal t.2 + toComplex z := by
  simp [toComplex, exactVal, givenMono]

@[simp] theorem toComplex_exCons (m : Monomial) (z : RootSum) (r : ExactNum) :
    toComplex (exCons m z r) = givenMono m * rootVal z + toComplex r := by
  unfold exCons
  split
  · rename_i h; simp [h]
  · simp

@[simp] theorem toComplex_exInsert (m : Monomial) (z : RootSum) (x : ExactNum) :
    toComplex (exInsert m z x) = givenMono m * rootVal z + toComplex x := by
  induction x with
  | nil => simp [exInsert]
  | cons t x ih =>
    unfold exInsert
    split
    · rename_i h; subst h; simp; ring
    · split
      · simp
      · simp only [toComplex_cons, ih]; ring

@[simp] theorem toComplex_exAdd (x y : ExactNum) : toComplex (exAdd x y) = toComplex x + toComplex y := by
  induction x with
  | nil => simp [exAdd]
  | cons t x ih =>
    simp only [exAdd, List.foldr_cons, toComplex_exInsert, toComplex_cons] at ih ⊢
    rw [ih, add_assoc]

@[simp] theorem toComplex_exNeg (x : ExactNum) : toComplex (exNeg x) = -toComplex x := by
  induction x with
  | nil => simp [exNeg]
  | cons t x ih =>
    simp only [exNeg, List.map_cons, toComplex_cons, rootVal_rootNeg] at ih ⊢
    rw [ih]; ring

@[simp] theorem toComplex_exSub (x y : ExactNum) : toComplex (exSub x y) = toComplex x - toComplex y := by
  simp [exSub]; ring

theorem givenMono_monoInsert (i : Nat) (m : Monomial) : givenMono (monoInsert i m) = givenVal i * givenMono m := by
  induction m with
  | nil => simp [monoInsert, givenMono, monoVal]
  | cons j m ih =>
    unfold monoInsert
    split
    · simp [givenMono, monoVal]
    · simp only [givenMono, monoVal, List.map_cons, List.prod_cons] at ih ⊢
      rw [ih]; ring

theorem givenMono_monoMul (m n : Monomial) : givenMono (monoMul m n) = givenMono m * givenMono n := by
  induction m with
  | nil => simp [monoMul]
  | cons i m ih =>
    rw [show monoMul (i :: m) n = monoInsert i (monoMul m n) from rfl, givenMono_monoInsert, ih]
    simp only [givenMono, monoVal, List.map_cons, List.prod_cons]; ring

theorem toComplex_foldr_product (t : Monomial × RootSum) (y acc : ExactNum) :
    toComplex (y.foldr (fun u acc => exInsert (monoMul t.1 u.1) (rootMul t.2 u.2) acc) acc)
      = givenMono t.1 * rootVal t.2 * toComplex y + toComplex acc := by
  induction y with
  | nil => simp
  | cons u y ih =>
    simp only [List.foldr_cons, toComplex_exInsert, ih, toComplex_cons, givenMono_monoMul, rootVal_rootMul]
    push_cast; ring

@[simp] theorem toComplex_exMul (x y : ExactNum) : toComplex (exMul x y) = toComplex x * toComplex y := by
  induction x with
  | nil => simp [exMul]
  | cons t x ih =>
    simp only [exMul, List.foldr_cons, toComplex_foldr_product, toComplex_cons] at ih ⊢
    rw [ih]; ring

@[simp] theorem toComplex_exConj (x : ExactNum) : toComplex (exConj x) = (starRingEnd ℂ) (toComplex x) := by
  induction x with
  | nil => simp [exConj]
  | cons t x ih =>
    simp only [exConj, List.map_cons, toComplex_cons, rootVal_rootConj] at ih ⊢
    rw [ih]; simp

@[simp] theorem toComplex_exTurn (a : Phase) (x : ExactNum) :
    toComplex (exTurn a x) = phaseVal a * toComplex x := by
  induction x with
  | nil => simp [exTurn]
  | cons t x ih =>
    simp only [exTurn, List.map_cons, toComplex_cons, rootVal_shiftTerms] at ih ⊢
    rw [ih]; push_cast; ring

@[simp] theorem toComplex_ofRoot (z : RootSum) : toComplex (ofRoot z) = rootVal z := by simp [ofRoot]

@[simp] theorem toComplex_ofRat (c : ℚ) : toComplex (ofRat c) = c := by simp [ofRat]

@[simp] theorem toComplex_exactParts (x y : RealNum) :
    toComplex (exactParts x y) = realVal x + realVal y * Complex.I := by
  simp only [exactParts, toComplex_exAdd, toComplex_cons, toComplex_nil, givenMono_nil, rootVal_cons,
    rootVal_nil, phaseVal_zero, phaseVal_quarter, realVal]
  simp only [givenMono, monoVal, List.map_cons, List.map_nil, List.prod_cons, List.prod_nil]
  push_cast; ring

@[simp] theorem toComplex_normSq (z : ExactNum) : toComplex (normSq z) = (Complex.normSq (toComplex z) : ℂ) := by
  simp [normSq, Complex.mul_conj]

@[simp] theorem realVal_neg (x : RealNum) : realVal x.neg = -realVal x := by
  simp [realVal, RealNum.neg]; ring

@[simp] theorem realVal_ofRat (c : ℚ) : realVal (.ofRat c) = c := by simp [realVal, RealNum.ofRat]

/-! ## The order of exact numbers -/

/-- Every sum of roots in `z` has strictly rising phases. -/
def ExRising (z : ExactNum) : Prop := ∀ t ∈ z, Rising t.2

theorem exRising_exCons {m : Monomial} {z : RootSum} {r : ExactNum} (hz : Rising z) (hr : ExRising r) :
    ExRising (exCons m z r) := by
  unfold exCons
  split
  · exact hr
  · exact List.forall_mem_cons.mpr ⟨hz, hr⟩

theorem exRising_exInsert (m : Monomial) (z : RootSum) {x : ExactNum} (hx : ExRising x) :
    ExRising (exInsert m z x) := by
  induction x with
  | nil => exact exRising_exCons (rising_foldr _ rising_nil) hx
  | cons t x ih =>
    obtain ⟨ht, hx'⟩ := List.forall_mem_cons.mp hx
    unfold exInsert
    split
    · exact exRising_exCons (rising_foldr _ ht) hx'
    · split
      · exact exRising_exCons (rising_foldr _ rising_nil) hx
      · exact List.forall_mem_cons.mpr ⟨ht, ih hx'⟩

theorem exRising_exAdd (x : ExactNum) {y : ExactNum} (hy : ExRising y) : ExRising (exAdd x y) := by
  induction x with
  | nil => exact hy
  | cons t x ih => exact exRising_exInsert _ _ ih

theorem exRising_nil : ExRising [] := by simp [ExRising]

theorem exRising_ofRoot (z : RootSum) : ExRising (ofRoot z) := exRising_exInsert _ _ exRising_nil

theorem exRising_exMul (x y : ExactNum) : ExRising (exMul x y) := by
  induction x with
  | nil => exact exRising_nil
  | cons t x ih =>
    rw [show exMul (t :: x) y = y.foldr (fun u acc =>
      exInsert (monoMul t.1 u.1) (rootMul t.2 u.2) acc) (exMul x y) from rfl]
    generalize exMul x y = acc at ih
    clear x
    induction y with
    | nil => exact ih
    | cons u y ih' => exact exRising_exInsert _ _ ih'

theorem rising_constantPart (z : ExactNum) : Rising (constantPart z) := by
  induction z with
  | nil => exact rising_nil
  | cons t z ih =>
    simp only [constantPart, List.foldr_cons] at ih ⊢
    split
    · exact rising_foldr _ ih
    · exact ih

theorem reSign_top {z : RootSum} (hz : Rising z) : reSign 14 z = (SignType.sign (rootVal z).re : Int) :=
  reSign_spec 14 (le_refl _) hz (by intro t _; rw [Nat.sub_self, pow_zero, Nat.mod_one, Nat.mod_one])

/-- Where no reals are given, every `ρᵢ` is 0. -/
theorem toComplex_of_none (h : Config.givenReals = .none) (z : ExactNum) :
    toComplex z = rootVal (constantPart z) := by
  have hv : givenVal = fun _ => 0 := by funext i; simp [givenVal, h]
  induction z with
  | nil => rfl
  | cons t z ih =>
    rw [toComplex_cons, ih]
    simp only [constantPart, List.foldr_cons]
    split
    · rename_i h0; simp [h0]
    · rename_i h0
      have : givenMono t.1 = 0 := by
        cases hm : t.1 with
        | nil => exact absurd hm h0
        | cons i m => simp [givenMono, monoVal, hv]
      simp [this]

theorem givenSign_spec (z : ExactNum) : givenSign z = (SignType.sign (toComplex z).re : Int) := by
  unfold givenSign
  split
  · rename_i h
    rw [toComplex_of_none h, reSign_top (rising_constantPart z)]
  · rename_i val bound sg hb hs h
    have hv : givenVal = val := by funext i; simp [givenVal, h]
    rw [hs, toComplex, hv]

theorem abs_givenVal (i : Nat) : |givenVal i| ≤ givenBound i := by
  unfold givenVal givenBound
  generalize Config.givenReals = g
  cases g with
  | none => simp
  | given val bound sg hb hs => exact hb i

/-- `exSign` decides the sign of the real part exactly. -/
theorem exSign_spec {z : ExactNum} (hz : ExRising z) : exSign z = (SignType.sign (toComplex z).re : Int) := by
  unfold exSign
  split
  · simp
  · rename_i w
    rw [reSign_top (hz _ List.mem_cons_self)]
    simp
  · exact givenSign_spec z

/-- `exLt` is the order of the real parts. -/
theorem exLt_iff (x y : ExactNum) (hy : ExRising y) :
    exLt x y = true ↔ (toComplex x).re < (toComplex y).re := by
  have h := exSign_spec (exRising_exAdd (exNeg x) hy)
  rw [exLt, decide_eq_true_eq, exSub, h, toComplex_exAdd, toComplex_exNeg, Complex.add_re, Complex.neg_re]
  rcases lt_trichotomy (-(toComplex x).re + (toComplex y).re) 0 with h | h | h
  · rw [sign_neg h]; simp; linarith
  · rw [h]; simp; linarith
  · rw [sign_pos h]; simp; linarith

/-- `exEq` is equality of the complex numbers. -/
theorem exEq_iff (x y : ExactNum) : exEq x y = true ↔ toComplex x = toComplex y := by
  have h := exSign_spec (exRising_exMul (exSub x y) (exConj (exSub x y)))
  rw [exEq, normSq, h, ← normSq, toComplex_normSq, Complex.ofReal_re, toComplex_exSub, beq_iff_eq]
  have hn := Complex.normSq_nonneg (toComplex x - toComplex y)
  rw [show (toComplex x = toComplex y) ↔ Complex.normSq (toComplex x - toComplex y) = 0 by
    rw [Complex.normSq_eq_zero, sub_eq_zero]]
  rcases hn.lt_or_eq with h | h
  · rw [sign_pos h]; simp [h.ne']
  · rw [← h]; simp

/-! ## Bin energies -/

theorem toComplex_dftFrom (p : Params) (m n : Nat) (ws : List ExactNum) :
    toComplex (dftFrom p m n ws) = ∑ i ∈ Finset.range ws.length,
      toComplex (ws.getD i []) * phaseVal (-(BitVec.ofNat 16 (m * (n + i) * (65536 / p.size)))) := by
  induction ws generalizing n with
  | nil => simp [dftFrom]
  | cons w ws ih =>
    rw [dftFrom, toComplex_exAdd, toComplex_exTurn, ih, List.length_cons, Finset.sum_range_succ']
    simp only [List.getD_cons_succ, List.getD_cons_zero, Nat.add_zero]
    rw [add_comm]
    congr 1
    · exact Finset.sum_congr rfl fun i _ => by rw [show n + 1 + i = n + (i + 1) by omega]
    · ring

theorem turn_step (p : Params) : (65536 / p.size) * p.size = 65536 := by
  apply Nat.div_mul_cancel
  exact (Nat.pow_dvd_pow_iff_le_right (by norm_num : 1 < 2)).mpr (show p.sf ≤ 16 from p.sf_high)

theorem phaseVal_neg_ofNat (n : Nat) :
    phaseVal (-(BitVec.ofNat 16 n)) = Complex.exp (-(2 * Real.pi * n / 65536) * Complex.I) := by
  have h := phaseVal_mul_neg (BitVec.ofNat 16 n)
  rw [phaseVal_ofNat] at h
  rw [neg_mul, Complex.exp_neg]
  exact eq_inv_of_mul_eq_one_right h

/-- The exact bin is the DFT bin of the complex numbers (42_symbol_detector.md R109). -/
theorem toComplex_dftFrom_zero {p : Params} {ws : List ExactNum} (h : ws.length = p.size) (m : Nat) :
    toComplex (dftFrom p m 0 ws) = dftBin p.size m (ws.map toComplex) := by
  rw [toComplex_dftFrom, dftBin, h]
  refine Finset.sum_congr rfl fun i hi => ?_
  have hi : i < ws.length := by rw [h]; exact Finset.mem_range.mp hi
  have ht : ((65536 / p.size : Nat) : ℂ) * (p.size : ℂ) = 65536 := by exact_mod_cast turn_step p
  have hp : (p.size : ℂ) ≠ 0 := by exact_mod_cast (Nat.two_pow_pos p.sf).ne'
  congr 1
  · simp [List.getD_eq_getElem?_getD, hi]
  · rw [phaseVal_neg_ofNat]
    congr 2
    rw [← ht]
    push_cast
    have hq : ((65536 / p.size : Nat) : ℂ) ≠ 0 := fun e => by rw [e, zero_mul] at ht; norm_num at ht
    rw [zero_add]
    congr 1
    rw [div_eq_div_iff (mul_ne_zero hq hp) hp]
    ring

theorem rising_binEnergy (p : Params) (ws : List ExactNum) (m : Nat) : ExRising (binEnergy p ws m) :=
  exRising_exMul _ _

theorem re_binEnergy (p : Params) (ws : List ExactNum) (m : Nat) :
    (toComplex (binEnergy p ws m)).re = Complex.normSq (toComplex (dftFrom p m 0 ws)) := by
  rw [binEnergy, toComplex_normSq, Complex.ofReal_re]

/-! ## The lowest index among the maxima -/

theorem peakScan_spec {β : Type} {lt : β → β → Bool} {f : β → ℝ} (l : List β) :
    ∀ (pre : List β) (best : β) (b : Nat), pre[b]? = some best →
      (∀ x ∈ pre, f x ≤ f best) → (∀ m < b, ∀ x, pre[m]? = some x → f x < f best) →
      (∀ x ∈ pre ++ l, ∀ y ∈ pre ++ l, (lt x y = true ↔ f x < f y)) →
      ∃ v, (pre ++ l)[peakScan lt best b pre.length l]? = some v ∧ (∀ x ∈ pre ++ l, f x ≤ f v) ∧
        ∀ m < peakScan lt best b pre.length l, ∀ x, (pre ++ l)[m]? = some x → f x < f v := by
  induction l with
  | nil =>
    intro pre best b hb hmax hlow _
    exact ⟨best, by simpa [peakScan] using hb, by simpa using hmax, by simpa [peakScan] using hlow⟩
  | cons y ys ih =>
    intro pre best b hb hmax hlow hlt
    have hassoc : pre ++ y :: ys = (pre ++ [y]) ++ ys := by simp
    have hbest : best ∈ pre := List.mem_of_getElem? hb
    have hblen : b < pre.length := (List.getElem?_eq_some_iff.mp hb).1
    have hiff := hlt best (by simp [hbest]) y (by simp)
    unfold peakScan
    rw [hassoc, show pre.length + 1 = (pre ++ [y]).length by simp]
    split
    · rename_i h
      have hf := hiff.mp h
      refine ih (pre ++ [y]) y pre.length (by simp) ?_ ?_ (by rwa [← hassoc])
      · intro x hx
        rcases List.mem_append.mp hx with hx | hx
        · exact le_of_lt (lt_of_le_of_lt (hmax x hx) hf)
        · rw [List.mem_singleton.mp hx]
      · intro m hm x hx
        rw [List.getElem?_append_left hm] at hx
        exact lt_of_le_of_lt (hmax x (List.mem_of_getElem? hx)) hf
    · rename_i h
      have hf : f y ≤ f best := not_lt.mp fun hc => h (hiff.mpr hc)
      refine ih (pre ++ [y]) best b (by rw [List.getElem?_append_left hblen]; exact hb) ?_ ?_
        (by rwa [← hassoc])
      · intro x hx
        rcases List.mem_append.mp hx with hx | hx
        · exact hmax x hx
        · rw [List.mem_singleton.mp hx]; exact hf
      · intro m hm x hx
        rw [List.getElem?_append_left (by omega)] at hx
        exact hlow m hm x hx

/-- The peak is a maximum, and every earlier element is strictly below it. -/
theorem peakIndex_spec {β : Type} {lt : β → β → Bool} {f : β → ℝ} (l : List β) (hne : l ≠ [])
    (hlt : ∀ x ∈ l, ∀ y ∈ l, (lt x y = true ↔ f x < f y)) :
    ∃ v, l[peakIndex lt l]? = some v ∧ (∀ x ∈ l, f x ≤ f v) ∧
      ∀ m < peakIndex lt l, ∀ x, l[m]? = some x → f x < f v := by
  cases l with
  | nil => exact absurd rfl hne
  | cons x xs =>
    have h := peakScan_spec (lt := lt) (f := f) xs [x] x 0 (by simp) (by simp) (by simp)
      (by simpa using hlt)
    simpa [peakIndex] using h

end Sys2Proof.Machine
end

