-- ==== Sys2Proof/Laws/Tables.lean ====
section
/-! SUPPORT. The properties every instance's chirp tables and formats have: negation and conjugation are
involutions that give opposite values, and every finite-precision table entry has P_unit and P_conj. -/

namespace Sys2Proof.Machine

/-! ## Negation and conjugation (41_chirp_table.md R96) -/

@[simp] theorem realNum_neg_neg (x : RealNum) : x.neg.neg = x := by simp [RealNum.neg]

@[simp] theorem realNum_neg_zero : (RealNum.ofRat 0).neg = .ofRat 0 := by simp [RealNum.neg, RealNum.ofRat]

@[simp] theorem negPart_negPart (fmt : SampleFmt) (v : BitVec 32) : negPart fmt (negPart fmt v) = v := by
  cases fmt with
  | binary32 => simp [negPart]
  | other k =>
    simp only [negPart, pairedBy]
    by_cases h : Config.partNeg k (Config.partNeg k v) = v
    · simp [h]
    · simp [h]

@[simp] theorem partI_sampleWord (i q : BitVec 32) : partI (sampleWord i q) = i := by
  apply BitVec.eq_of_getLsbD_eq
  intro j hj
  simp only [partI, sampleWord, BitVec.getLsbD_extractLsb', hj, decide_true, Bool.true_and, Nat.zero_add]
  exact (BitVec.getLsbD_append (x := q) (y := i)).trans (by simp [hj])

@[simp] theorem partQ_sampleWord (i q : BitVec 32) : partQ (sampleWord i q) = q := by
  apply BitVec.eq_of_getLsbD_eq
  intro j hj
  simp only [partQ, sampleWord, BitVec.getLsbD_extractLsb', hj, decide_true, Bool.true_and]
  exact (BitVec.getLsbD_append (x := q) (y := i)).trans (by simp [show ¬(32 + j < 32) by omega])

@[simp] theorem sampleWord_parts (w : BitVec 64) : sampleWord (partI w) (partQ w) = w := by
  apply BitVec.eq_of_getLsbD_eq
  intro j hj
  simp only [sampleWord, partI, partQ, BitVec.getLsbD_append, BitVec.getLsbD_extractLsb']
  by_cases h : j < 32
  · simp [h]
  · simp [h, show j - 32 < 32 by omega, show 32 + (j - 32) = j by omega]

/-- Conjugating a word twice gives it back, in every format. -/
theorem sampleConj_word_twice (fmt : SampleFmt) (w : BitVec 64) :
    sampleConj fmt (sampleConj fmt (.word w)) = .word w := by
  simp [sampleConj]

/-- In binary32 the conjugate differs in the sign bit of Q alone. -/
theorem sampleConj_binary32 (w : BitVec 64) :
    sampleConj .binary32 (.word w) = .word (w ^^^ 0x8000_0000_0000_0000#64) := by
  simp only [sampleConj, negPart, Sample.word.injEq]
  conv_rhs => rw [← sampleWord_parts w]
  rw [sampleWord, sampleWord,
    show (0x8000_0000_0000_0000#64 : BitVec 64) = 0x80000000#32 ++ 0#32 by decide, BitVec.xor_append]
  simp

/-- A word that stands for a number and whose Q part negates exactly has the conjugate value's word. -/
theorem sampleValue_sampleConj {fmt : SampleFmt} {w : BitVec 64} (h : plainWord fmt w = true) :
    ∃ z z' : ExactNum, sampleValue fmt (.word w) = some z ∧
      sampleValue fmt (sampleConj fmt (.word w)) = some z' ∧
      toComplex z' = (starRingEnd ℂ) (toComplex z) := by
  simp only [plainWord, Bool.and_eq_true, negExact, decide_eq_true_eq, sampleValue] at h
  obtain ⟨h1, h2⟩ := h
  cases hI : partNumber fmt (partI w) with
  | none => simp [hI] at h1
  | some x =>
    cases hQ : partNumber fmt (partQ w) with
    | none => simp [hI, hQ] at h1
    | some y =>
      refine ⟨exactParts x y, exactParts x y.neg, ?_, ?_, ?_⟩
      · simp [sampleValue, hI, hQ]
      · simp [sampleValue, sampleConj, hI, h2, hQ]
      · simp

/-! ## Unit magnitude (41_chirp_table.md R97) -/

/-- `nearUnit` says that the magnitude is 1 within the tolerance. -/
theorem nearUnit_iff {tol : ℚ} (h0 : 0 ≤ tol) (z : ExactNum) :
    nearUnit tol z = true ↔ |‖toComplex z‖ - 1| ≤ (tol : ℝ) := by
  have hr : ∀ c : ℚ, ExRising (ofRat c) := fun c => exRising_ofRoot _
  have hn : ExRising (normSq z) := exRising_exMul _ _
  have hre : (toComplex (normSq z)).re = ‖toComplex z‖ ^ 2 := by
    rw [toComplex_normSq, Complex.ofReal_re, Complex.normSq_eq_norm_sq]
  have hc : ∀ c : ℚ, (toComplex (ofRat (c * c))).re = (c : ℝ) ^ 2 := fun c => by
    rw [toComplex_ofRat, Complex.ratCast_re]; push_cast; ring
  have hp := norm_nonneg (toComplex z)
  have ht : (0 : ℝ) ≤ tol := by exact_mod_cast h0
  simp only [nearUnit, Bool.and_eq_true, Bool.or_eq_true, Bool.not_eq_true', decide_eq_true_eq,
    ← Bool.not_eq_true, exLt_iff _ _ hn, exLt_iff _ _ (hr _), hre, hc, not_lt, abs_le]
  push_cast
  constructor
  · rintro ⟨h1, h2⟩
    have h3 : ‖toComplex z‖ ≤ 1 + tol := by nlinarith
    refine ⟨?_, by linarith⟩
    rcases h2 with h2 | h2
    · have : (1 : ℝ) < tol := by exact_mod_cast h2
      linarith
    · by_contra hc
      nlinarith
  · rintro ⟨h1, h2⟩
    refine ⟨by nlinarith, ?_⟩
    by_cases h : 1 < tol
    · exact .inl h
    · have : (tol : ℝ) ≤ 1 := by exact_mod_cast not_lt.mp h
      exact .inr (by nlinarith)

theorem tolTbl_nonneg (n : Numerics) : 0 ≤ tolTbl n := by
  have h : (0 : ℚ) ≤ (Config.tolTbl n : ℚ) := (Config.tolTbl n).2
  unfold tolTbl
  split
  · exact le_refl _
  · split
    · split
      · exact h
      · exact le_max_of_le_left h
    · exact h

/-- The plain part of a format is a number with an exact negative. -/
theorem plainPart_exact (k : Nat) : (partNumber (.other k) (Config.plainPart k)).isSome = true ∧
    negExact (.other k) (Config.plainPart k) = true := by
  generalize hf : negPart (.other k) (Config.plainPart k) = f
  have hff : negPart (.other k) f = Config.plainPart k := by rw [← hf, negPart_negPart]
  simp only [negExact, decide_eq_true_eq, hf]
  simp only [partNumber, hf, hff]
  by_cases h : f = Config.plainPart k
  · simp [h]
  · simp only [h, Ne.symm h, if_false]
    rcases lt_or_gt_of_ne (fun e => h (BitVec.eq_of_toNat_eq e) : f.toNat ≠ (Config.plainPart k).toNat) with
      hlt | hlt
    · simp [hlt, Nat.not_lt.mpr hlt.le, pairValue, hff]
    · simp [hlt, Nat.not_lt.mpr hlt.le, pairValue]

theorem plainWord_unitWord (n : Numerics) : plainWord n.fmt (unitWord n) = true := by
  unfold unitWord
  split
  · rename_i h; rw [h]; decide +kernel
  · rename_i k h
    split
    · assumption
    · obtain ⟨h1, h2⟩ := plainPart_exact k
      obtain ⟨x, hx⟩ := Option.isSome_iff_exists.mp h1
      simp [plainWord, sampleValue, h, h2, hx]

theorem abs_realVal (x : RealNum) : |realVal x| ≤ ((realSize x : ℚ) : ℝ) := by
  have h := abs_givenVal x.index
  have hf := abs_nonneg (x.factor : ℝ)
  rw [realVal, realSize]
  refine (abs_add_le _ _).trans ?_
  rw [abs_mul]
  push_cast
  nlinarith

/-- How far the magnitude of a number with given parts can be from 1. -/
theorem norm_exactParts (x y : RealNum) : |‖toComplex (exactParts x y)‖ - 1|
    ≤ ((realSize x * realSize x + realSize y * realSize y + 1 : ℚ) : ℝ) := by
  have hsq : ‖toComplex (exactParts x y)‖ ^ 2 = realVal x * realVal x + realVal y * realVal y := by
    rw [← Complex.normSq_eq_norm_sq, toComplex_exactParts, Complex.normSq_apply]
    simp
  have hx := abs_mul_abs_self (realVal x)
  have hy := abs_mul_abs_self (realVal y)
  have hx' := mul_self_le_mul_self (abs_nonneg _) (abs_realVal x)
  have hy' := mul_self_le_mul_self (abs_nonneg _) (abs_realVal y)
  have hp := norm_nonneg (toComplex (exactParts x y))
  push_cast
  rw [abs_le]
  constructor <;> nlinarith

/-- The unit word has the properties within the instance's TOL_TBL. -/
theorem entryOk_unitWord {n : Numerics} (hn : n.real ≠ .ideal) : entryOk n (unitWord n) = true := by
  have hp := plainWord_unitWord n
  simp only [entryOk, hp, Bool.true_and]
  simp only [plainWord, Bool.and_eq_true, sampleValue] at hp
  cases hI : partNumber n.fmt (partI (unitWord n)) with
  | none => simp [hI] at hp
  | some x =>
    cases hQ : partNumber n.fmt (partQ (unitWord n)) with
    | none => simp [hI, hQ] at hp
    | some y =>
      have hv : sampleValue n.fmt (.word (unitWord n)) = some (exactParts x y) := by simp [sampleValue, hI, hQ]
      have hd : unitDeviation n = realSize x * realSize x + realSize y * realSize y + 1 := by
        simp [unitDeviation, hI, hQ]
      cases hr : n.real with
      | ideal => exact absurd hr hn
      | finite r =>
        simp only [hv, tolTbl, hr]
        split
        · assumption
        · have h0 : (0 : ℚ) ≤ max (Config.tolTbl n : ℚ) (unitDeviation n) :=
            le_max_of_le_left (Config.tolTbl n).2
          rw [nearUnit_iff h0]
          refine (norm_exactParts x y).trans ?_
          rw [hd]
          exact_mod_cast le_max_right _ _

/-- Every finite-precision table entry has P_unit and P_conj (41_chirp_table.md R97). -/
theorem entryOk_tableWord {n : Numerics} (hn : n.real ≠ .ideal) (w : BitVec 64) :
    entryOk n (tableWord n w) = true := by
  unfold tableWord
  split
  · assumption
  · exact entryOk_unitWord hn

/-- An entry that already has the properties is the one the realisation evaluates. -/
theorem tableWord_of_entryOk {n : Numerics} {w : BitVec 64} (h : entryOk n w = true) : tableWord n w = w :=
  if_pos h

/-! ## The input port (00_scope.md R10; log entry 25) -/

@[simp] theorem portSample_twice (n : Numerics) (x : Sample) :
    portSample n (portSample n x) = portSample n x := by
  unfold portSample
  cases n.real <;> rfl

theorem portSample_word (n : Numerics) (w : BitVec 64) : portSample n (.word w) = .word w := by
  unfold portSample
  cases n.real <;> rfl

/-- A product is what the datapath holds: rounding it at a port changes nothing. -/
theorem portSample_cmul (n : Numerics) (a b : Sample) : portSample n (cmul n a b) = cmul n a b := by
  unfold portSample cmul
  cases n.real <;> rfl

end Sys2Proof.Machine
end

