-- ==== Sys2Proof/Laws/Words.lean ====
section
/-! SUPPORT. Exact values and the words that stand for them: a value that some word of the format has is
kept exactly where it becomes a word (30_encoding.md R87). -/

namespace Sys2Proof.Machine

open Polynomial

/-! ## Roots of unity below half a turn are independent over the rationals -/

/-- Every coefficient of `z` is not 0. -/
def NonZero (z : RootSum) : Prop := ∀ t ∈ z, t.2 ≠ 0

theorem nonZero_insertTerm (a : Phase) (c : ℚ) {z : RootSum} (hz : NonZero z) : NonZero (insertTerm a c z) := by
  induction z with
  | nil =>
    unfold insertTerm
    split
    · exact hz
    · simpa [NonZero]
  | cons t z ih =>
    obtain ⟨b, d⟩ := t
    obtain ⟨hd, hz'⟩ := List.forall_mem_cons.mp hz
    unfold insertTerm
    split
    · split
      · exact hz
      · exact List.forall_mem_cons.mpr ⟨by assumption, hz⟩
    · split
      · split
        · exact hz'
        · exact List.forall_mem_cons.mpr ⟨by assumption, hz'⟩
      · exact List.forall_mem_cons.mpr ⟨hd, ih hz'⟩

theorem nonZero_foldr (x : List (Phase × ℚ)) {z : RootSum} (hz : NonZero z) : NonZero (x.foldr addTerm z) := by
  induction x with
  | nil => exact hz
  | cons t x ih =>
    simp only [List.foldr_cons, addTerm]
    split <;> exact nonZero_insertTerm _ _ ih

/-- The sum as a polynomial in `exp(j·2π/65536)`. -/
noncomputable def rootPoly (z : RootSum) : ℚ[X] := (z.map fun t => monomial t.1.toNat t.2).sum

@[simp] theorem rootPoly_cons (t : Phase × ℚ) (z : RootSum) :
    rootPoly (t :: z) = monomial t.1.toNat t.2 + rootPoly z := by simp [rootPoly]

/-- `exp(j·2π/65536)`. -/
noncomputable def unitRoot : ℂ := Complex.exp (2 * Real.pi * Complex.I / (65536 : Nat))

theorem phaseVal_eq_pow (a : Phase) : phaseVal a = unitRoot ^ a.toNat := by
  rw [unitRoot, ← Complex.exp_nat_mul, phaseVal]
  congr 1
  push_cast
  ring

theorem aeval_rootPoly (z : RootSum) : aeval unitRoot (rootPoly z) = rootVal z := by
  induction z with
  | nil => simp [rootPoly]
  | cons t z ih => simp [ih, aeval_monomial, phaseVal_eq_pow]

theorem degree_rootPoly {z : RootSum} (hz : ∀ t ∈ z, t.1.toNat < 32768) : (rootPoly z).degree < (32768 : Nat) := by
  induction z with
  | nil => rw [rootPoly, List.map_nil, List.sum_nil, degree_zero]; exact WithBot.bot_lt_coe _
  | cons t z ih =>
    obtain ⟨ht, hz'⟩ := List.forall_mem_cons.mp hz
    rw [rootPoly_cons]
    refine (degree_add_le _ _).trans_lt (max_lt ?_ (ih hz'))
    exact (degree_monomial_le _ _).trans_lt (by exact_mod_cast ht)

theorem degree_minpoly_unitRoot : (minpoly ℚ unitRoot).degree = (32768 : Nat) := by
  have hp : IsPrimitiveRoot unitRoot 65536 := Complex.isPrimitiveRoot_exp 65536 (by norm_num)
  rw [← cyclotomic_eq_minpoly_rat hp (by norm_num), degree_cyclotomic]
  rw [show 65536 = 2 ^ (15 + 1) by norm_num, Nat.totient_prime_pow_succ Nat.prime_two]
  norm_num

theorem rootPoly_eq_zero {p : ℚ[X]} (hd : p.degree < (32768 : Nat)) (h : aeval unitRoot p = 0) : p = 0 := by
  by_contra hp
  have h1 := minpoly.degree_le_of_ne_zero ℚ unitRoot hp h
  rw [degree_minpoly_unitRoot] at h1
  exact absurd h1 (not_le.mpr hd)

theorem coeff_rootPoly {z : RootSum} (hz : z.Pairwise (fun t u => t.1.toNat < u.1.toNat)) (a : Phase) :
    (rootPoly z).coeff a.toNat = coefAt a z := by
  induction z with
  | nil => simp [rootPoly, coefAt]
  | cons t z ih =>
    obtain ⟨ht, hz'⟩ := List.pairwise_cons.mp hz
    rw [rootPoly_cons, coeff_add, ih hz', coeff_monomial, coefAt]
    by_cases h : t.1 = a
    · subst h
      have : coefAt t.1 z = 0 := by
        clear ih hz hz'
        induction z with
        | nil => rfl
        | cons u z ih =>
          have hu := ht u List.mem_cons_self
          rw [coefAt, if_neg (fun e => by rw [e] at hu; exact lt_irrefl _ hu)]
          exact ih fun v hv => ht v (List.mem_cons_of_mem _ hv)
      simp [this]
    · have : t.1.toNat ≠ a.toNat := fun e => h (BitVec.eq_of_toNat_eq e)
      simp [h, this]

/-- A canonical sum of roots that stands for 0 has no term. -/
theorem eq_nil_of_rootVal_eq_zero {z : RootSum} (hr : Rising z) (hn : NonZero z) (h : rootVal z = 0) : z = [] := by
  have hp := rootPoly_eq_zero (degree_rootPoly hr.2) (by rw [aeval_rootPoly, h])
  cases z with
  | nil => rfl
  | cons t z =>
    have hc := coeff_rootPoly hr.1 t.1
    rw [hp, coeff_zero, coefAt, if_pos rfl] at hc
    exact absurd hc.symm (hn t List.mem_cons_self)

/-- The rational parts are found wherever there are any. -/
theorem rationalParts_eq_some {z : RootSum} (hr : Rising z) (hn : NonZero z) (x y : ℚ)
    (h : rootVal z = x + y * Complex.I) : rationalParts z = some (x, y) := by
  have hd : (rootPoly z - (monomial 0 x + monomial 16384 y)).degree < (32768 : Nat) := by
    refine (degree_sub_le _ _).trans_lt (max_lt (degree_rootPoly hr.2) ?_)
    refine (degree_add_le _ _).trans_lt (max_lt ?_ ?_)
    · exact (degree_monomial_le _ _).trans_lt (by norm_num)
    · exact (degree_monomial_le _ _).trans_lt (by norm_num)
  have hq : unitRoot ^ 16384 = Complex.I := by
    rw [← phaseVal_quarter, phaseVal_eq_pow]; rfl
  have h0 := rootPoly_eq_zero hd (by
    rw [map_sub, map_add, aeval_rootPoly, h, aeval_monomial, aeval_monomial, hq]; simp)
  have hp : rootPoly z = monomial 0 x + monomial 16384 y := sub_eq_zero.mp h0
  have hx : coefAt 0#16 z = x := by
    rw [← coeff_rootPoly hr.1, hp]; simp [coeff_monomial]
  have hy : coefAt 16384#16 z = y := by
    rw [← coeff_rootPoly hr.1, hp]; simp
  have hnil : rootSub z (ofParts x y) = [] :=
    eq_nil_of_rootVal_eq_zero (rising_rootSub _ hr) (nonZero_foldr _ hn) (by simp [h])
  simp only [rationalParts, hx, hy, hnil, if_true]

/-- Rational parts that are found are the number's. -/
theorem rootVal_of_rationalParts {z : RootSum} {x y : ℚ} (h : rationalParts z = some (x, y)) :
    rootVal z = x + y * Complex.I := by
  simp only [rationalParts] at h
  split at h
  · rename_i hnil
    have h0 : rootVal (rootSub z (ofParts (coefAt 0#16 z) (coefAt 16384#16 z))) = 0 := by rw [hnil]; rfl
    simp only [Option.some.injEq, Prod.mk.injEq] at h
    rw [h.1, h.2, rootVal_rootSub, rootVal_ofParts, sub_eq_zero] at h0
    exact h0
  · cases h

/-! ## Patterns of binary32 -/

theorem binary32Value_of_part {x : ℚ} {v : BitVec 32} (h : binary32Part x = some v) :
    binary32Value v = some x := by
  unfold binary32Part at h
  split at h
  · rename_i hv; cases h; exact hv
  · cases h

theorem scaled_eq (neg : Bool) (m e : Nat) :
    scaled neg m e = (if neg then -1 else 1) * (((m * 2 ^ e : Nat) : ℚ) / ((2 ^ 149 : Nat) : ℚ)) := by
  unfold scaled
  rw [Rat.mkRat_eq_div]
  cases neg
  · simp
  · simp [neg_div]

theorem pattern_bit (a : BitVec 1) (b : BitVec 8) (c : BitVec 23) (i : Nat) :
    (a ++ b ++ c : BitVec 32).getLsbD i
      = if i < 23 then c.getLsbD i else if i < 31 then b.getLsbD (i - 23) else a.getLsbD (i - 31) := by
  refine (BitVec.getLsbD_append (x := a ++ b) (y := c)).trans ?_
  by_cases h : i < 23
  · simp [h]
  · simp only [h, if_false, BitVec.getLsbD_append]
    by_cases h3 : i < 31
    · simp [h3, show i - 23 < 8 by omega]
    · simp [h3, show ¬i - 23 < 8 by omega, show i - 23 - 8 = i - 31 by omega]

/-- What the fields of a pattern stand for. -/
theorem binary32Value_fields (neg : Bool) {e f : Nat} (he : e < 255) (hf : f < 2 ^ 23) :
    binary32Value (BitVec.ofBool neg ++ BitVec.ofNat 8 e ++ BitVec.ofNat 23 f)
      = some (if e = 0 then scaled neg f 0 else scaled neg (2 ^ 23 + f) (e - 1)) := by
  generalize hp : (BitVec.ofBool neg ++ BitVec.ofNat 8 e ++ BitVec.ofNat 23 f : BitVec 32) = p
  have hbit := pattern_bit (BitVec.ofBool neg) (BitVec.ofNat 8 e) (BitVec.ofNat 23 f)
  rw [hp] at hbit
  have h1 : (p.extractLsb' 23 8).toNat = e := by
    have : p.extractLsb' 23 8 = BitVec.ofNat 8 e := by
      apply BitVec.eq_of_getLsbD_eq
      intro i hi
      rw [BitVec.getLsbD_extractLsb', hbit]
      simp [hi, show 23 + i < 31 by omega]
    rw [this, BitVec.toNat_ofNat, Nat.mod_eq_of_lt (by omega)]
  have h2 : (p.extractLsb' 0 23).toNat = f := by
    have : p.extractLsb' 0 23 = BitVec.ofNat 23 f := by
      apply BitVec.eq_of_getLsbD_eq
      intro i hi
      rw [BitVec.getLsbD_extractLsb', hbit]
      simp [hi]
    rw [this, BitVec.toNat_ofNat, Nat.mod_eq_of_lt hf]
  have h3 : p.getLsbD 31 = neg := by
    rw [hbit]
    cases neg <;> rfl
  have h4 : ¬e = 255 := by omega
  simp only [binary32Value, h1, h2, h3, h4, if_false]
  split <;> rfl

/-- A number that some pattern stands for is a signed multiple of `2^-149` with 24 significant bits. -/
theorem binary32Value_eq_some {x : ℚ} {v : BitVec 32} (h : binary32Value v = some x) :
    ∃ (neg : Bool) (e f : Nat), e < 255 ∧ f < 2 ^ 23 ∧
      x = if e = 0 then scaled neg f 0 else scaled neg (2 ^ 23 + f) (e - 1) := by
  have he := (v.extractLsb' 23 8).isLt
  have hf := (v.extractLsb' 0 23).isLt
  refine ⟨v.getLsbD 31, (v.extractLsb' 23 8).toNat, (v.extractLsb' 0 23).toNat, ?_, hf, ?_⟩
  · by_contra hc
    have : (v.extractLsb' 23 8).toNat = 255 := by omega
    simp [binary32Value, this] at h
  · simp only [binary32Value] at h
    split at h
    · cases h
    · split at h
      · rename_i h0
        rw [if_pos h0]; exact (Option.some.inj h).symm
      · rename_i h0
        rw [if_neg h0]; exact (Option.some.inj h).symm

/-- The magnitude of `±m/2^149` in units of `2^-149`. -/
theorem magnitude_eq (neg : Bool) (m : Nat) {x : ℚ}
    (h : x = (if neg then -1 else 1) * ((m : ℚ) / ((2 ^ 149 : Nat) : ℚ))) :
    x.num.natAbs * 2 ^ 149 / x.den = m ∧ (m ≠ 0 → decide (x < 0) = neg) := by
  have habs : |x| = (m : ℚ) / ((2 ^ 149 : Nat) : ℚ) := by
    rw [h, abs_mul]
    have h0 : (0 : ℚ) ≤ (m : ℚ) / ((2 ^ 149 : Nat) : ℚ) := by positivity
    rw [abs_of_nonneg h0]
    cases neg <;> simp
  have hx : |x| * x.den = x.num.natAbs := by
    have hd : (0 : ℚ) < x.den := by exact_mod_cast x.den_pos
    rw [← abs_of_pos hd, ← abs_mul, Rat.mul_den_eq_num, Nat.cast_natAbs, Int.cast_abs]
  constructor
  · apply Nat.div_eq_of_eq_mul_left x.den_pos
    have h2 : ((2 ^ 149 : Nat) : ℚ) ≠ 0 := by positivity
    rw [habs] at hx
    have : (m : ℚ) * x.den = x.num.natAbs * ((2 ^ 149 : Nat) : ℚ) := by
      rw [← hx]; field_simp
    exact_mod_cast this.symm
  · intro hm
    have hpos : (0 : ℚ) < (m : ℚ) / ((2 ^ 149 : Nat) : ℚ) := by positivity
    cases neg
    · simp only [Bool.false_eq_true, if_false, one_mul] at h
      rw [decide_eq_false_iff_not, not_lt, h]; exact hpos.le
    · simp only [if_true] at h
      rw [decide_eq_true_eq, h]; linarith

/-- A number that some binary32 pattern stands for has its pattern. -/
theorem binary32Part_isSome {x : ℚ} {v : BitVec 32} (h : binary32Value v = some x) :
    (binary32Part x).isSome = true := by
  suffices hv : binary32Value (binary32Pattern x) = some x by simp [binary32Part, hv]
  obtain ⟨neg, e, f, he, hf, hx⟩ := binary32Value_eq_some h
  by_cases h0 : e = 0
  · subst h0
    rw [if_pos rfl, scaled_eq, pow_zero, mul_one] at hx
    obtain ⟨hm, hs⟩ := magnitude_eq neg f hx
    rw [binary32Pattern]
    simp only [hm, hf, if_true]
    rw [binary32Value_fields _ (by norm_num) hf, if_pos rfl, scaled_eq, pow_zero, mul_one, hx]
    by_cases hf0 : f = 0
    · simp [hf0]
    · rw [← hx, hs hf0]; simp [hx]
  · rw [if_neg h0, scaled_eq] at hx
    obtain ⟨hm, hs⟩ := magnitude_eq neg _ hx
    have h1 := Nat.one_le_two_pow (n := e - 1)
    have hge : ¬(2 ^ 23 + f) * 2 ^ (e - 1) < 2 ^ 23 := by nlinarith
    have hlog : ((2 ^ 23 + f) * 2 ^ (e - 1)).log2 = e + 22 := by
      rw [Nat.log2_eq_iff (by positivity), show e + 22 = 23 + (e - 1) by omega,
        show 23 + (e - 1) + 1 = 24 + (e - 1) by omega, pow_add, pow_add 2 24]
      constructor
      · exact Nat.mul_le_mul_right _ (by omega)
      · exact Nat.mul_lt_mul_of_pos_right (by omega) (by omega)
    rw [binary32Pattern]
    simp only [hm, hge, if_false, hlog, show e + 22 - 22 = e by omega, show e + 22 - 23 = e - 1 by omega,
      Nat.mul_div_cancel _ (Nat.two_pow_pos (e - 1)), Nat.add_sub_cancel_left]
    rw [binary32Value_fields _ he hf, if_neg h0, scaled_eq, hs (by positivity), hx]

/-! ## Words -/

/-- A word stands for a complex number. -/
def WordIs (fmt : SampleFmt) (w : BitVec 64) (c : ℂ) : Prop :=
  ∃ x, sampleValue fmt (.word w) = some x ∧ toComplex x = c

theorem wordHasValue_iff (fmt : SampleFmt) (z : ExactNum) (w : BitVec 64) :
    wordHasValue fmt z w = true ↔ WordIs fmt w (toComplex z) := by
  unfold wordHasValue WordIs
  cases h : sampleValue fmt (.word w) with
  | none => simp
  | some x => simp [exEq_iff]

theorem firstWord_spec (f : BitVec 64 → Bool) (n k : Nat) :
    (∀ w, firstWord f n k = some w → f w = true) ∧
    (∀ i < n, f (BitVec.ofNat 64 (k + i)) = true → (firstWord f n k).isSome = true) := by
  induction n generalizing k with
  | zero => simp [firstWord]
  | succ n ih =>
    obtain ⟨h1, h2⟩ := ih (k + 1)
    unfold firstWord
    split
    · rename_i h
      exact ⟨fun w hw => by cases hw; exact h, fun _ _ _ => rfl⟩
    · rename_i h
      refine ⟨h1, fun i hi hf => ?_⟩
      cases i with
      | zero => exact absurd hf h
      | succ i => exact h2 i (by omega) (by rwa [show k + 1 + i = k + (i + 1) by omega])

/-- A search of all words finds one wherever there is one. -/
theorem firstWord_all (f : BitVec 64 → Bool) :
    (∀ w, firstWord f (2 ^ 64) 0 = some w → f w = true) ∧
    (∀ w, f w = true → (firstWord f (2 ^ 64) 0).isSome = true) := by
  obtain ⟨h1, h2⟩ := firstWord_spec f (2 ^ 64) 0
  refine ⟨h1, fun w hw => h2 w.toNat w.isLt ?_⟩
  rwa [Nat.zero_add, BitVec.ofNat_toNat, BitVec.setWidth_eq]

theorem toComplex_of_not_hasGiven {z : ExactNum} (h : hasGiven z = false) :
    toComplex z = rootVal (constantPart z) := by
  induction z with
  | nil => rfl
  | cons t z ih =>
    simp only [hasGiven, List.any_cons, Bool.or_eq_false_iff, bne_eq_false_iff_eq] at h ih
    simp [h.1, constantPart, ih h.2]

theorem nonZero_constantPart (z : ExactNum) : NonZero (constantPart z) := by
  induction z with
  | nil => simp [constantPart, NonZero]
  | cons t z ih =>
    simp only [constantPart, List.foldr_cons] at ih ⊢
    split
    · exact nonZero_foldr _ ih
    · exact ih

/-- The value of a binary32 word. -/
theorem wordIs_binary32 (w : BitVec 64) (c : ℂ) : WordIs .binary32 w c ↔
    ∃ x y : ℚ, binary32Value (partI w) = some x ∧ binary32Value (partQ w) = some y ∧
      c = x + y * Complex.I := by
  simp only [WordIs, sampleValue, partNumber]
  cases hI : binary32Value (partI w) with
  | none => simp
  | some x =>
    cases hQ : binary32Value (partQ w) with
    | none => simp
    | some y => simp [eq_comm]

/-- `exactWord` answers a word of the value. -/
theorem exactWord_hasValue {n : Numerics} {z : ExactNum} {w : BitVec 64} (h : exactWord n z = some w) :
    WordIs n.fmt w (toComplex z) := by
  unfold exactWord at h
  split at h
  · rename_i hf hg
    split at h
    · rename_i x y hxy
      split at h
      · rename_i i q hi hq
        cases h
        rw [hf, wordIs_binary32, partI_sampleWord, partQ_sampleWord, toComplex_of_not_hasGiven hg]
        exact ⟨x, y, binary32Value_of_part hi, binary32Value_of_part hq, rootVal_of_rationalParts hxy⟩
      · cases h
    · cases h
  · rename_i hf _
    rw [hf, ← wordHasValue_iff]
    exact (firstWord_all _).1 w h
  · rename_i k hf
    rw [hf, ← wordHasValue_iff]
    split at h
    · cases h; assumption
    · exact (firstWord_all _).1 w h

/-- `exactWord` answers wherever some word has the value. -/
theorem exactWord_isSome {n : Numerics} {z : ExactNum} {w : BitVec 64} (h : WordIs n.fmt w (toComplex z)) :
    (exactWord n z).isSome = true := by
  unfold exactWord
  split
  · rename_i hf hg
    rw [hf, wordIs_binary32, toComplex_of_not_hasGiven hg] at h
    obtain ⟨x, y, hx, hy, hv⟩ := h
    rw [rationalParts_eq_some (rising_constantPart z) (nonZero_constantPart z) x y hv]
    obtain ⟨i, hi⟩ := Option.isSome_iff_exists.mp (binary32Part_isSome hx)
    obtain ⟨q, hq⟩ := Option.isSome_iff_exists.mp (binary32Part_isSome hy)
    simp [hi, hq]
  · rename_i hf _
    rw [hf, ← wordHasValue_iff] at h
    exact (firstWord_all _).2 w h
  · rename_i k hf
    rw [hf, ← wordHasValue_iff] at h
    split
    · rfl
    · exact (firstWord_all _).2 w h

/-- A value that some word of the format has becomes a word of that value (30_encoding.md R87). -/
theorem toWord_keepsValue {n : Numerics} {z : ExactNum} {w : BitVec 64} (h : WordIs n.fmt w (toComplex z)) :
    WordIs n.fmt (toWord n (.exact z)) (toComplex z) := by
  obtain ⟨v, hv⟩ := Option.isSome_iff_exists.mp (exactWord_isSome h)
  rw [toWord, hv]
  exact exactWord_hasValue hv

end Sys2Proof.Machine
end

