-- ==== Sys2Proof/Tests/Slice0.lean ====
section
/-! SUPPORT. Tests on one step or one operation each, their expected values from spec/95_test_vectors.md and
the examples of the rules, and a witness for every obligation that has hypotheses. -/

namespace Sys2Proof.Tests

-- One theorem at a time: many kernel evaluations waiting at once would each hold a thread.
set_option Elab.async false

open Sys2Proof Sys2Proof.Machine

/-! ## Small instances and states -/

/-- SF = 2, N = 4, MTU_MAX = 3, ideal. -/
def p2 : Params := ⟨2, 3, ⟨.binary32, .ideal⟩, by decide, by decide, by decide, by decide⟩

/-- SF = 2 in finite precision. -/
def p2f : Params := ⟨2, 3, ⟨.binary32, .finite 0⟩, by decide, by decide, by decide, by decide⟩

/-- SF = 3, ideal. -/
def p3 : Params := ⟨3, 3, ⟨.binary32, .ideal⟩, by decide, by decide, by decide, by decide⟩

/-- The samples `x + j·y` listed. -/
def xs (l : List (Int × Int)) : List Sample := l.map fun t => exactSample t.1 t.2

def up0 : List Sample := xs [(-1, 0), (0, 1), (0, 1), (-1, 0)]
def dn : List Sample := xs [(-1, 0), (0, -1), (0, -1), (-1, 0)]
def up3 : List Sample := xs [(-1, 0), (1, 0), (0, -1), (0, -1)]
def ones : List Sample := xs [(1, 0), (1, 0), (1, 0), (1, 0)]

/-- An active core in state `q` with `input` ahead of it, both mirrors on and all sinks ready. -/
def at_ (q : SeqState) (input : List Sample) : State :=
  { State.construct p2 with
    seq := q.code, active := true, mtu := 2#16, mtuL := if q = .framesync then 0#16 else 2#16,
    bufAlloc := bufferState q.code, input := input, rawEn := true, decEn := true,
    rawFree := 8, decFree := 8, frameReady := true }

/-- A component of a next state. -/
def get {α : Type} (f : State → α) : Result → Option α
  | .next s => some (f s)
  | .fault _ => none
  | .refused _ => none

/-- The state after a step that goes on; the state before it, where it stops. -/
def after (s : State) : Result → State
  | .next t => t
  | .fault _ => s
  | .refused _ => s

theorem next_after {s : State} {r : Result} (h : (get (fun _ => ()) r).isSome = true) :
    r = .next (after s r) := by
  cases r with
  | next t => rfl
  | fault e => cases h
  | refused e => cases h

theorem guard_of {q : SeqState} {s : State} (h : stepGuard q s = true) : Guard q s :=
  (stepGuard_iff q s).mp h

theorem noGuard_of {q : SeqState} {s : State} (h : stepGuard q s = false) : ¬Guard q s := by
  rw [← stepGuard_iff, h]; exact Bool.false_ne_true

/-! ## WellFormed: an ill-formed term for each check -/

theorem test_wf_alloc_empty : (Instr.alloc 0#16).wellFormed = false := by decide
theorem test_wf_emit_empty : (Instr.emit 0#16).wellFormed = false := by decide
theorem test_wf_feed_unsorted :
    (Instr.feed 0#16 (.exact [([], [(5#16, 1), (3#16, 1)])])).wellFormed = false := by decide +kernel
theorem test_wf_feed_zero_coefficient :
    (Instr.feed 0#16 (.exact [([], [(5#16, 0)])])).wellFormed = false := by decide +kernel
theorem test_wf_feed_half_turn :
    (Instr.feed 0#16 (.exact [([], [(32768#16, 1)])])).wellFormed = false := by decide +kernel
theorem test_wf_feed_monomials :
    (Instr.feed 0#16 (.exact [([2, 1], [(5#16, 1)])])).wellFormed = false
    ∧ (Instr.feed 0#16 (.exact [([1], [(5#16, 1)]), ([0, 1], [(5#16, 1)])])).wellFormed = false
    ∧ (Instr.feed 0#16 (.exact [([1], [])])).wellFormed = false
    ∧ (Instr.feed 0#16 (.exact [([], [(5#16, 1)]), ([0, 1], [(5#16, 1)]), ([1], [(5#16, 1)])])).wellFormed = true := by
  decide +kernel
theorem test_wf_accepts : (Instr.feed 3#16 (exactSample 1 (-2))).wellFormed = true
    ∧ (Instr.alloc 2#16).wellFormed = true ∧ (Instr.wrMtu 0#32).wellFormed = true := by decide +kernel
theorem test_fits_feed_slot : (Instr.feed 4#16 (exactSample 1 0)).fits p2 = false
    ∧ (Instr.feed 3#16 (exactSample 1 0)).fits p2 = true := by decide
theorem test_fits_append : (Instr.append 3#16 0#16).fits p2 = false
    ∧ (Instr.append 2#16 4#16).fits p2 = false ∧ (Instr.append 2#16 3#16).fits p2 = true := by decide
theorem test_fits_buffer : (Instr.alloc 4#16).fits p2 = false ∧ (Instr.emit 4#16).fits p2 = false
    ∧ (Instr.alloc 3#16).fits p2 = true := by decide
/-- 00_scope.md R7, R9: the bounds of the parameters. -/
theorem test_elaborate :
    Params.elaborate 1 1 p2.num = none ∧ Params.elaborate 17 1 p2.num = none
    ∧ Params.elaborate 2 0 p2.num = none ∧ Params.elaborate 2 65536 p2.num = none
    ∧ (Params.elaborate 2 1 p2.num).isSome ∧ (Params.elaborate 16 65535 p2f.num).isSome := by decide

/-! ## Decoding: the words of 30_encoding.md R80 and 95_test_vectors.md, written out -/

theorem test_decode_reads :
    decode (.hcw 0x0000_0200_0000_0000#64) = .ok (.rdId 0#32)
    ∧ decode (.hcw 0x0000_0204_0000_0000#64) = .ok (.rdCtrl 0#32)
    ∧ decode (.hcw 0x0000_0208_0000_0000#64) = .ok (.rdStatus 0#32)
    ∧ decode (.hcw 0x0000_020C_0000_0000#64) = .ok (.rdSyncword 0#32)
    ∧ decode (.hcw 0x0000_0210_0000_0000#64) = .ok (.rdMtu 0#32)
    ∧ decode (.hcw 0x0000_0214_0000_0000#64) = .ok (.rdMtuLatched 0#32)
    ∧ decode (.hcw 0x0000_0218_0000_0000#64) = .ok (.rdSymcount 0#32)
    ∧ decode (.hcw 0x0000_021C_0000_0000#64) = .ok (.rdPrevValue 0#32)
    ∧ decode (.hcw 0x0000_0220_0000_0000#64) = .ok (.rdMtuMax 0#32) := by decide

theorem test_decode_writes :
    decode (.hcw 0x8000_0200_0000_0009#64) = .ok (.wrId 9#32)
    ∧ decode (.hcw 0x8000_0204_0000_0007#64) = .ok (.wrCtrl 7#32)
    ∧ decode (.hcw 0x8000_0208_0000_0100#64) = .ok (.wrStatus 0x100#32)
    ∧ decode (.hcw 0x8000_020C_0000_0012#64) = .ok (.wrSyncword 0x12#32)
    ∧ decode (.hcw 0x8000_0210_0001_0002#64) = .ok (.wrMtu 0x10002#32)
    ∧ decode (.hcw 0x8000_0214_0000_0001#64) = .ok (.wrMtuLatched 1#32)
    ∧ decode (.hcw 0x8000_0218_0000_0001#64) = .ok (.wrSymcount 1#32)
    ∧ decode (.hcw 0x8000_021C_0000_0001#64) = .ok (.wrPrevValue 1#32)
    ∧ decode (.hcw 0x8000_0220_FFFF_FFFF#64) = .ok (.wrMtuMax 0xFFFFFFFF#32) := by decide

theorem test_decode_steps :
    decode (.step 0b000#3) = .ok .stepFramesync ∧ decode (.step 0b001#3) = .ok .stepDownchirp0
    ∧ decode (.step 0b010#3) = .ok .stepDownchirp1 ∧ decode (.step 0b011#3) = .ok .stepQuarterchirp
    ∧ decode (.step 0b100#3) = .ok .stepDatasymbols ∧ decode (.step 0b101#3) = .reject .illegalState
    ∧ decode (.step 0b110#3) = .reject .illegalState ∧ decode (.step 0b111#3) = .reject .illegalState := by
  decide

/-- Rows 5, 9, 12, 13 and 14 of 95_test_vectors.md §2.8, and the first word-aligned unmapped address's
last one (30_encoding.md R89). -/
theorem test_decode_refused :
    decode (.hcw 0x0000_0224_0000_0000#64) = .reject .busDecode
    ∧ decode (.hcw 0x8000_0010_0000_0005#64) = .reject .busAlign
    ∧ decode (.hcw 0x0000_0106_0000_0000#64) = .reject .busAlign
    ∧ decode (.hcw 0x0000_0602_0000_0000#64) = .reject .busAlign
    ∧ decode (.hcw 0x0000_0600_0000_0000#64) = .reject .busDecode
    ∧ decode (.hcw 0x0000_02FC_0000_0000#64) = .reject .busDecode
    ∧ decode (.hcw 0x4000_0200_0000_0000#64) = .reject .busDecode
    ∧ decode (.hcw 0x0000_0300_0000_0000#64) = .reject .busAlign := by decide

theorem test_table_numbers :
    decodeTableWord 64 0x80000210_00000002 = some (.wrMtu 2#32)
    ∧ decodeTableWord 8 3 = some .stepQuarterchirp ∧ decodeTableWord 8 5 = none := by decide

/-- The expansions of 30_encoding.md R91, as the programs of 95_test_vectors.md §3 encode them. -/
theorem test_assembler :
    lineWord (.setmtu 2#16) = 0x8000_0210_0000_0002#64
    ∧ lineWord (.setsync 0x12#8) = 0x8000_020C_0000_0012#64
    ∧ lineWord (.activate false false) = 0x8000_0204_0000_0001#64
    ∧ lineWord (.activate true false) = 0x8000_0204_0000_0003#64
    ∧ lineWord (.activate false true) = 0x8000_0204_0000_0005#64
    ∧ lineWord (.activate true true) = 0x8000_0204_0000_0007#64
    ∧ lineWord (.mirrors true false) = 0x8000_0204_0000_0002#64
    ∧ lineWord .clrerr = 0x8000_0208_0000_0100#64
    ∧ lineWord (.rd .prevValue) = 0x0000_021C_0000_0000#64
    ∧ lineWord (.wr .id 9#32) = 0x8000_0200_0000_0009#64 := by decide

theorem test_stream_directives :
    streamSamples p2 (.up 0) = up0 ∧ streamSamples p2 (.up 3) = up3 ∧ streamSamples p2 .down = dn
    ∧ streamSamples p2 .qdown = xs [(-1, 0)] ∧ streamSamples p2 (.zero 2) = xs [(0, 0), (0, 0)] := by
  decide +kernel

/-- 30_encoding.md R84. -/
theorem test_labels : (labelCode .blank, labelText .blank) = (0#3, "")
    ∧ (labelCode .sync, labelText .sync) = (1#3, "SYNC") ∧ (labelCode .dc, labelText .dc) = (2#3, "DC")
    ∧ (labelCode .qc, labelText .qc) = (3#3, "QC") ∧ (labelCode .s, labelText .s) = (4#3, "S")
    ∧ (labelCode .x, labelText .x) = (5#3, "X") := by decide

/-- Transport bytes, least significant first (20_memory.md R55-R57); 1 + 0j is 0x0000_0000_3F80_0000
(30_encoding.md R87). -/
theorem test_bytes : registerBytes 0x00100110#32 = [0x10#8, 0x01#8, 0x10#8, 0x00#8]
    ∧ sampleBytes 0x0000_0000_3F80_0000#64 = [0#8, 0#8, 0x80#8, 0x3F#8, 0#8, 0#8, 0#8, 0#8]
    ∧ frameBytes ⟨2, [0x0005#16, 0x0164#16]⟩ = [5#8, 0#8, 0x64#8, 1#8] := by decide

/-- 1 + 0j and 0 + 1j in binary32 (30_encoding.md R87). -/
theorem test_sample_values :
    sampleValue .binary32 (.word 0x0000_0000_3F80_0000#64) = some (ofRoot (ofParts 1 0))
    ∧ sampleValue .binary32 (.word 0x3F80_0000_0000_0000#64) = some (ofRoot (ofParts 0 1))
    ∧ sampleValue .binary32 (.word 0x0000_0000_7F80_0000#64) = none := by decide +kernel

/-- A part that no binary fraction is; and `(ρ₀ + j)·ρ₁`, which no sum of roots of unity need be. -/
theorem test_exact_numbers : (Sample.exact (ofRoot (ofParts (1 / 3) (-1 / 3)))).canonical = true
    ∧ exMul (ofRat (1 / 3)) (ofRat 3) = ofRat 1
    ∧ exMul (exactParts ⟨0, 1, 0⟩ (.ofRat 1)) (exactParts ⟨0, 1, 1⟩ (.ofRat 0))
      = [([0, 1], [(0#16, 1)]), ([1], [(16384#16, 1)])] := by decide +kernel

/-- A finite-precision instance's port carries words: 1 + 0j and 0 + 1j enter as the words of 30_encoding.md
R87, 0 + 0j as the word 0, and a word passes. -/
theorem test_port_words :
    (supplyInput [exactSample 1 0, exactSample 0 1, exactSample 0 0, .word 5#64] (State.construct p2f)).input
      = [.word 0x0000_0000_3F80_0000#64, .word 0x3F80_0000_0000_0000#64, .word 0#64, .word 5#64] := by
  decide +kernel

/-- The least and the greatest binary32 number have their words; a value that none has is rounded, openly. -/
theorem test_binary32_parts : binary32Part (1 / 2 ^ 149) = some 1#32
    ∧ binary32Part (-(2 ^ 24 - 1) * 2 ^ 104) = some 0xFF7F_FFFF#32
    ∧ binary32Part (1 / 3) = none ∧ binary32Part (2 ^ 128) = none
    ∧ exactWord p2f.num (ofRoot (ofParts (1 / 3) 0)) = none
    ∧ exactWord p2f.num (ofRoot (rootOf 8192#16)) = none := by decide +kernel

/-- `RUN` (30_encoding.md R92) on two up-chirps at SF = 2: one full sync, then no step is enabled. -/
theorem test_run :
    get (fun t => (t.seq, t.consumed, t.input)) (runProgram [.stream (.up 0), .stream (.up 0), .stream .run]
      { State.construct p2 with active := true, mtu := 1#16 }) = some (1#3, 8, []) := by decide +kernel

/-- A conjugate of binary32 differs in the sign bit of Q (41_chirp_table.md R96): DOWN[1] of
95_test_vectors.md §2.1. -/
theorem test_conj_binary32 : sampleConj .binary32 (.word 0x3F80_0000_0000_0000#64)
    = .word 0xBF80_0000_0000_0000#64 := by decide

/-! ## Host commands, one step each (the examples of 45_host_interface.md and 95_test_vectors.md §2.8) -/

def r7 : State := State.reset

theorem test_rdId : get State.responses (exec (.rdId 0#32) (State.construct p3)) = some [3#32] := by decide +kernel
theorem test_rdCtrl :
    get State.responses (exec (.rdCtrl 0#32) { State.construct p2 with rawEn := true, decEn := true })
      = some [6#32] := by decide +kernel
theorem test_rdStatus_active :
    get State.responses (exec (.rdStatus 0#32) { State.construct p2 with active := true, seq := 4#3 })
      = some [0x9#32] := by decide +kernel
theorem test_rdStatus_error :
    get State.responses (exec (.rdStatus 0#32)
        { State.construct p2 with err := true, errCause := 1#4, errAddr := 0x10#8 })
      = some [0x0010_0110#32] := by decide +kernel
theorem test_rdSyncword :
    get State.responses (exec (.rdSyncword 0#32) { State.construct p2 with syncword := 0x12#8 })
      = some [0x12#32] := by decide +kernel
theorem test_rdMtu :
    get State.responses (exec (.rdMtu 0#32) { State.construct p2 with mtu := 2#16 }) = some [2#32] := by
  decide +kernel
theorem test_rdMtuLatched :
    get State.responses (exec (.rdMtuLatched 0#32) { State.construct p2 with mtuL := 2#16, mtu := 3#16 })
      = some [2#32] := by decide +kernel
theorem test_rdSymcount :
    get State.responses (exec (.rdSymcount 0#32) { State.construct p2 with symcount := 2#16 })
      = some [2#32] := by decide +kernel
theorem test_rdPrevValue :
    get State.responses (exec (.rdPrevValue 0#32) { State.construct p2 with prev := 0x64#16 })
      = some [0x64#32] := by decide +kernel
theorem test_rdMtuMax : get State.responses (exec (.rdMtuMax 0#32) (State.construct p2)) = some [3#32] := by
  decide +kernel

/-- Row 2: refused while MTU = 0, but the enables are written. -/
theorem test_wrCtrl_refused :
    get (fun t => (statusImage t, t.rawEn, t.decEn)) (exec (.wrCtrl 3#32) (State.construct p2))
      = some (0x0004_0120#32, true, false) := by decide +kernel
/-- Program 4: re-activation in DATASYMBOLS. -/
theorem test_wrCtrl_reactivates :
    get (fun t => (statusImage t, t.prev, t.symcount, t.mtuL, t.bufAlloc))
        (exec (.wrCtrl 1#32) { at_ .datasymbols [] with symcount := 1#16, prev := 3#16, buf := [(0, 5#16)] })
      = some (1#32, 0#16, 0#16, 0#16, false) := by decide +kernel
/-- The example of 45_host_interface.md R161. -/
theorem test_wrStatus :
    get statusImage (exec (.wrStatus 0x100#32)
        { State.construct p2 with err := true, errCause := 1#4, errAddr := 0x10#8 })
      = some 0#32 := by decide +kernel
theorem test_wrStatus_other_bits :
    get statusImage (exec (.wrStatus 0xFFFFFEFF#32)
        { State.construct p2 with err := true, errCause := 1#4, errAddr := 0x10#8 })
      = some 0x0010_0110#32 := by decide +kernel
theorem test_wrSyncword :
    get State.syncword (exec (.wrSyncword 0xFFFFFF12#32) (State.construct p2)) = some 0x12#8 := by
  decide +kernel
/-- Row 7: the upper half is ignored. -/
theorem test_wrMtu :
    get State.mtu (exec (.wrMtu 0x10002#32) (State.construct p2)) = some 2#16 := by decide +kernel
theorem test_wrMtu_refused :
    get (fun t => (t.mtu, statusImage t)) (exec (.wrMtu 4#32) { State.construct p2 with mtu := 2#16 })
      = some (2#16, 0x0010_0110#32) := by decide +kernel
theorem test_wrId : exec (.wrId 9#32) r7 = .next r7 := rfl
theorem test_wrMtuLatched : exec (.wrMtuLatched 9#32) r7 = .next r7 := rfl
theorem test_wrSymcount : exec (.wrSymcount 9#32) r7 = .next r7 := rfl
theorem test_wrPrevValue : exec (.wrPrevValue 9#32) r7 = .next r7 := rfl
theorem test_wrMtuMax : exec (.wrMtuMax 9#32) r7 = .next r7 := rfl

/-- Rows 5 and 9: a refused read returns 0, a refused write nothing; both record their cause. -/
theorem test_refused_access :
    get (fun t => (statusImage t, t.responses))
        (step { State.construct p2 with agenda := [.host 0x0000_0224_0000_0000#64] })
      = some (0x0024_0130#32, [0#32])
    ∧ get (fun t => (statusImage t, t.responses))
        (step { State.construct p2 with agenda := [.host 0x8000_0010_0000_0005#64] })
      = some (0x0010_0140#32, []) := by decide +kernel

/-! ## Steps: Program 7 of 95_test_vectors.md (SF = 2) -/

/-- At pos 0: full sync, value1 = 0. -/
theorem test_framesync_sync :
    get (fun t => (t.seq, t.mtuL, t.prev, t.consumed, t.decOut))
        (exec .stepFramesync (at_ .framesync (up0 ++ up0)))
      = some (1#3, 2#16, 0#16, 8, mirrorRun .sync (ones ++ ones)) := by decide +kernel
/-- A skip: value 3 is kept, one sample is consumed (the rule of 43_state_machine.md R125). -/
theorem test_framesync_skip :
    get (fun t => (t.seq, t.mtuL, t.prev, t.consumed, t.rawOut))
        (exec .stepFramesync { at_ .framesync (up3 ++ up0) with prev := 1#16 })
      = some (0#3, 0#16, 3#16, 1, [⟨exactSample (-1) 0, .x⟩]) := by decide +kernel
/-- At pos 8. -/
theorem test_downchirp0 :
    get (fun t => (t.seq, t.prev, t.consumed, t.decOut)) (exec .stepDownchirp0 (at_ .downchirp0 (dn ++ dn)))
      = some (2#3, 0#16, 4, mirrorRun .dc ones) := by decide +kernel
/-- At pos 12. -/
theorem test_downchirp1 :
    get (fun t => (t.seq, t.bufAlloc, t.consumed, t.rawOut.map MirrorElem.label))
        (exec .stepDownchirp1 (at_ .downchirp1 (dn ++ dn)))
      = some (3#3, true, 4, List.replicate 4 .blank) := by decide +kernel
/-- At pos 16: the mixed window 1, j, -j, j gives value 2; N/4 = 1 sample is consumed. -/
theorem test_quarterchirp :
    get (fun t => (t.seq, t.symcount, t.prev, t.consumed, t.rawOut.length))
        (exec .stepQuarterchirp { at_ .quarterchirp (xs [(-1, 0)] ++ up3 ++ up0) with symcount := 1#16 })
      = some (4#3, 0#16, 2#16, 1, 1) := by decide +kernel
/-- At pos 17 with MTU_L = 1: the frame is complete. -/
theorem test_datasymbols_emits :
    get (fun t => (t.seq, t.symcount, t.prev, t.frames, t.bufAlloc))
        (exec .stepDatasymbols { at_ .datasymbols (up3 ++ up0) with mtuL := 1#16 })
      = some (0#3, 1#16, 3#16, [⟨1, [3#16]⟩], false) := by decide +kernel
/-- A symbol that does not complete the frame. -/
theorem test_datasymbols_appends :
    get (fun t => (t.seq, t.symcount, t.buf, t.frames)) (exec .stepDatasymbols (at_ .datasymbols (up3 ++ up0)))
      = some (4#3, 1#16, [(0, 3#16)], []) := by decide +kernel
/-- The variant of Program 5: one free element too few stalls the core. -/
theorem test_guard_stalls :
    get id (step { at_ .framesync (up0 ++ up0) with rawFree := 7 })
      = some { at_ .framesync (up0 ++ up0) with rawFree := 7 } := by decide +kernel

/-! ## Micro-operations (95_test_vectors.md §2.1-§2.3, §2.6) -/

theorem test_gen : get (fun t => (t.up, t.down)) (exec .gen { State.construct p2 with up := [], down := [] })
      = some (up0, dn) := by decide +kernel
/-- SF = 3: the phases π, π/4, 7π/4, 3π/2 and back. -/
theorem test_gen_sf3 : get State.up (exec .gen (State.construct p3))
      = some ([32768#16, 8192#16, 57344#16, 49152#16, 49152#16, 57344#16, 8192#16, 32768#16].map
          fun a => .exact (ofRoot (rootOf a))) := by decide +kernel
theorem test_dechirp_first :
    get (fun t => t.work.block) (exec (.dechirp .first .up) (at_ .framesync (up3 ++ dn)))
      = some (xs [(1, 0), (0, -1), (-1, 0), (0, 1)]) := by decide +kernel
theorem test_dechirp_second :
    get (fun t => t.work.block) (exec (.dechirp .second .up) (at_ .framesync (up3 ++ dn)))
      = some (xs [(1, 0), (-1, 0), (-1, 0), (1, 0)]) := by decide +kernel
/-- Feeding a slot again overwrites it (42_symbol_detector.md R106). -/
theorem test_feed : get State.window (exec (.feed 3#16 (exactSample 2 0))
      { State.construct p2 with window := [(1, exactSample 1 0), (3, exactSample 5 0)] })
    = some [(1, exactSample 1 0), (3, exactSample 2 0)] := by decide +kernel

/-- The windows of 95_test_vectors.md §2.3, ties included. -/
theorem test_detectors :
    [xs [(0, 0), (0, 0), (0, 0), (0, 0)], ones, xs [(1, 0), (0, 1), (-1, 0), (0, -1)],
      xs [(1, 0), (-1, 0), (1, 0), (-1, 0)], xs [(1, 0), (0, -1), (-1, 0), (0, 1)],
      xs [(0, 0), (1, 0), (0, 0), (0, 0)], xs [(2, 0), (0, 0), (-2, 0), (0, 0)],
      xs [(1, 0), (0, 1), (0, -1), (0, 1)]].map (detectWindow p2)
      = [0, 0, 1, 2, 3, 0, 1, 2] := by decide +kernel
/-- 42_symbol_detector.md R114: up(3) at N = 8, the phases of exp(j2π·3n/8). -/
theorem test_detect : get (fun t => t.work.symbol)
      (exec .detect { State.construct p3 with
        window := (List.range 8).map fun n => (n, .exact (ofRoot (rootOf (BitVec.ofNat 16 (3 * n * 8192))))) })
      = some 3 := by decide +kernel
theorem test_alloc : get (fun t => (t.bufAlloc, t.buf)) (exec (.alloc 2#16)
      { State.construct p2 with buf := [(0, 7#16)] }) = some (true, []) := by decide +kernel
/-- The example of 44_output_assembler.md R144. -/
theorem test_append : get State.buf (exec (.append 1#16 100#16)
      { at_ .datasymbols [] with buf := [(0, 5#16)] }) = some [(0, 5#16), (1, 100#16)] := by decide +kernel
/-- The example of 44_output_assembler.md R146. -/
theorem test_emit : get (fun t => (t.frames, t.bufAlloc)) (exec (.emit 2#16)
      { at_ .datasymbols [] with buf := [(0, 5#16), (1, 100#16)] })
    = some ([⟨2, [5#16, 100#16]⟩], false) := by decide +kernel
theorem test_discard : get (fun t => (t.bufAlloc, t.buf, t.frames)) (exec .discard
      { at_ .datasymbols [] with buf := [(0, 5#16)] }) = some (false, [], []) := by decide +kernel

/-! ## Witnesses: a concrete state and operands for the hypotheses of each obligation, clause by clause -/

theorem witness_EncodeThenDecode :
    encode (.wrMtu 2#32) = some (.hcw 0x8000_0210_0000_0002#64)
    ∧ encode .stepDatasymbols = some (.step 0b100#3) := by decide
theorem witness_DecodeThenEncode :
    decode (.hcw 0x8000_0210_0000_0002#64) = .ok (.wrMtu 2#32) ∧ decode (.step 4#3) = .ok .stepDatasymbols := by
  decide
/-- The address 0x20 is the last mapped one, 0x24 the first unmapped one. -/
theorem witness_DecodeTestOrder :
    ((0x0000_0106_0000_0000#64).extractLsb' 40 2 ≠ 0b10#2 ∨ (0x0000_0106_0000_0000#64).extractLsb' 32 2 ≠ 0b00#2)
    ∧ ((0x0000_0224_0000_0000#64).extractLsb' 40 2 = 0b10#2
      ∧ (0x0000_0224_0000_0000#64).extractLsb' 32 2 = 0b00#2
      ∧ ((0x0000_0224_0000_0000#64).extractLsb' 42 21 ≠ 0#21
        ∨ 0x20 < ((0x0000_0224_0000_0000#64).extractLsb' 32 8).toNat))
    ∧ ((0x0000_0220_0000_0000#64).extractLsb' 40 2 = 0b10#2
      ∧ (0x0000_0220_0000_0000#64).extractLsb' 32 2 = 0b00#2
      ∧ (0x0000_0220_0000_0000#64).extractLsb' 42 21 = 0#21
      ∧ ((0x0000_0220_0000_0000#64).extractLsb' 32 8).toNat ≤ 0x20) := by decide
theorem witness_MicroOpsHaveNoCode : microNumber (.alloc 2#16) = some 4#3 := by decide

/-- A core with one command word ahead. -/
def hostState (w : Hcw) : State := { State.construct p2 with agenda := [.host w] }

theorem witness_StepRunsHostCommand : (hostState 0x8000_0210_0000_0002#64).agenda
      = .host 0x8000_0210_0000_0002#64 :: []
    ∧ decode (.hcw 0x8000_0210_0000_0002#64) = .ok (.wrMtu 2#32) := ⟨rfl, by decide⟩

/-- All five clauses; the guard of clause 3 and of clause 5 fails one free element short. -/
theorem witness_StepRunsSelectedOperation :
    ((at_ .downchirp0 []).seq = SeqState.code .downchirp0 ∧ (at_ .downchirp0 []).agenda = [])
    ∧ { at_ .downchirp0 [] with agenda := [Event.core] }.agenda = Event.core :: []
    ∧ ¬Guard .framesync { at_ .framesync (up0 ++ up0) with rawFree := 7 }
    ∧ (0b100#3 < { at_ .framesync (up0 ++ up0) with seq := 0b101#3 }.seq
      ∧ Guard .framesync { at_ .framesync (up0 ++ up0) with seq := 0b101#3 })
    ∧ ¬Guard .framesync { at_ .framesync (up0 ++ up0) with seq := 0b101#3, decFree := 7 } :=
  ⟨⟨rfl, rfl⟩, rfl, noGuard_of (by decide +kernel), ⟨by decide, guard_of (by decide +kernel)⟩,
    noGuard_of (by decide +kernel)⟩

theorem witness_RefusedAccessOnlyRecords :
    (decode (.hcw 0x8000_0010_0000_0005#64) = .reject .busAlign ∧ (0x8000_0010_0000_0005#64).getLsbD 63 = true)
    ∧ (decode (.hcw 0x0000_0106_0000_0000#64) = .reject .busAlign ∧ (0x0000_0106_0000_0000#64).getLsbD 63 = false)
    ∧ (decode (.hcw 0x8000_0224_0000_0000#64) = .reject .busDecode ∧ (0x8000_0224_0000_0000#64).getLsbD 63 = true)
    ∧ (decode (.hcw 0x0000_0224_0000_0000#64) = .reject .busDecode ∧ (0x0000_0224_0000_0000#64).getLsbD 63 = false)
    ∧ (hostState 0x0000_0224_0000_0000#64).agenda = .host 0x0000_0224_0000_0000#64 :: [] :=
  ⟨by decide, by decide, by decide, by decide, rfl⟩

theorem witness_PortTransitions :
    { r7 with agenda := [.supply up0] }.agenda = .supply up0 :: []
    ∧ { r7 with agenda := [.rawSpace 8] }.agenda = .rawSpace 8 :: []
    ∧ { r7 with agenda := [.decSpace 8] }.agenda = .decSpace 8 :: []
    ∧ { r7 with agenda := [.frameSink true] }.agenda = .frameSink true :: []
    ∧ r7.params.num.real = .ideal
    ∧ (State.construct p2f).params.num.real ≠ .ideal
    ∧ ∃ x, sampleValue p2f.num.fmt (.word 0x0000_0000_3F80_0000#64) = some x
      ∧ toComplex x = toComplex (ofRoot (ofParts 1 0)) :=
  ⟨rfl, rfl, rfl, rfl, rfl, by decide, _, test_sample_values.1, rfl⟩

theorem witness_WrCtrlWritesEnablesThenActivates :
    (6#32).getLsbD 0 = false ∧ (7#32).getLsbD 0 = true ∧ (State.construct p2).mtu = 0#16
    ∧ (at_ .framesync []).mtu ≠ 0#16 := by decide +kernel
theorem witness_WrStatusClearsTheRecord :
    (0x100#32).getLsbD 8 = true ∧ (0xFFFFFEFF#32).getLsbD 8 = false := by decide

/-- Clause 2: a DOWNCHIRP0 step. Clause 3: at N = 4 the high nibble 1 is just above (N + 3) div 8 = 0. -/
theorem witness_WrSyncwordReachesFramesyncOnly :
    (SeqState.downchirp0 ≠ .framesync
      ∧ exec SeqState.downchirp0.stepInstr (at_ .downchirp0 (dn ++ dn))
        = .next (after r7 (exec .stepDownchirp0 (at_ .downchirp0 (dn ++ dn)))))
    ∧ ((p2.size + 3) / 8 < (0x10#8).toNat / 16
      ∧ { at_ .framesync (up0 ++ up0) with syncword := 0x10#8 }.seq = 0b000#3
      ∧ exec .stepFramesync { at_ .framesync (up0 ++ up0) with syncword := 0x10#8 }
        = .next (after r7 (exec .stepFramesync { at_ .framesync (up0 ++ up0) with syncword := 0x10#8 }))) :=
  ⟨⟨by decide, next_after (by decide +kernel)⟩, by decide, rfl, next_after (by decide +kernel)⟩

/-- MTU_MAX = 3: 1 and 3 are legal, 0 and 4 are not. -/
theorem witness_WrMtuStoresLegalValues :
    (1 ≤ ((1#32).setWidth 16).toNat ∧ ((3#32).setWidth 16).toNat ≤ (State.construct p2).params.mtuMax)
    ∧ (((0#32).setWidth 16).toNat = 0 ∧ (State.construct p2).params.mtuMax < ((4#32).setWidth 16).toNat)
    ∧ (exec (.wrMtu 4#32) (at_ .framesync []) = .next (after r7 (exec (.wrMtu 4#32) (at_ .framesync [])))
      ∧ (at_ .framesync []).mtu ≠ 0#16) :=
  ⟨by decide, by decide, next_after (by decide +kernel), by decide⟩

/-- Each cause, at the smallest refused value: MTU 4 with MTU_MAX = 3; and WR_MTU 3, which records none. -/
theorem witness_ErrorCausesOfAccesses :
    (step (hostState 0x8000_0010_0000_0005#64) = .next (after r7 (step (hostState 0x8000_0010_0000_0005#64)))
      ∧ decode (.hcw 0x8000_0010_0000_0005#64) = .reject .busAlign)
    ∧ (step (hostState 0x0000_0224_0000_0000#64) = .next (after r7 (step (hostState 0x0000_0224_0000_0000#64)))
      ∧ decode (.hcw 0x0000_0224_0000_0000#64) = .reject .busDecode)
    ∧ (step (hostState 0x8000_0210_0000_0004#64) = .next (after r7 (step (hostState 0x8000_0210_0000_0004#64)))
      ∧ decode (.hcw 0x8000_0210_0000_0004#64) = .ok (.wrMtu 4#32)
      ∧ (State.construct p2).params.mtuMax < ((4#32).setWidth 16).toNat)
    ∧ (step (hostState 0x8000_0204_0000_0001#64) = .next (after r7 (step (hostState 0x8000_0204_0000_0001#64)))
      ∧ decode (.hcw 0x8000_0204_0000_0001#64) = .ok (.wrCtrl 1#32) ∧ (1#32).getLsbD 0 = true
      ∧ (hostState 0x8000_0204_0000_0001#64).mtu = 0#16)
    ∧ (step (hostState 0x8000_0210_0000_0003#64) = .next (after r7 (step (hostState 0x8000_0210_0000_0003#64)))
      ∧ decode (.hcw 0x8000_0210_0000_0003#64) = .ok (.wrMtu 3#32)
      ∧ ∀ d : Word32, Instr.wrMtu 3#32 = .wrMtu d →
        ¬(d.setWidth 16 = 0#16 ∨ p2.mtuMax < (d.setWidth 16).toNat)) := by
  refine ⟨⟨next_after (by decide +kernel), by decide⟩, ⟨next_after (by decide +kernel), by decide⟩,
    ⟨next_after (by decide +kernel), by decide, by decide⟩,
    ⟨next_after (by decide +kernel), by decide, by decide, rfl⟩,
    ⟨next_after (by decide +kernel), by decide, ?_⟩⟩
  intro d h
  cases h
  decide

/-- A second error, and a clearing write, while one is recorded. -/
theorem witness_FirstErrorIsKept :
    ({ hostState 0x0000_0224_0000_0000#64 with err := true }.err = true
      ∧ step { hostState 0x0000_0224_0000_0000#64 with err := true }
        = .next (after r7 (step { hostState 0x0000_0224_0000_0000#64 with err := true })))
    ∧ step { hostState 0x8000_0208_0000_0100#64 with err := true }
        = .next (after r7 (step { hostState 0x8000_0208_0000_0100#64 with err := true })) :=
  ⟨⟨rfl, next_after (by decide +kernel)⟩, next_after (by decide +kernel)⟩

/-- The state a step leaves. -/
def done (q : SeqState) (s : State) : State := after s (exec q.stepInstr s)

theorem done_of {q : SeqState} {s : State} (hg : stepGuard q s = true)
    (h : (get (fun _ => ()) (exec q.stepInstr s)).isSome = true) :
    Guard q s ∧ exec q.stepInstr s = .next (done q s) := ⟨guard_of hg, next_after h⟩

/-- Exactly 2N = 8 samples and 8 free elements enable the step; 7 samples do not. Covers the hypotheses
`Guard q s` and `exec q.stepInstr s = .next t` of GuardDecidesWhetherAStepHappens,
StepsConsumeFromTheHead, StepDetectsByMicroOps, RawMirrorEchoesTheInput (enabled) and
LabelsMarkTheFirstElement, for each operation. -/
theorem witness_GuardAndStep :
    (∃ t, Guard .framesync (at_ .framesync (up0 ++ up0))
      ∧ exec SeqState.framesync.stepInstr (at_ .framesync (up0 ++ up0)) = .next t)
    ∧ (∃ t, Guard .downchirp0 (at_ .downchirp0 (dn ++ dn))
      ∧ exec SeqState.downchirp0.stepInstr (at_ .downchirp0 (dn ++ dn)) = .next t)
    ∧ (∃ t, Guard .downchirp1 (at_ .downchirp1 (dn ++ dn))
      ∧ exec SeqState.downchirp1.stepInstr (at_ .downchirp1 (dn ++ dn)) = .next t)
    ∧ (∃ t, Guard .quarterchirp (at_ .quarterchirp (dn ++ dn))
      ∧ exec SeqState.quarterchirp.stepInstr (at_ .quarterchirp (dn ++ dn)) = .next t)
    ∧ (∃ t, Guard .datasymbols (at_ .datasymbols (up3 ++ up0))
      ∧ exec SeqState.datasymbols.stepInstr (at_ .datasymbols (up3 ++ up0)) = .next t)
    ∧ ¬Guard .framesync (at_ .framesync (up0 ++ up3.drop 1)) :=
  ⟨⟨_, done_of (by decide +kernel) (by decide +kernel)⟩, ⟨_, done_of (by decide +kernel) (by decide +kernel)⟩,
    ⟨_, done_of (by decide +kernel) (by decide +kernel)⟩, ⟨_, done_of (by decide +kernel) (by decide +kernel)⟩,
    ⟨_, done_of (by decide +kernel) (by decide +kernel)⟩, noGuard_of (by decide +kernel)⟩

/-- The mirror off: RawMirrorEchoesTheInput's other clause; and MirrorsDoNotInfluenceTheProtocol, the same
core with other enables and free space. -/
theorem witness_MirrorsOff :
    { at_ .downchirp0 (dn ++ dn) with rawEn := false }.rawEn = false
    ∧ (∃ t, Guard .downchirp0 { at_ .downchirp0 (dn ++ dn) with rawEn := false, rawFree := 0 }
      ∧ exec SeqState.downchirp0.stepInstr { at_ .downchirp0 (dn ++ dn) with rawEn := false, rawFree := 0 }
        = .next t)
    ∧ Guard .downchirp0 { at_ .downchirp0 (dn ++ dn) with
        rawEn := true, decEn := false, rawFree := 8, decFree := 0 } :=
  ⟨rfl, ⟨_, done_of (by decide +kernel) (by decide +kernel)⟩, guard_of (by decide +kernel)⟩

/-- The three outcomes. At N = 4 both symbols match the sync word 0x00, the first alone matches 0x01, and
PREV = 1 is the smallest that is not syncd. -/
theorem witness_StepFramesyncSearches :
    (Guard .framesync (at_ .framesync (up0 ++ up0))
      ∧ ((at_ .framesync (up0 ++ up0)).prev.toNat + 1) / 2 = 0
      ∧ (detectWindow p2 (dechirpBlock .first .up (at_ .framesync (up0 ++ up0))) + 4) / 8 = (0x00#8).toNat / 16
      ∧ (detectWindow p2 (dechirpBlock .second .up (at_ .framesync (up0 ++ up0))) + 4) / 8 = (0x00#8).toNat % 16)
    ∧ (Guard .framesync { at_ .framesync (up3 ++ up3) with syncword := 0x01#8 }
      ∧ (detectWindow p2 (dechirpBlock .first .up (at_ .framesync (up3 ++ up3))) + 4) / 8 = (0x01#8).toNat / 16
      ∧ (detectWindow p2 (dechirpBlock .second .up (at_ .framesync (up3 ++ up3))) + 4) / 8 ≠ (0x01#8).toNat % 16)
    ∧ (Guard .framesync { at_ .framesync (up0 ++ up0) with prev := 1#16 } ∧ ¬((1#16).toNat + 1) / 2 = 0) :=
  ⟨⟨guard_of (by decide +kernel), by decide +kernel⟩, ⟨guard_of (by decide +kernel), by decide +kernel⟩,
    guard_of (by decide +kernel), by decide⟩

/-- FramesyncConsumption: a skip of 1 sample, of N samples, and a full sync. -/
theorem witness_FramesyncConsumption :
    (∃ t, Guard .framesync { at_ .framesync (up3 ++ up0) with prev := 1#16 }
      ∧ exec .stepFramesync { at_ .framesync (up3 ++ up0) with prev := 1#16 } = .next t)
    ∧ (∃ t, Guard .framesync { at_ .framesync (up0 ++ up0) with prev := 1#16 }
      ∧ exec .stepFramesync { at_ .framesync (up0 ++ up0) with prev := 1#16 } = .next t)
    ∧ ∃ t, Guard .framesync (at_ .framesync (up0 ++ up0))
      ∧ exec .stepFramesync (at_ .framesync (up0 ++ up0)) = .next t :=
  ⟨⟨_, done_of (q := .framesync) (by decide +kernel) (by decide +kernel)⟩,
    ⟨_, done_of (q := .framesync) (by decide +kernel) (by decide +kernel)⟩,
    ⟨_, done_of (q := .framesync) (by decide +kernel) (by decide +kernel)⟩⟩

/-- StepDownchirp0Passes and StepQuarterchirpSkipsAQuarter have no hypothesis but the guard. -/
theorem witness_StepDownchirp1Allocates : Guard .downchirp1 { at_ .downchirp1 (dn ++ dn) with mtuL := 3#16 }
    ∧ { at_ .downchirp1 (dn ++ dn) with mtuL := 3#16 }.bufAlloc = false
    ∧ { at_ .downchirp1 (dn ++ dn) with mtuL := 3#16 }.mtuL.toNat ≤ p2.mtuMax :=
  ⟨guard_of (by decide +kernel), rfl, by decide⟩
/-- SYMCOUNT 1 of 3: the last symbol that does not complete the frame. -/
theorem witness_StepDatasymbolsAppends :
    Guard .datasymbols { at_ .datasymbols (up3 ++ up0) with symcount := 1#16, mtuL := 3#16 }
    ∧ { at_ .datasymbols (up3 ++ up0) with symcount := 1#16, mtuL := 3#16 }.bufAlloc = true
    ∧ (1#16).toNat + 1 < (3#16).toNat ∧ (3#16).toNat ≤ p2.mtuMax :=
  ⟨guard_of (by decide +kernel), rfl, by decide, by decide⟩
/-- SYMCOUNT 2 of 3. -/
theorem witness_StepDatasymbolsEmits :
    Guard .datasymbols { at_ .datasymbols (up3 ++ up0) with symcount := 2#16, mtuL := 3#16 }
    ∧ { at_ .datasymbols (up3 ++ up0) with symcount := 2#16, mtuL := 3#16 }.bufAlloc = true
    ∧ (2#16).toNat + 1 = (3#16).toNat ∧ (3#16).toNat ≤ p2.mtuMax :=
  ⟨guard_of (by decide +kernel), rfl, by decide, by decide⟩

theorem witness_FailedRequirementsFault :
    (Guard .downchirp1 { at_ .downchirp1 (dn ++ dn) with bufAlloc := true })
    ∧ (Guard .datasymbols { at_ .datasymbols (up3 ++ up0) with bufAlloc := false })
    ∧ (Guard .datasymbols { at_ .datasymbols (up3 ++ up0) with symcount := 2#16 }
      ∧ { at_ .datasymbols (up3 ++ up0) with symcount := 2#16 }.mtuL.toNat ≤ (2#16).toNat)
    ∧ (at_ .datasymbols []).bufAlloc = true
    ∧ (at_ .datasymbols []).mtuL.toNat ≤ (2#16).toNat
    ∧ { at_ .datasymbols [] with frameReady := false }.frameReady = false :=
  ⟨guard_of (by decide +kernel), guard_of (by decide +kernel), ⟨guard_of (by decide +kernel), by decide⟩,
    rfl, by decide, rfl⟩

/-- MTU_MAX = 3, N = 4: capacity and length 4, index 3 and slot 4 are the first that do not exist. -/
theorem witness_MissingEntriesFault :
    ((State.construct p2).bufAlloc = false ∧ (State.construct p2).params.mtuMax < (4#16).toNat)
    ∧ ({ at_ .datasymbols [] with mtuL := 4#16 }.bufAlloc = true ∧ (3#16).toNat < (4#16).toNat
      ∧ p2.mtuMax ≤ (3#16).toNat)
    ∧ ((at_ .datasymbols []).frameReady = true ∧ p2.mtuMax < (4#16).toNat)
    ∧ p2.size ≤ (4#16).toNat
    ∧ Guard .downchirp1 { at_ .downchirp1 (dn ++ dn) with mtuL := 4#16 }
    ∧ (Guard .datasymbols { at_ .datasymbols (up3 ++ up0) with mtuL := 4#16, symcount := 3#16 }
      ∧ p2.mtuMax ≤ (3#16).toNat) :=
  ⟨by decide, ⟨rfl, by decide, by decide⟩, ⟨rfl, by decide⟩, by decide, guard_of (by decide +kernel),
    guard_of (by decide +kernel), by decide⟩

/-- The invariant holds of a constructed core, and of a core in the middle of a frame. -/
theorem inv_at : State.Inv { at_ .datasymbols (up3 ++ up0) with mtuL := 1#16 } where
  legalCode := by decide
  prevBelow := by decide
  frameLength := by decide
  countBelow := by decide
  bufferExact := by decide
  inactive := by decide
  mtuLegal := by decide
  activeConfigured := by decide
  upGenerated := rfl
  downGenerated := rfl
  windowWf := rfl
  bufWf := rfl
  appended := fun _ k h => absurd h (Nat.not_lt_zero k)
  inputPort := fun _ _ => rfl

/-- InvariantIsKept, InvariantStatesGoOn and EmittedFramesAreComplete: a step that emits a frame. -/
theorem witness_InvariantIsKept :
    ∃ s t : State, s.Inv ∧ step s = .next t ∧ t.frames ≠ s.frames ∧ s.seq = 0b100#3 :=
  ⟨_, after r7 (step { at_ .datasymbols (up3 ++ up0) with mtuL := 1#16 }), inv_at,
    next_after (by decide +kernel), by decide +kernel, rfl⟩

/-- GenWritesBothTables' last clause, DownIsTheConjugate's second: a table that is not ideal; the tables'
first and last index; IdealTableHasUnitMagnitude's last clause. -/
theorem witness_tables : p2f.num.real ≠ .ideal ∧ p2f.num.fmt = .binary32 ∧ p2.num.real = .ideal
    ∧ 0 < p2.size ∧ 3 < p2.size
    ∧ (upTable p2)[3]? = some (exactSample (-1) 0) := by decide +kernel
theorem witness_DechirpMultipliesByTheConjugate :
    2 * p2.size ≤ (at_ .framesync (up3 ++ dn)).input.length
    ∧ (at_ .framesync (up3 ++ dn)).input[4 + 3]? = some (exactSample (-1) 0)
    ∧ (at_ .framesync (up3 ++ dn)).up[3]? = some (exactSample (-1) 0)
    ∧ (at_ .framesync (up3 ++ dn)).up.length = p2.size ∧ 3 < p2.size := by decide +kernel
theorem witness_IdealProductIsExact :
    p2.num.real = .ideal ∧ sampleValue p2.num.fmt (exactSample 1 2) = some (ofRoot (ofParts 1 2))
    ∧ sampleValue p2.num.fmt (.word 0x3F80_0000_0000_0000#64) = some (ofRoot (ofParts 0 1)) := by
  decide +kernel
theorem witness_FeedWritesOneSlot : (3#16).toNat < (State.construct p2).params.size ∧ (0 : Nat) ≠ (3#16).toNat
    ∧ (State.construct p2).params.num.real = .ideal ∧ ∃ w, zeroWord = .word w := ⟨by decide, by decide, rfl, _, rfl⟩

/-- A window with a tie, for IdealDetectIsTheLowestPeak. -/
theorem witness_IdealDetectIsTheLowestPeak :
    p2.num.real = .ideal ∧ (xs [(2, 0), (0, 0), (-2, 0), (0, 0)]).length = p2.size
    ∧ (windowValues p2.num.fmt (xs [(2, 0), (0, 0), (-2, 0), (0, 0)])).isSome := by decide +kernel

/-- The exact values of `ones`. -/
def oneValues : List ExactNum := List.replicate 4 (ofRat 1)

theorem ones_strict {m : Nat} (h : exLt (binEnergy p2 oneValues m) (binEnergy p2 oneValues 0) = true) :
    Complex.normSq (dftBin p2.size m (oneValues.map toComplex))
      < Complex.normSq (dftBin p2.size 0 (oneValues.map toComplex)) := by
  rw [exLt_iff _ _ (rising_binEnergy _ _ _), re_binEnergy, re_binEnergy] at h
  rwa [toComplex_dftFrom_zero (by decide), toComplex_dftFrom_zero (by decide)] at h

/-- EveryDetectorFindsAClearPeak: the constant window, whose peak at 0 is clear with TOL_DET = 0. -/
theorem witness_EveryDetectorFindsAClearPeak :
    ones.length = p2.size ∧ windowValues p2.num.fmt ones = some oneValues ∧ 0 < p2.size ∧
    ∀ m < p2.size, m ≠ 0 →
      Complex.normSq (dftBin p2.size m (oneValues.map toComplex))
          + tolDet p2 * (oneValues.map fun z => Complex.normSq (toComplex z)).sum
        < Complex.normSq (dftBin p2.size 0 (oneValues.map toComplex)) := by
  refine ⟨by decide, by decide +kernel, by decide, fun m hm h0 => ?_⟩
  rw [show tolDet p2 = 0 from rfl, zero_mul, add_zero]
  apply ones_strict
  have : m = 1 ∨ m = 2 ∨ m = 3 := by have : p2.size = 4 := rfl; omega
  rcases this with rfl | rfl | rfl <;> decide +kernel

/-- PureTonesAreDetected: the constant window is the tone at bin 0; the all-zero window. -/
theorem witness_PureTonesAreDetected :
    (windowValues p2.num.fmt ones = some oneValues ∧ (1 : ℂ) ≠ 0 ∧
      ∀ n < p2.size, toComplex (oneValues.getD n [])
        = 1 * Complex.exp (2 * Real.pi * (0 : Nat) * n / p2.size * Complex.I)) ∧
    (windowValues p2.num.fmt (xs [(0, 0), (0, 0), (0, 0), (0, 0)]) = some (List.replicate 4 [])
      ∧ ∀ z ∈ List.replicate 4 ([] : ExactNum), toComplex z = 0) := by
  refine ⟨⟨by decide +kernel, one_ne_zero, fun n hn => ?_⟩, by decide +kernel, ?_⟩
  · have hv : oneValues.getD n [] = ofRat 1 := by
      have : n = 0 ∨ n = 1 ∨ n = 2 ∨ n = 3 := by have : p2.size = 4 := rfl; omega
      rcases this with rfl | rfl | rfl | rfl <;> rfl
    rw [hv, toComplex_ofRat]
    simp
  · intro z hz
    rw [List.eq_of_mem_replicate hz]
    simp

theorem witness_ShiftedChirpsAreDetected : p2.num.real = .ideal ∧ 3 < p2.size := by decide
theorem witness_AllocGivesAFreshBuffer :
    (State.construct p2).bufAlloc = false ∧ (3#16).toNat ≤ (State.construct p2).params.mtuMax := by decide
theorem witness_AppendStoresOneEntry :
    { at_ .datasymbols [] with mtuL := 3#16 }.bufAlloc = true ∧ (2#16).toNat < (3#16).toNat
    ∧ (2#16).toNat < p2.mtuMax ∧ (0 : Nat) ≠ (2#16).toNat := by decide
theorem witness_EmitHandsOverTheFrame :
    (at_ .datasymbols []).bufAlloc = true ∧ (at_ .datasymbols []).frameReady = true
    ∧ (3#16).toNat ≤ (at_ .datasymbols []).params.mtuMax := by decide
theorem witness_DiscardReleasesTheBuffer :
    (at_ .datasymbols []).bufAlloc = true ∧ (State.construct p2).bufAlloc = false := by decide

/-- A step of an active core, an activation of an inactive one, an idle turn of an inactive one. -/
theorem witness_ActiveIsSetByActivationOnly :
    ((at_ .downchirp0 (dn ++ dn)).active = true
      ∧ step (at_ .downchirp0 (dn ++ dn)) = .next (after r7 (step (at_ .downchirp0 (dn ++ dn)))))
    ∧ ({ hostState 0x8000_0204_0000_0001#64 with mtu := 1#16 }.active = false
      ∧ step { hostState 0x8000_0204_0000_0001#64 with mtu := 1#16 }
        = .next (after r7 (step { hostState 0x8000_0204_0000_0001#64 with mtu := 1#16 }))
      ∧ (after r7 (step { hostState 0x8000_0204_0000_0001#64 with mtu := 1#16 })).active = true)
    ∧ ((1#32).getLsbD 0 = true ∧ (at_ .framesync []).mtu ≠ 0#16)
    ∧ ((State.construct p2).active = false ∧ (State.construct p2).agenda = []) :=
  ⟨⟨rfl, next_after (by decide +kernel)⟩, ⟨rfl, next_after (by decide +kernel), by decide +kernel⟩,
    by decide, rfl, rfl⟩

/-- A transition of the source; and a re-activation in the middle of a frame. -/
theorem witness_OnlyStepsAndActivationMoveTheSequencer :
    ({ r7 with agenda := [.supply up0] }.agenda = .supply up0 :: [] ∧ Event.supply up0 ≠ .core
      ∧ step { r7 with agenda := [.supply up0] } = .next { r7 with input := up0 })
    ∧ (Event.host 0x8000_0204_0000_0001#64 ≠ .core
      ∧ step { at_ .datasymbols [] with agenda := [.host 0x8000_0204_0000_0001#64] }
        = .next (after r7 (step { at_ .datasymbols [] with agenda := [.host 0x8000_0204_0000_0001#64] }))) :=
  ⟨⟨rfl, by decide, rfl⟩, by decide, next_after (by decide +kernel)⟩

theorem witness_TablesAndConfigurationAreStable :
    step (at_ .downchirp0 (dn ++ dn)) = .next (after r7 (step (at_ .downchirp0 (dn ++ dn))))
    ∧ ∀ w rest, (at_ .downchirp0 (dn ++ dn)).agenda ≠ .host w :: rest :=
  ⟨next_after (by decide +kernel), fun _ _ h => by cases h⟩

/-- ElaborationChecksParameters: the four boundary values that are refused, and a step. -/
theorem witness_ElaborationChecksParameters :
    ¬(2 ≤ 1 ∧ 1 ≤ 16 ∧ 1 ≤ 1 ∧ 1 ≤ 65535) ∧ ¬(2 ≤ 17 ∧ 17 ≤ 16 ∧ 1 ≤ 1 ∧ 1 ≤ 65535)
    ∧ ¬(2 ≤ 2 ∧ 2 ≤ 16 ∧ 1 ≤ 0 ∧ 0 ≤ 65535) ∧ ¬(2 ≤ 2 ∧ 2 ≤ 16 ∧ 1 ≤ 65536 ∧ 65536 ≤ 65535)
    ∧ ∃ t, step r7 = .next t := ⟨by decide, by decide, by decide, by decide, r7, rfl⟩

end Sys2Proof.Tests
end

/-! PROOFS. What one transition can do, said once: the engine's turn, a host access and a port's transition,
each as the list of the next states it can answer, with the conditions of each. -/

namespace Sys2Proof.Machine

/-! ## The step engine's turn (43_state_machine.md R115) -/

/-- The state a DATASYMBOLS step's body reaches before its end: the detected symbol stands at SYMCOUNT, and is
counted (43_state_machine.md R138). -/
def symbolStored (s : State) : State :=
  { s with
    window := (prologue .datasymbols s).window
    buf := putSlot s.symcount.toNat (BitVec.ofNat 16 (detectValue (prologue .datasymbols s))) s.buf
    symcount := s.symcount + 1#16 }

/-- The next states of the step engine's turn. -/
inductive CoreMove (s : State) : State → Prop
  /-- The guard is false (R117). -/
  | idle : CoreMove s s
  /-- Both sync symbols match (R124). -/
  | sync (hq : s.seq = SeqState.code .framesync) (hg : Guard .framesync s) :
      CoreMove s (epilogue (syncPlan s.params (dechirpBlock .first .up s) (dechirpBlock .second .up s))
        (detectValue (prologue .framesync s)) { secondWindow (prologue .framesync s) with mtuL := s.mtu })
  /-- The first sync symbol is missing (R125). -/
  | skip (hq : s.seq = SeqState.code .framesync) (hg : Guard .framesync s) :
      CoreMove s (epilogue (skipPlan s.params (detectValue (prologue .framesync s)) (dechirpBlock .first .up s))
        (detectValue (prologue .framesync s)) (prologue .framesync s))
  /-- The first sync symbol matches, the second is missing (R125). -/
  | skipAfterBoth (hq : s.seq = SeqState.code .framesync) (hg : Guard .framesync s) :
      CoreMove s (epilogue (skipPlan s.params (detectValue (prologue .framesync s)) (dechirpBlock .first .up s))
        (detectValue (prologue .framesync s)) (secondWindow (prologue .framesync s)))
  /-- R130. -/
  | downchirp0 (hq : s.seq = SeqState.code .downchirp0) (hg : Guard .downchirp0 s) :
      CoreMove s (epilogue ⟨s.params.size, .downchirp1, .dc, dechirpBlock .first (refOf .downchirp0) s⟩
        (detectValue (prologue .downchirp0 s)) (prologue .downchirp0 s))
  /-- The frame buffer is allocated (R132, R133). -/
  | downchirp1 (hq : s.seq = SeqState.code .downchirp1) (hg : Guard .downchirp1 s)
      (hfree : s.bufAlloc = false) (hcap : s.mtuL.toNat ≤ s.params.mtuMax) :
      CoreMove s (epilogue ⟨s.params.size, .quarterchirp, .blank, dechirpBlock .first (refOf .downchirp1) s⟩
        (detectValue (prologue .downchirp1 s)) { forgetBuf (prologue .downchirp1 s) with bufAlloc := true })
  /-- R134, R136. -/
  | quarterchirp (hq : s.seq = SeqState.code .quarterchirp) (hg : Guard .quarterchirp s) :
      CoreMove s (epilogue ⟨s.params.size / 4, .datasymbols, .qc, dechirpBlock .first (refOf .quarterchirp) s⟩
        (detectValue (prologue .quarterchirp s)) { prologue .quarterchirp s with symcount := 0#16 })
  /-- A symbol before the last of its frame (R138). -/
  | symbol (hq : s.seq = SeqState.code .datasymbols) (hg : Guard .datasymbols s) (halloc : s.bufAlloc = true)
      (hcount : s.symcount.toNat + 1 < s.mtuL.toNat) (hcap : s.symcount.toNat < s.params.mtuMax) :
      CoreMove s (epilogue ⟨s.params.size, .datasymbols, .s, dechirpBlock .first (refOf .datasymbols) s⟩
        (detectValue (prologue .datasymbols s)) (symbolStored s))
  /-- The last symbol of a frame, which is emitted (R139). -/
  | lastSymbol (hq : s.seq = SeqState.code .datasymbols) (hg : Guard .datasymbols s)
      (halloc : s.bufAlloc = true) (hcount : s.symcount.toNat + 1 = s.mtuL.toNat)
      (hcap : s.mtuL.toNat ≤ s.params.mtuMax) :
      CoreMove s (epilogue ⟨s.params.size, .framesync, .s, dechirpBlock .first (refOf .datasymbols) s⟩
        (detectValue (prologue .datasymbols s))
        { forgetBuf (symbolStored s) with
          frames := s.frames ++ [frameOf s.mtuL (symbolStored s)], bufAlloc := false })

/-- The engine's turn runs the operation `x[state]` selects. -/
theorem coreTurn_of_code {q : SeqState} {s : State} (h : s.seq = q.code) :
    coreTurn s = exec q.stepInstr s := by
  simp [coreTurn, decode, decodeStep, h]

/-- With a reserved code the engine's turn faults where the guard allows a step. -/
theorem coreTurn_of_reserved {s : State} (h : SeqState.ofCode s.seq = none) :
    coreTurn s = if stepGuard .framesync s then .fault .illegalState else .next s := by
  simp [coreTurn, decode, decodeStep, h]

/-- Without its guard a step operation is a no-op (43_state_machine.md R117). -/
theorem exec_stepInstr_of_not_guard {q : SeqState} {s : State} (h : stepGuard q s = false) :
    exec q.stepInstr s = .next s := by
  cases q with
  | framesync | downchirp0 | downchirp1 | quarterchirp | datasymbols => exact if_neg (by simp [h])

theorem execStepFramesync_of_guard {s : State} (h : stepGuard .framesync s = true) :
    exec (SeqState.stepInstr .framesync) s = .next (framesyncStep s) := if_pos h

theorem execStepDownchirp0_of_guard {s : State} (h : stepGuard .downchirp0 s = true) :
    exec (SeqState.stepInstr .downchirp0) s
      = .next (epilogue ⟨s.params.size, .downchirp1, .dc, dechirpBlock .first (refOf .downchirp0) s⟩
          (detectValue (prologue .downchirp0 s)) (prologue .downchirp0 s)) := if_pos h

theorem execStepDownchirp1_of_guard {s : State} (h : stepGuard .downchirp1 s = true) :
    exec (SeqState.stepInstr .downchirp1) s
      = andThen (allocBuf s.mtuL (prologue .downchirp1 s)) fun u =>
          .next (epilogue ⟨s.params.size, .quarterchirp, .blank, dechirpBlock .first (refOf .downchirp1) s⟩
            (detectValue (prologue .downchirp1 s)) u) := if_pos h

theorem execStepQuarterchirp_of_guard {s : State} (h : stepGuard .quarterchirp s = true) :
    exec (SeqState.stepInstr .quarterchirp) s
      = .next (epilogue
          ⟨s.params.size / 4, .datasymbols, .qc, dechirpBlock .first (refOf .quarterchirp) s⟩
          (detectValue (prologue .quarterchirp s)) { prologue .quarterchirp s with symcount := 0#16 }) :=
  if_pos h

theorem execStepDatasymbols_of_guard {s : State} (h : stepGuard .datasymbols s = true) :
    exec (SeqState.stepInstr .datasymbols) s
      = andThen (appendBuf s.symcount (BitVec.ofNat 16 (detectValue (prologue .datasymbols s)))
          (prologue .datasymbols s)) fun u =>
          datasymbolsEnd s.symcount.toNat (detectValue (prologue .datasymbols s))
            (dechirpBlock .first (refOf .datasymbols) s) { u with symcount := s.symcount + 1#16 } :=
  if_pos h

/-- A DATASYMBOLS step that answers has stored its symbol, and emits the frame exactly with the last one. -/
theorem coreMove_of_datasymbols {s t : State} (hq : s.seq = SeqState.code .datasymbols)
    (hg : stepGuard .datasymbols s = true) (h : exec (SeqState.stepInstr .datasymbols) s = .next t) :
    CoreMove s t := by
  rw [execStepDatasymbols_of_guard hg] at h
  obtain ⟨u, hu, hend⟩ := andThen_eq_next h
  obtain ⟨halloc, hcount, hcap, rfl⟩ := appendBuf_eq_next hu
  rw [prologue_bufAlloc] at halloc
  rw [prologue_mtuL] at hcount
  rw [prologue_params] at hcap
  have hstored : { prologue .datasymbols s with
      buf := putSlot s.symcount.toNat (BitVec.ofNat 16 (detectValue (prologue .datasymbols s)))
        (prologue .datasymbols s).buf
      symcount := s.symcount + 1#16 } = symbolStored s := by
    simp [symbolStored]
  have hparams : (symbolStored s).params = s.params := rfl
  have hlen : (symbolStored s).mtuL = s.mtuL := rfl
  rw [hstored, datasymbolsEnd, hlen, hparams] at hend
  have hguard := (stepGuard_iff _ _).mp hg
  split at hend
  case isTrue hlast =>
    obtain ⟨v, hv, hnext⟩ := andThen_eq_next hend
    obtain ⟨-, -, hmax, rfl⟩ := emitBuf_eq_next hv
    cases hnext
    exact .lastSymbol hq hguard halloc hlast hmax
  case isFalse hmore =>
    cases hend
    exact .symbol hq hguard halloc (by omega) hcap

/-- The step operation of the state's code, where it answers a next state, makes one of the moves. -/
theorem coreMove_of_exec {q : SeqState} {s t : State} (hq : s.seq = q.code)
    (h : exec q.stepInstr s = .next t) : CoreMove s t := by
  cases hg : stepGuard q s with
  | false =>
    rw [exec_stepInstr_of_not_guard hg] at h
    cases h
    exact .idle
  | true =>
    have hguard := (stepGuard_iff q s).mp hg
    cases q with
    | framesync =>
      rw [execStepFramesync_of_guard hg] at h
      cases h
      rcases framesyncStep_cases s with hs | hs | hs <;> rw [hs]
      · exact .sync hq hguard
      · exact .skipAfterBoth hq hguard
      · exact .skip hq hguard
    | downchirp0 =>
      rw [execStepDownchirp0_of_guard hg] at h
      cases h
      exact .downchirp0 hq hguard
    | downchirp1 =>
      rw [execStepDownchirp1_of_guard hg] at h
      obtain ⟨u, hu, hnext⟩ := andThen_eq_next h
      obtain ⟨hfree, hcap, rfl⟩ := allocBuf_eq_next hu
      cases hnext
      exact .downchirp1 hq hguard (by simpa using hfree) (by simpa using hcap)
    | quarterchirp =>
      rw [execStepQuarterchirp_of_guard hg] at h
      cases h
      exact .quarterchirp hq hguard
    | datasymbols => exact coreMove_of_datasymbols hq hg h

/-- The engine's turn, where it answers a next state, makes one of the moves. -/
theorem coreMove_of_coreTurn {s t : State} (h : coreTurn s = .next t) : CoreMove s t := by
  cases hq : SeqState.ofCode s.seq with
  | some q =>
    have hcode := code_of_ofCode hq
    rw [coreTurn_of_code hcode] at h
    exact coreMove_of_exec hcode h
  | none =>
    rw [coreTurn_of_reserved hq] at h
    split at h
    · cases h
    · cases h
      exact .idle

/-- An inactive core does nothing on its turn (10_state.md R27). -/
theorem coreTurn_of_inactive {s : State} (h : s.active = false) : coreTurn s = .next s := by
  have hguard : ∀ q, stepGuard q s = false := fun q => by simp [stepGuard, h]
  cases hq : SeqState.ofCode s.seq with
  | some q => rw [coreTurn_of_code (code_of_ofCode hq), exec_stepInstr_of_not_guard (hguard q)]
  | none => rw [coreTurn_of_reserved hq, if_neg (by simp [hguard])]

/-! ## A host access (45_host_interface.md R156) -/

/-- The protocol state an accepted activation sets (70_reset_and_hazards.md R200). -/
def restarted (s : State) : State :=
  { s with seq := SeqState.code .framesync, active := true, prev := 0#16, symcount := 0#16, mtuL := 0#16 }

/-- The next states of a host access with the command word `w`. -/
inductive HostMove (w : Hcw) (s : State) : State → Prop
  /-- A read returns one word (20_memory.md R63). -/
  | read (d : Word32) (r : Reg) (v : Word32) (hw : decode (.hcw w) = .ok (readCommand d r)) :
      HostMove w s (respond v s)
  /-- A write without an effect: to a read-only register, or to STATUS with DATA[8] = 0. -/
  | ignored : HostMove w s s
  /-- WR_CTRL without DATA[0] writes the enables alone (R158). -/
  | enables (d : Word32) (hw : decode (.hcw w) = .ok (.wrCtrl d)) (ha : ctrlActivate d = false) :
      HostMove w s { s with rawEn := ctrlRawEn d, decEn := ctrlDecEn d }
  /-- A refused activation (R159). -/
  | activationRefused (d : Word32) (hw : decode (.hcw w) = .ok (.wrCtrl d)) (ha : ctrlActivate d = true)
      (hmtu : s.mtu = 0#16) :
      HostMove w s (raiseError .actUnconfigured (Reg.addr .ctrl)
        { s with rawEn := ctrlRawEn d, decEn := ctrlDecEn d })
  /-- An accepted activation (R159, 70_reset_and_hazards.md R200). -/
  | activated (d : Word32) (hw : decode (.hcw w) = .ok (.wrCtrl d)) (ha : ctrlActivate d = true)
      (hmtu : s.mtu ≠ 0#16) :
      HostMove w s (discardBuf (restarted { s with rawEn := ctrlRawEn d, decEn := ctrlDecEn d }))
  /-- WR_STATUS with DATA[8] (R161). -/
  | cleared (d : Word32) (hw : decode (.hcw w) = .ok (.wrStatus d)) (hc : statusErrClear d = true) :
      HostMove w s (clearError s)
  /-- WR_SYNCWORD (R164). -/
  | syncwordSet (d : Word32) (hw : decode (.hcw w) = .ok (.wrSyncword d)) :
      HostMove w s { s with syncword := syncwordOperand d }
  /-- WR_MTU with a legal value (R165). -/
  | mtuSet (d : Word32) (hw : decode (.hcw w) = .ok (.wrMtu d)) (hnz : mtuOperand d ≠ 0#16)
      (hmax : (mtuOperand d).toNat ≤ s.params.mtuMax) : HostMove w s { s with mtu := mtuOperand d }
  /-- WR_MTU with another value (R165). -/
  | mtuRefused (d : Word32) (hw : decode (.hcw w) = .ok (.wrMtu d))
      (hv : mtuOperand d = 0#16 ∨ s.params.mtuMax < (mtuOperand d).toNat) :
      HostMove w s (raiseError .mtuInvalid (Reg.addr .mtu) s)
  /-- A refused write (R176). -/
  | writeRefused (cause : ErrCause) : HostMove w s (raiseError cause w.addr s)
  /-- A refused read (R176). -/
  | readRefused (cause : ErrCause) : HostMove w s (respond 0#32 (raiseError cause w.addr s))

theorem hostMove_refuseAccess (cause : ErrCause) (w : Hcw) (s : State) :
    HostMove w s (refuseAccess cause w s) := by
  unfold refuseAccess
  split
  · exact .writeRefused cause
  · exact .readRefused cause

theorem exec_readCommand (d : Word32) (r : Reg) (s : State) :
    ∃ v, exec (readCommand d r) s = .next (respond v s) := by
  cases r <;> exact ⟨_, rfl⟩

theorem hostMove_of_wrCtrl {w : Hcw} {d : Word32} {s t : State} (hw : decode (.hcw w) = .ok (.wrCtrl d))
    (h : exec (.wrCtrl d) s = .next t) : HostMove w s t := by
  cases h
  cases ha : ctrlActivate d with
  | false => exact .enables d hw ha
  | true =>
    rw [if_pos rfl]
    rcases activate_cases { s with rawEn := ctrlRawEn d, decEn := ctrlDecEn d } with ⟨hmtu, hs⟩ | ⟨hmtu, hs⟩
    · rw [hs]
      exact .activationRefused d hw ha hmtu
    · rw [hs]
      exact .activated d hw ha hmtu

theorem hostMove_of_wrStatus {w : Hcw} {d : Word32} {s t : State}
    (hw : decode (.hcw w) = .ok (.wrStatus d)) (h : exec (.wrStatus d) s = .next t) : HostMove w s t := by
  cases h
  cases hc : statusErrClear d with
  | false => exact .ignored
  | true => exact .cleared d hw hc

theorem hostMove_of_wrMtu {w : Hcw} {d : Word32} {s t : State} (hw : decode (.hcw w) = .ok (.wrMtu d))
    (h : exec (.wrMtu d) s = .next t) : HostMove w s t := by
  change execWrMtu d s = .next t at h
  unfold execWrMtu at h
  split at h
  case isTrue hv =>
    cases h
    exact .mtuRefused d hw hv
  case isFalse hv =>
    obtain ⟨hnz, hmax⟩ := not_or.mp hv
    cases h
    exact .mtuSet d hw hnz (not_lt.mp hmax)

/-- A host access, where it answers a next state, makes one of the moves. -/
theorem hostMove_of_hostAccess {w : Hcw} {s t : State} (h : hostAccess w s = .next t) : HostMove w s t := by
  unfold hostAccess at h
  cases hw : decode (.hcw w) with
  | ok i =>
    rw [hw] at h
    obtain ⟨r, -, hi⟩ := decodeHcw_eq_ok hw
    split at hi <;> subst hi
    case isTrue =>
      cases r with
      | ctrl => exact hostMove_of_wrCtrl hw h
      | status => exact hostMove_of_wrStatus hw h
      | mtu => exact hostMove_of_wrMtu hw h
      | syncword =>
        cases h
        exact .syncwordSet _ hw
      | id | mtuLatched | symcount | prevValue | mtuMax =>
        cases h
        exact .ignored
    case isFalse =>
      obtain ⟨v, hv⟩ := exec_readCommand w.data r s
      cases hv.symm.trans h
      exact .read w.data r v hw
  | reject e =>
    rw [hw] at h
    cases e with
    | busAlign | busDecode =>
      cases h
      exact hostMove_refuseAccess _ w s
    | illegalState => cases h

/-! ## A port's transition (45_host_interface.md R178) -/

/-- The next states of a transition of the sample source or of a sink. -/
inductive PortMove (s : State) : State → Prop
  | supply (xs : List Sample) : PortMove s (supplyInput xs s)
  | rawSpace (n : Nat) : PortMove s { s with rawFree := n }
  | decSpace (n : Nat) : PortMove s { s with decFree := n }
  | frameSink (b : Bool) : PortMove s { s with frameReady := b }

/-! ## Any transition (20_memory.md R67) -/

/-- A step is a host access with the word at the agenda's head, or a move of the engine or of a port; each from
the state with the agenda's head taken off. -/
theorem step_moves {s t : State} (h : step s = .next t) :
    (∃ w, s.agenda = .host w :: s.agenda.tail ∧ HostMove w { s with agenda := s.agenda.tail } t) ∨
    ((∀ w rest, s.agenda ≠ .host w :: rest) ∧
      (CoreMove { s with agenda := s.agenda.tail } t ∨ PortMove { s with agenda := s.agenda.tail } t)) := by
  cases hs : s.agenda with
  | nil =>
    have hself : { s with agenda := [] } = s := by rw [← hs]
    rw [step, advance, hs] at h
    refine .inr ⟨nofun, .inl ?_⟩
    rw [List.tail_nil, hself]
    exact coreMove_of_coreTurn h
  | cons e rest =>
    rw [step, advance, hs] at h
    cases e with
    | host w => exact .inl ⟨w, rfl, hostMove_of_hostAccess h⟩
    | core => exact .inr ⟨nofun, .inl (coreMove_of_coreTurn h)⟩
    | supply xs =>
      cases h
      exact .inr ⟨nofun, .inr (.supply xs)⟩
    | rawSpace n =>
      cases h
      exact .inr ⟨nofun, .inr (.rawSpace n)⟩
    | decSpace n =>
      cases h
      exact .inr ⟨nofun, .inr (.decSpace n)⟩
    | frameSink b =>
      cases h
      exact .inr ⟨nofun, .inr (.frameSink b)⟩

end Sys2Proof.Machine

/-! PROOFS. What no transition changes: the tables, the configuration outside host accesses, and ACTIVE outside
an accepted activation. -/

namespace Sys2Proof.Machine

/-- What only the host writes: SYNCWORD, MTU, the enables, the error record and the responses. -/
def SameConfiguration (s t : State) : Prop :=
  t.syncword = s.syncword ∧ t.mtu = s.mtu ∧ t.rawEn = s.rawEn ∧ t.decEn = s.decEn ∧
    errRecord t = errRecord s ∧ t.responses = s.responses

/-! ## The engine's turn -/

theorem CoreMove.sameConfiguration {s t : State} (h : CoreMove s t) : SameConfiguration s t := by
  cases h with
  | idle => exact ⟨rfl, rfl, rfl, rfl, rfl, rfl⟩
  | sync | skip | skipAfterBoth | downchirp0 | downchirp1 | quarterchirp =>
    simp [SameConfiguration, errRecord]
  | symbol | lastSymbol => simp [SameConfiguration, errRecord, symbolStored]

theorem CoreMove.tables {s t : State} (h : CoreMove s t) : t.up = s.up ∧ t.down = s.down := by
  cases h with
  | idle => exact ⟨rfl, rfl⟩
  | sync | skip | skipAfterBoth | downchirp0 | downchirp1 | quarterchirp => simp
  | symbol | lastSymbol => simp [symbolStored]

theorem CoreMove.active_eq {s t : State} (h : CoreMove s t) : t.active = s.active := by
  cases h with
  | idle => rfl
  | sync | skip | skipAfterBoth | downchirp0 | downchirp1 | quarterchirp => simp
  | symbol | lastSymbol => simp [symbolStored]

/-! ## A host access -/

theorem HostMove.tables {w : Hcw} {s t : State} (h : HostMove w s t) : t.up = s.up ∧ t.down = s.down := by
  cases h with
  | read | ignored | enables | cleared | syncwordSet | mtuSet => exact ⟨rfl, rfl⟩
  | activated => simp [restarted]
  | activationRefused | mtuRefused | writeRefused | readRefused => simp

/-- A host access leaves ACTIVE as it is, or is an accepted activation and sets it. -/
theorem HostMove.active_cases {w : Hcw} {s t : State} (h : HostMove w s t) :
    t.active = s.active ∨
    (t.active = true ∧ ∃ d, decode (.hcw w) = .ok (.wrCtrl d) ∧ ctrlActivate d = true ∧ s.mtu ≠ 0#16) := by
  cases h with
  | activated d hw ha hmtu => exact .inr ⟨by simp [restarted], d, hw, ha, hmtu⟩
  | read | ignored | enables | cleared | syncwordSet | mtuSet => exact .inl rfl
  | activationRefused | mtuRefused | writeRefused | readRefused => exact .inl (by simp)

/-! ## A port's transition -/

theorem PortMove.sameConfiguration {s t : State} (h : PortMove s t) : SameConfiguration s t := by
  cases h with
  | supply | rawSpace | decSpace | frameSink => exact ⟨rfl, rfl, rfl, rfl, rfl, rfl⟩

theorem PortMove.tables {s t : State} (h : PortMove s t) : t.up = s.up ∧ t.down = s.down := by
  cases h with
  | supply | rawSpace | decSpace | frameSink => exact ⟨rfl, rfl⟩

theorem PortMove.active_eq {s t : State} (h : PortMove s t) : t.active = s.active := by
  cases h with
  | supply | rawSpace | decSpace | frameSink => rfl

/-! ## Any transition -/

/-- A step leaves ACTIVE as it is, or performs an accepted activation, which sets it. -/
theorem step_active_cases {s t : State} (h : step s = .next t) :
    t.active = s.active ∨
    (t.active = true ∧ ∃ (w : Hcw) (rest : List Event) (d : Word32), s.agenda = .host w :: rest ∧
      decode (.hcw w) = .ok (.wrCtrl d) ∧ ctrlActivate d = true ∧ s.mtu ≠ 0#16) := by
  rcases step_moves h with ⟨w, hs, hmove⟩ | ⟨-, hmove | hmove⟩
  · rcases hmove.active_cases with heq | ⟨hset, d, hw, ha, hmtu⟩
    · exact .inl heq
    · exact .inr ⟨hset, w, _, d, hs, hw, ha, hmtu⟩
  · exact .inl hmove.active_eq
  · exact .inl hmove.active_eq

/-- An accepted ACTIVATE answers an active state. -/
theorem exec_wrCtrl_activates {s : State} {d : Word32} (ha : ctrlActivate d = true) (hmtu : s.mtu ≠ 0#16) :
    ∃ t, exec (.wrCtrl d) s = .next t ∧ t.active = true := by
  refine ⟨activate { s with rawEn := ctrlRawEn d, decEn := ctrlDecEn d }, ?_, ?_⟩
  · change execWrCtrl d s = _
    simp [execWrCtrl, ha]
  · rcases activate_cases { s with rawEn := ctrlRawEn d, decEn := ctrlDecEn d } with ⟨hzero, -⟩ | ⟨-, hs⟩
    · exact absurd hzero hmtu
    · rw [hs]
      simp

/-- Settles O60: each kind of move is looked at once, and only a host access may touch the configuration. -/
theorem tablesAndConfigurationAreStable : Obligations.TablesAndConfigurationAreStable := by
  intro s t h
  rcases step_moves h with ⟨w, hs, hmove⟩ | ⟨-, hmove | hmove⟩
  · obtain ⟨hup, hdown⟩ := hmove.tables
    exact ⟨hup, hdown, fun hno => absurd hs (hno w _)⟩
  · obtain ⟨hup, hdown⟩ := hmove.tables
    exact ⟨hup, hdown, fun _ => hmove.sameConfiguration⟩
  · obtain ⟨hup, hdown⟩ := hmove.tables
    exact ⟨hup, hdown, fun _ => hmove.sameConfiguration⟩

/-- Settles O58, from the two ways a step can leave ACTIVE. -/
theorem activeIsSetByActivationOnly : Obligations.ActiveIsSetByActivationOnly := by
  refine ⟨fun s t hs h => ?stays, fun s t hs h ht => ?sets, fun _ _ ha hmtu => exec_wrCtrl_activates ha hmtu,
    fun _ => rfl, fun s hs hagenda => ?idle⟩
  case stays =>
    rcases step_active_cases h with heq | ⟨hset, -⟩
    · rw [heq, hs]
    · exact hset
  case sets =>
    rcases step_active_cases h with heq | ⟨-, hactivation⟩
    · rw [heq, hs] at ht
      cases ht
    · exact hactivation
  case idle =>
    rw [step, advance, hagenda]
    exact coreTurn_of_inactive hs

end Sys2Proof.Machine

/-! PROOFS. The invariant of 10_state.md R48: it holds right after construction, and every transition keeps it.

A step of the engine passes through states in which the code in `seq` is no longer the right one. The invariant is
therefore cut in two: `MidStep`, which does not speak of the sequencer state and holds all through a step, and
`AtState q`, which says what the frame in progress is like in the sequencer state `q`. -/

namespace Sys2Proof.Machine

/-! ## Codes of sequencer states -/

theorem code_inj {q r : SeqState} : q.code = r.code ↔ q = r := by
  constructor
  · intro h
    have hq := ofCode_code q
    rw [h, ofCode_code] at hq
    exact (Option.some.inj hq).symm
  · exact congrArg SeqState.code

theorem afterSync_code (q : SeqState) : afterSync q.code = true ↔ q ≠ .framesync := by
  cases q <;> decide

/-! ## The invariant's two halves, for an active core -/

/-- The invariants that do not depend on the sequencer state and hold all through a step. -/
structure MidStep (s : State) : Prop where
  active : s.active = true
  mtuLegal : s.mtu.toNat ≤ s.params.mtuMax
  configured : s.mtu ≠ 0#16
  upGenerated : s.up = upTable s.params
  downGenerated : s.down = downTable s.params
  windowWf : slotsWf 0 s.params.size s.window = true
  bufWf : slotsWf 0 s.params.mtuMax s.buf = true
  inputPort : ∀ x ∈ s.input, portSample s.params.num x = x

/-- What the frame in progress is like in the sequencer state `q`. -/
structure AtState (q : SeqState) (s : State) : Prop where
  frameLength : q ≠ .framesync → 1 ≤ s.mtuL.toNat ∧ s.mtuL.toNat ≤ s.params.mtuMax
  countBelow : q = .datasymbols → s.symcount.toNat < s.mtuL.toNat
  bufferExact : s.bufAlloc = bufferState q.code
  appended : q = .datasymbols → ∀ k < s.symcount.toNat, (getSlot k s.buf).isSome

theorem State.Inv.midStep {s : State} (h : s.Inv) (ha : s.active = true) : MidStep s :=
  { h with active := ha, configured := h.activeConfigured ha }

theorem State.Inv.atState {s : State} {q : SeqState} (h : s.Inv) (hq : s.seq = q.code) : AtState q s where
  frameLength hne := h.frameLength (by rw [hq]; exact (afterSync_code q).mpr hne)
  countBelow heq := h.countBelow (by rw [hq, heq])
  bufferExact := by rw [← hq]; exact h.bufferExact
  appended heq := h.appended (by rw [hq, heq])

theorem inv_of_midStep_atState {s : State} {q : SeqState} (hm : MidStep s) (hf : AtState q s)
    (hq : s.seq = q.code) (hprev : s.prev.toNat < s.params.size) : s.Inv :=
  { hm with
    legalCode := by simp [hq]
    prevBelow := hprev
    frameLength := fun h => hf.frameLength ((afterSync_code q).mp (hq ▸ h))
    countBelow := fun h => hf.countBelow (code_inj.mp (hq ▸ h))
    bufferExact := by rw [hq]; exact hf.bufferExact
    inactive := fun h => absurd hm.active (by simp [h])
    activeConfigured := fun _ => hm.configured
    appended := fun h => hf.appended (code_inj.mp (hq ▸ h)) }

/-! ## What keeps the first half through a step -/

/-- Feeding a block of at most N samples. -/
theorem MidStep.feedFrom {s : State} (h : MidStep s) {xs : List Sample} (hlen : xs.length ≤ s.params.size) :
    MidStep (feedFrom 0 xs s) := by
  have hwf := slotsWf_feedFrom 0 xs s (by omega) h.windowWf
  rw [feedFrom_eq]
  exact { h with windowWf := hwf }

theorem MidStep.prologue {s : State} (h : MidStep s) (q : SeqState) : MidStep (prologue q s) :=
  h.feedFrom (by simp)

theorem MidStep.secondWindow {s : State} (h : MidStep s) : MidStep (secondWindow s) :=
  h.feedFrom (by simp)

theorem MidStep.symbolStored {s : State} (h : MidStep s) (hcap : s.symcount.toNat < s.params.mtuMax) :
    MidStep (symbolStored s) :=
  have hwf := (h.prologue .datasymbols).windowWf
  { h with
    windowWf := by rwa [prologue_params] at hwf
    bufWf := slotsWf_putSlot (by omega) hcap _ h.bufWf }

theorem MidStep.epilogue {s : State} (h : MidStep s) (plan : StepPlan) (v : Nat) :
    MidStep (epilogue plan v s) :=
  { h with inputPort := fun x hx => h.inputPort x (List.mem_of_mem_drop hx) }

/-! ## What moves the frame in progress from one sequencer state to another -/

theorem AtState.feedFrom {q : SeqState} {s : State} (h : AtState q s) (i : Nat) (xs : List Sample) :
    AtState q (feedFrom i xs s) := by
  rw [feedFrom_eq]
  exact { h with }

theorem AtState.prologue {q : SeqState} {s : State} (h : AtState q s) (r : SeqState) :
    AtState q (prologue r s) := h.feedFrom _ _

theorem AtState.secondWindow {q : SeqState} {s : State} (h : AtState q s) : AtState q (secondWindow s) :=
  h.feedFrom _ _

/-- In FRAMESYNC nothing is asked but that no buffer is allocated. -/
theorem atState_framesync {s : State} (h : s.bufAlloc = false) : AtState .framesync s where
  frameLength hne := absurd rfl hne
  countBelow := nofun
  bufferExact := h
  appended := nofun

/-- Full sync latches a legal frame length (R127). -/
theorem AtState.latch {s : State} {m : BitVec 16} (h : AtState .framesync s) (hnz : m ≠ 0#16)
    (hmax : m.toNat ≤ s.params.mtuMax) : AtState .downchirp0 { s with mtuL := m } where
  frameLength _ := ⟨Nat.one_le_iff_ne_zero.mpr fun h0 => hnz (BitVec.eq_of_toNat_eq h0), hmax⟩
  countBelow := nofun
  bufferExact := h.bufferExact
  appended := nofun

theorem AtState.secondDownchirp {s : State} (h : AtState .downchirp0 s) : AtState .downchirp1 s where
  frameLength _ := h.frameLength nofun
  countBelow := nofun
  bufferExact := h.bufferExact
  appended := nofun

/-- ALLOC at the end of the second down-chirp (R133). -/
theorem AtState.alloc {s : State} (h : AtState .downchirp1 s) :
    AtState .quarterchirp { forgetBuf s with bufAlloc := true } where
  frameLength _ := h.frameLength nofun
  countBelow := nofun
  bufferExact := rfl
  appended := nofun

/-- SYMCOUNT becomes 0 at the end of the quarter chirp (R136), below the latched length. -/
theorem AtState.firstSymbol {s : State} (h : AtState .quarterchirp s) :
    AtState .datasymbols { s with symcount := 0#16 } where
  frameLength _ := h.frameLength nofun
  countBelow _ := (h.frameLength nofun).1
  bufferExact := h.bufferExact
  appended _ k hk := absurd hk (Nat.not_lt_zero k)

/-- Below the frame's length SYMCOUNT does not wrap. -/
theorem symcount_succ_toNat {s : State} (h : s.symcount.toNat < s.mtuL.toNat) :
    (s.symcount + 1#16).toNat = s.symcount.toNat + 1 := by
  bv_omega

/-- A symbol before the last leaves every entry below the new count appended. -/
theorem AtState.symbolStored {s : State} (h : AtState .datasymbols s)
    (hcount : s.symcount.toNat + 1 < s.mtuL.toNat) : AtState .datasymbols (symbolStored s) where
  frameLength _ := h.frameLength nofun
  countBelow _ := (symcount_succ_toNat (h.countBelow rfl)).trans_lt hcount
  bufferExact := h.bufferExact
  appended _ k hk := by
    have hk : k < s.symcount.toNat + 1 := by rwa [← symcount_succ_toNat (h.countBelow rfl)]
    change (getSlot k (putSlot s.symcount.toNat _ s.buf)).isSome
    rcases Nat.lt_succ_iff_lt_or_eq.mp hk with hlt | rfl
    · rw [getSlot_putSlot_other hlt.ne]
      exact h.appended rfl k hlt
    · rw [getSlot_putSlot_same]
      rfl

/-! ## Every move keeps the invariant -/

/-- A step ends with the epilogue, which makes the plan's next state the sequencer's and the first detection
PREV. -/
theorem inv_epilogue {s u : State} {plan : StepPlan} {q : SeqState} (hm : MidStep u) (hf : AtState plan.next u)
    (hp : u.params = s.params) : (epilogue plan (detectValue (prologue q s)) u).Inv := by
  have hbelow : detectValue (prologue q s) < u.params.size := by
    simpa [hp] using detectValue_lt (prologue q s)
  refine inv_of_midStep_atState (hm.epilogue _ _) { hf with } rfl ?_
  have hfits : detectValue (prologue q s) < 2 ^ 16 := hbelow.trans_le (size_le _)
  rwa [epilogue_prev, BitVec.toNat_ofNat, Nat.mod_eq_of_lt hfits]

theorem CoreMove.inv {s t : State} (h : CoreMove s t) (hi : s.Inv) : t.Inv := by
  cases h with
  | idle => exact hi
  | sync hq hg =>
    have hm := ((hi.midStep hg.1).prologue .framesync).secondWindow
    have hf := ((hi.atState hq).prologue .framesync).secondWindow
    have hmtu := hi.activeConfigured hg.1
    exact inv_epilogue { hm with } (hf.latch hmtu (by simpa using hi.mtuLegal))
      (by simp)
  | skip hq hg =>
    exact inv_epilogue ((hi.midStep hg.1).prologue _) ((hi.atState hq).prologue _)
      (by simp)
  | skipAfterBoth hq hg =>
    exact inv_epilogue ((hi.midStep hg.1).prologue _).secondWindow ((hi.atState hq).prologue _).secondWindow
      (by simp)
  | downchirp0 hq hg =>
    exact inv_epilogue ((hi.midStep hg.1).prologue _) ((hi.atState hq).prologue _).secondDownchirp
      (by simp)
  | downchirp1 hq hg =>
    have hm := (hi.midStep hg.1).prologue .downchirp1
    exact inv_epilogue { hm with bufWf := rfl } ((hi.atState hq).prologue _).alloc
      (by simp)
  | quarterchirp hq hg =>
    have hm := (hi.midStep hg.1).prologue .quarterchirp
    exact inv_epilogue { hm with } ((hi.atState hq).prologue _).firstSymbol
      (by simp)
  | symbol hq hg halloc hcount hcap =>
    exact inv_epilogue ((hi.midStep hg.1).symbolStored hcap) ((hi.atState hq).symbolStored hcount)
      rfl
  | lastSymbol hq hg halloc hcount hcap =>
    have hm := (hi.midStep hg.1).symbolStored (by omega)
    exact inv_epilogue { hm with bufWf := rfl } (atState_framesync rfl)
      rfl

theorem State.Inv.raiseError {s : State} (h : s.Inv) (c : ErrCause) (a : BitVec 8) :
    (raiseError c a s).Inv := by
  rw [raiseError_eq]
  exact { h with }

theorem State.Inv.respond {s : State} (h : s.Inv) (v : Word32) : (respond v s).Inv := { h with }

/-- The enables are no part of the invariant. -/
theorem State.Inv.enables {s : State} (h : s.Inv) (raw dec : Bool) :
    State.Inv { s with rawEn := raw, decEn := dec } := { h with }

theorem MidStep.discardBuf {s : State} (h : MidStep s) : MidStep (discardBuf s) := by
  unfold Machine.discardBuf
  split
  · exact { h with bufWf := rfl }
  · exact h

/-- An accepted activation leaves the protocol state of construction, with a configured MTU. -/
theorem State.Inv.activated {s : State} (h : s.Inv) (hmtu : s.mtu ≠ 0#16) : (discardBuf (restarted s)).Inv := by
  have hmid : MidStep (restarted s) := { h with active := rfl, configured := hmtu }
  exact inv_of_midStep_atState hmid.discardBuf (atState_framesync (discardBuf_bufAlloc _))
    (discardBuf_seq _) (by simp [restarted, size_pos])

theorem HostMove.inv {w : Hcw} {s t : State} (h : HostMove w s t) (hi : s.Inv) : t.Inv := by
  cases h with
  | read d r v => exact hi.respond v
  | ignored => exact hi
  | enables d => exact hi.enables _ _
  | activationRefused d => exact (hi.enables _ _).raiseError _ _
  | activated d hw ha hmtu => exact (hi.enables (ctrlRawEn d) (ctrlDecEn d)).activated hmtu
  | cleared => exact { hi with }
  | syncwordSet => exact { hi with }
  | mtuSet d hw hnz hmax => exact { hi with mtuLegal := hmax, activeConfigured := fun _ => hnz }
  | mtuRefused => exact hi.raiseError _ _
  | writeRefused cause => exact hi.raiseError _ _
  | readRefused cause => exact (hi.raiseError _ _).respond _

theorem PortMove.inv {s t : State} (h : PortMove s t) (hi : s.Inv) : t.Inv := by
  cases h with
  | supply xs =>
    refine { hi with inputPort := fun x hx => ?_ }
    rcases List.mem_append.mp hx with hold | hnew
    · exact hi.inputPort x hold
    · obtain ⟨y, -, rfl⟩ := List.mem_map.mp hnew
      exact portSample_twice _ y
  | rawSpace | decSpace | frameSink => exact { hi with }

/-- Settles O56: the invariant does not speak of the agenda, and every move from a state with it keeps it. -/
theorem invariantIsKept : Obligations.InvariantIsKept := by
  intro s t hi h
  have htail : State.Inv { s with agenda := s.agenda.tail } := { hi with }
  rcases step_moves h with ⟨w, -, hmove⟩ | ⟨-, hmove | hmove⟩
  · exact hmove.inv htail
  · exact hmove.inv htail
  · exact hmove.inv htail

/-- Settles O55: the core is inactive, the tables are GEN's, and the sparse arrays and the input are empty. -/
theorem invariantAtConstruction : Obligations.InvariantAtConstruction := fun p =>
  { legalCode := by simp [State.construct]
    prevBelow := size_pos p
    frameLength := fun h => absurd rfl ((afterSync_code .framesync).mp h)
    countBelow := fun h => nomatch (code_inj (q := .framesync)).mp h
    bufferExact := rfl
    inactive := fun _ => ⟨rfl, rfl, rfl, rfl, rfl⟩
    mtuLegal := Nat.zero_le _
    activeConfigured := nofun
    upGenerated := rfl
    downGenerated := rfl
    windowWf := rfl
    bufWf := rfl
    appended := fun _ k hk => absurd hk (Nat.not_lt_zero k)
    inputPort := nofun }

end Sys2Proof.Machine

/-! PROOFS. The memory of 20_memory.md: what the ports carry in (R59), and where an access to an entry that BUF
or W does not have stops (R53, log entry 10). -/

namespace Sys2Proof.Machine

/-! ## The ports' transitions (20_memory.md R59, 45_host_interface.md R178) -/

/-- A step with an event at the agenda's head performs that event, from the state with the event taken off. -/
theorem step_of_agenda {s : State} {e : Event} {rest : List Event} (h : s.agenda = e :: rest) :
    step s = perform e { s with agenda := rest } := by
  rw [step, advance, h]

/-- An ideal instance's port takes every sample as it is. -/
theorem portSample_of_ideal {n : Numerics} (h : n.real = .ideal) (x : Sample) : portSample n x = x := by
  rw [portSample, h]

/-- A finite-precision instance's port makes a word of every sample. -/
theorem portSample_of_not_ideal {n : Numerics} (h : n.real ≠ .ideal) (x : Sample) :
    portSample n x = .word (toWord n x) := by
  unfold portSample
  cases hr : n.real with
  | ideal => exact absurd hr h
  | finite r => rfl

/-- Settles O10: each event's arm gives the next state, and a value that some word has enters as a word of that
value (30_encoding.md R87). -/
theorem portTransitions : Obligations.PortTransitions := by
  intro s rest
  refine ⟨fun xs h => step_of_agenda h, fun n h => step_of_agenda h, fun n h => step_of_agenda h,
    fun b h => step_of_agenda h, portSample_of_ideal, portSample_word _, fun hfinite z x w hw hx => ?_⟩
  have hsome : WordIs s.params.num.fmt w (toComplex z) := ⟨x, hw, hx⟩
  obtain ⟨y, hy, hvalue⟩ := toWord_keepsValue hsome
  exact ⟨toWord s.params.num (.exact z), y, portSample_of_not_ideal hfinite _, hy, hvalue⟩

/-! ## Accesses to entries that do not exist (20_memory.md R53; log entry 10) -/

/-- ALLOC of more than MTU_MAX entries faults where its requirement holds. -/
theorem allocBuf_faults_of_mtuMax_lt {m : BitVec 16} {s : State} (hfree : s.bufAlloc = false)
    (hcap : s.params.mtuMax < m.toNat) : allocBuf m s = .fault .bufCapacity := by
  simp [allocBuf, hfree, hcap]

/-- APPEND at an index from MTU_MAX on faults where its requirement holds. -/
theorem appendBuf_faults_of_mtuMax_le {k : BitVec 16} {v : SymbolWord} {s : State} (halloc : s.bufAlloc = true)
    (hk : k.toNat < s.mtuL.toNat) (hcap : s.params.mtuMax ≤ k.toNat) :
    appendBuf k v s = .fault .bufIndex := by
  simp [appendBuf, halloc, hk, hcap]

/-- EMIT of more than MTU_MAX entries faults where its requirement holds. -/
theorem emitBuf_faults_of_mtuMax_lt {m : BitVec 16} {s : State} (halloc : s.bufAlloc = true)
    (hready : s.frameReady = true) (hcap : s.params.mtuMax < m.toNat) :
    emitBuf m s = .fault .bufCapacity := by
  simp [emitBuf, halloc, hready, hcap]

/-- FEED of a slot from N on faults. -/
theorem execFeed_faults_of_size_le {i : BitVec 16} {x : Sample} {s : State} (hi : s.params.size ≤ i.toNat) :
    execFeed i x s = .fault .windowSlot :=
  if_neg (not_lt.mpr hi)

/-- A DOWNCHIRP1 step faults as the ALLOC of its body does: the prologue leaves BUF_ALLOC and MTU_L alone. -/
theorem execStepDownchirp1_faults_of_mtuMax_lt {s : State} (hg : Guard .downchirp1 s) (hfree : s.bufAlloc = false)
    (hcap : s.params.mtuMax < s.mtuL.toNat) : exec .stepDownchirp1 s = .fault .bufCapacity := by
  have hbody : allocBuf s.mtuL (prologue .downchirp1 s) = .fault .bufCapacity :=
    allocBuf_faults_of_mtuMax_lt (by simpa using hfree) (by simpa using hcap)
  calc exec .stepDownchirp1 s
      = andThen (allocBuf s.mtuL (prologue .downchirp1 s)) _ :=
        execStepDownchirp1_of_guard ((stepGuard_iff _ s).mpr hg)
    _ = .fault .bufCapacity := by rw [hbody, andThen_fault]

/-- A DATASYMBOLS step faults as the APPEND of its body does. -/
theorem execStepDatasymbols_faults_of_mtuMax_le {s : State} (hg : Guard .datasymbols s) (halloc : s.bufAlloc = true)
    (hcount : s.symcount.toNat < s.mtuL.toNat) (hcap : s.params.mtuMax ≤ s.symcount.toNat) :
    exec .stepDatasymbols s = .fault .bufIndex := by
  have hbody (v : SymbolWord) : appendBuf s.symcount v (prologue .datasymbols s) = .fault .bufIndex :=
    appendBuf_faults_of_mtuMax_le (by simpa using halloc) (by simpa using hcount) (by simpa using hcap)
  calc exec .stepDatasymbols s
      = andThen (appendBuf s.symcount _ (prologue .datasymbols s)) _ :=
        execStepDatasymbols_of_guard ((stepGuard_iff _ s).mpr hg)
    _ = .fault .bufIndex := by rw [hbody, andThen_fault]

/-- Settles O28: each micro-operation's own stop, and the two steps whose bodies run ALLOC and APPEND. -/
theorem missingEntriesFault : Obligations.MissingEntriesFault :=
  ⟨fun _ _ hfree hcap => allocBuf_faults_of_mtuMax_lt hfree hcap,
    fun _ _ _ halloc hk hcap => appendBuf_faults_of_mtuMax_le halloc hk hcap,
    fun _ _ halloc hready hcap => emitBuf_faults_of_mtuMax_lt halloc hready hcap,
    fun _ _ _ hi => execFeed_faults_of_size_le hi,
    fun _ hg hfree hcap => execStepDownchirp1_faults_of_mtuMax_lt hg hfree hcap,
    fun _ hg halloc hcount hcap => execStepDatasymbols_faults_of_mtuMax_le hg halloc hcount hcap⟩

end Sys2Proof.Machine

/-! PROOFS. The encoding of 30_encoding.md R72 to R83: one relation between codes and instructions, which the
decoder and the encoder both compute; the match values of the command map; and the order of the decoder's tests. -/

namespace Sys2Proof.Machine

/-! ## Fields of a host command word (30_encoding.md R72) -/

@[simp] theorem hcwWord_isWrite (b : Bool) (r : Reg) (d : Word32) : (hcwWord b r d).isWrite = b := by
  simp only [Hcw.isWrite, hcwWord, BitVec.getLsbD_append]
  simp

@[simp] theorem hcwWord_rsv (b : Bool) (r : Reg) (d : Word32) : (hcwWord b r d).rsv = 0#21 := by
  simp only [Hcw.rsv, hcwWord, BitVec.extractLsb'_append_eq_of_le (by decide : 32 ≤ 42)]
  cases b <;> cases r <;> decide

@[simp] theorem hcwWord_size (b : Bool) (r : Reg) (d : Word32) : (hcwWord b r d).size = 0b10#2 := by
  simp only [Hcw.size, hcwWord, BitVec.extractLsb'_append_eq_of_le (by decide : 32 ≤ 40)]
  cases b <;> cases r <;> decide

@[simp] theorem hcwWord_addr (b : Bool) (r : Reg) (d : Word32) : (hcwWord b r d).addr = r.addr := by
  simp only [Hcw.addr, hcwWord, BitVec.extractLsb'_append_eq_of_le (by decide : 32 ≤ 32)]
  cases b <;> cases r <;> decide

@[simp] theorem hcwWord_data (b : Bool) (r : Reg) (d : Word32) : (hcwWord b r d).data = d :=
  BitVec.extractLsb'_append_eq_right

/-- The fields of R72 cover the word: no bit stands outside of them. -/
theorem hcw_eq_fields (w : Hcw) :
    w = BitVec.ofBool w.isWrite ++ w.rsv ++ w.size ++ w.addr ++ w.data := by
  apply BitVec.eq_of_getLsbD_eq
  intro i hi
  simp only [Hcw.isWrite, Hcw.rsv, Hcw.size, Hcw.addr, Hcw.data, BitVec.getLsbD_append,
    BitVec.getLsbD_extractLsb', BitVec.getLsbD_ofBool]
  obtain rfl | hlt : i = 63 ∨ i < 63 := by omega
  · simp
  · grind

/-- A word with legal RSV and SIZE is the word of its other fields. -/
theorem hcwWord_of_fields {w : Hcw} {r : Reg} (hsize : w.size = 0b10#2) (hrsv : w.rsv = 0#21)
    (haddr : r.addr = w.addr) : hcwWord w.isWrite r w.data = w := by
  conv_rhs => rw [hcw_eq_fields w, hrsv, hsize, ← haddr]
  rfl

/-! ## Codes and their instructions (30_encoding.md R80, R81, R82) -/

/-- The command that RW and a register select (30_encoding.md R80). -/
def hostCommand (rw : Bool) (r : Reg) (d : Word32) : Instr :=
  if rw then writeCommand d r else readCommand d r

/-- The code of each instruction that has one: a command's word and a step operation's state code. -/
inductive CodeOf : Code → Instr → Prop
  | command (rw : Bool) (r : Reg) (d : Word32) : CodeOf (.hcw (hcwWord rw r d)) (hostCommand rw r d)
  | step (q : SeqState) : CodeOf (.step q.code) q.stepInstr

theorem encode_hostCommand (rw : Bool) (r : Reg) (d : Word32) :
    encode (hostCommand rw r d) = some (.hcw (hcwWord rw r d)) := by
  cases rw <;> cases r <;> rfl

theorem encode_stepInstr (q : SeqState) : encode q.stepInstr = some (.step q.code) := by
  cases q <;> rfl

theorem wellFormed_hostCommand (rw : Bool) (r : Reg) (d : Word32) : (hostCommand rw r d).wellFormed = true := by
  cases rw <;> cases r <;> rfl

theorem wellFormed_stepInstr (q : SeqState) : q.stepInstr.wellFormed = true := by
  cases q <;> rfl

/-- The encoder computes the relation. -/
theorem encode_eq_some_iff {i : Instr} {c : Code} : encode i = some c ↔ CodeOf c i := by
  constructor
  · intro h
    cases i with
    | rdId | rdCtrl | rdStatus | rdSyncword | rdMtu | rdMtuLatched | rdSymcount | rdPrevValue | rdMtuMax =>
      cases h
      exact .command false _ _
    | wrId | wrCtrl | wrStatus | wrSyncword | wrMtu | wrMtuLatched | wrSymcount | wrPrevValue | wrMtuMax =>
      cases h
      exact .command true _ _
    | stepFramesync | stepDownchirp0 | stepDownchirp1 | stepQuarterchirp | stepDatasymbols =>
      cases h
      exact .step _
    | gen | dechirp | feed | detect | alloc | append | emit | discard => cases h
  · rintro (⟨rw, r, d⟩ | ⟨q⟩)
    · exact encode_hostCommand rw r d
    · exact encode_stepInstr q

theorem CodeOf.wellFormed {i : Instr} {c : Code} (h : CodeOf c i) : i.wellFormed = true := by
  cases h with
  | command rw r d => exact wellFormed_hostCommand rw r d
  | step q => exact wellFormed_stepInstr q

/-! ## The tests of a command word (30_encoding.md R73) -/

/-- The first test: SIZE is a word and ADDR is a multiple of 4. -/
theorem decodeHcw_of_misaligned {w : Hcw} (h : w.size ≠ 0b10#2 ∨ w.addr.extractLsb' 0 2 ≠ 0b00#2) :
    decodeHcw w = .reject .busAlign := if_pos h

/-- The second test: RSV is 0 and ADDR is mapped. -/
theorem decodeHcw_of_unmapped {w : Hcw} (hsize : w.size = 0b10#2) (hlow : w.addr.extractLsb' 0 2 = 0b00#2)
    (h : w.rsv ≠ 0#21 ∨ Reg.ofAddr w.addr = none) : decodeHcw w = .reject .busDecode := by
  by_cases hrsv : w.rsv = 0#21
  · have hnone := h.resolve_left (not_not.mpr hrsv)
    simp [decodeHcw, hsize, hlow, hnone]
  · simp [decodeHcw, hsize, hlow, hrsv]

theorem addr_aligned (r : Reg) : r.addr.extractLsb' 0 2 = 0b00#2 := by cases r <;> rfl

/-- A word that passes both tests is the command of RW and ADDR. -/
theorem decodeHcw_of_addr {w : Hcw} {r : Reg} (hsize : w.size = 0b10#2) (hrsv : w.rsv = 0#21)
    (haddr : r.addr = w.addr) : decodeHcw w = .ok (hostCommand w.isWrite r w.data) := by
  simp [decodeHcw, hsize, hrsv, ← haddr, addr_aligned, hostCommand]

/-- A word that decodes has the SIZE and RSV that both tests ask for. -/
theorem size_rsv_of_decodeHcw_ok {w : Hcw} {i : Instr} (h : decodeHcw w = .ok i) :
    w.size = 0b10#2 ∧ w.rsv = 0#21 := by
  by_cases halign : w.size ≠ 0b10#2 ∨ w.addr.extractLsb' 0 2 ≠ 0b00#2
  · cases (decodeHcw_of_misaligned halign).symm.trans h
  · simp only [not_or, not_not] at halign
    obtain ⟨hsize, hlow⟩ := halign
    refine ⟨hsize, by_contra fun hrsv => ?_⟩
    cases (decodeHcw_of_unmapped hsize hlow (.inl hrsv)).symm.trans h

/-- The words that decode are the command words, each to its command. -/
theorem decodeHcw_eq_ok_iff {w : Hcw} {i : Instr} :
    decodeHcw w = .ok i ↔ ∃ rw r d, w = hcwWord rw r d ∧ i = hostCommand rw r d := by
  constructor
  · intro h
    obtain ⟨hsize, hrsv⟩ := size_rsv_of_decodeHcw_ok h
    obtain ⟨r, haddr, hi⟩ := decodeHcw_eq_ok h
    exact ⟨w.isWrite, r, w.data, (hcwWord_of_fields hsize hrsv haddr).symm, hi⟩
  · rintro ⟨rw, r, d, rfl, rfl⟩
    simpa using decodeHcw_of_addr (hcwWord_size rw r d) (hcwWord_rsv rw r d) (hcwWord_addr rw r d).symm

/-- The state codes that decode are those of the five states, each to its step operation. -/
theorem decodeStep_eq_ok_iff {c : BitVec 3} {i : Instr} :
    decodeStep c = .ok i ↔ ∃ q : SeqState, c = q.code ∧ i = q.stepInstr := by
  constructor
  · intro h
    cases hq : SeqState.ofCode c with
    | none => simp [decodeStep, hq] at h
    | some q => exact ⟨q, code_of_ofCode hq, by simpa [decodeStep, hq] using h.symm⟩
  · rintro ⟨q, rfl, rfl⟩
    simp [decodeStep]

/-- The decoder computes the relation. -/
theorem decode_eq_ok_iff {c : Code} {i : Instr} : decode c = .ok i ↔ CodeOf c i := by
  constructor
  · intro h
    cases c with
    | hcw w =>
      obtain ⟨rw, r, d, rfl, rfl⟩ := decodeHcw_eq_ok_iff.mp h
      exact .command rw r d
    | step c =>
      obtain ⟨q, rfl, rfl⟩ := decodeStep_eq_ok_iff.mp h
      exact .step q
  · rintro (⟨rw, r, d⟩ | ⟨q⟩)
    · exact decodeHcw_eq_ok_iff.mpr ⟨rw, r, d, rfl, rfl⟩
    · exact decodeStep_eq_ok_iff.mpr ⟨q, rfl, rfl⟩

/-- Settles O1: encoder and decoder compute one relation. -/
theorem encodeThenDecode : Obligations.EncodeThenDecode :=
  fun _ _ h => decode_eq_ok_iff.mpr (encode_eq_some_iff.mp h)

/-- Settles O2, by the same relation, whose instructions are all well formed. -/
theorem decodeThenEncode : Obligations.DecodeThenEncode := by
  intro c i h
  have hcode : CodeOf c i := decode_eq_ok_iff.mp h
  exact ⟨hcode.wellFormed, encode_eq_some_iff.mpr hcode⟩

/-! ## The match values of the command map (30_encoding.md R79) -/

/-- The match value of a command, as R79 writes it, is its word with DATA 0. -/
theorem matchValue_eq_hcwWord (rw : Bool) (r : Reg) :
    ((BitVec.ofBool rw).setWidth 64 <<< 63) ||| (0b10#64 <<< 40) ||| (r.addr.setWidth 64 <<< 32)
      = hcwWord rw r 0#32 := by
  cases rw <;> cases r <;> rfl

/-- The mask clears the low 32 bits. -/
theorem getLsbD_commandMask (i : Nat) :
    (0xFFFFFFFF00000000#64).getLsbD i = (decide (32 ≤ i) && decide (i < 64)) := by
  have : 0xFFFFFFFF00000000#64 = BitVec.allOnes 32 ++ 0#32 := by decide
  rw [this, BitVec.getLsbD_append, BitVec.getLsbD_allOnes, BitVec.getLsbD_zero]
  grind

/-- A word is its masked part with DATA put back. -/
theorem masked_or_data (w : BitVec 64) :
    w &&& 0xFFFFFFFF00000000#64 ||| (w.setWidth 32).setWidth 64 = w := by
  apply BitVec.eq_of_getLsbD_eq
  intro i hi
  simp only [BitVec.getLsbD_or, BitVec.getLsbD_and, getLsbD_commandMask, BitVec.getLsbD_setWidth]
  grind

/-- The mask takes DATA, and nothing else, off a command word. -/
theorem masked_hcwWord (rw : Bool) (r : Reg) (d : Word32) :
    hcwWord rw r d &&& 0xFFFFFFFF00000000#64 = hcwWord rw r 0#32 := by
  apply BitVec.eq_of_getLsbD_eq
  intro i hi
  simp only [hcwWord, BitVec.getLsbD_and, getLsbD_commandMask, BitVec.getLsbD_append]
  grind

/-- A word matches a command exactly if it is that command's word with the word's own DATA. -/
theorem masked_eq_iff (w : BitVec 64) (rw : Bool) (r : Reg) :
    w &&& 0xFFFFFFFF00000000#64 = hcwWord rw r 0#32 ↔ w = hcwWord rw r (w.setWidth 32) := by
  constructor
  · intro h
    calc w = w &&& 0xFFFFFFFF00000000#64 ||| (w.setWidth 32).setWidth 64 := (masked_or_data w).symm
      _ = hcwWord rw r 0#32 ||| (w.setWidth 32).setWidth 64 := by rw [h]
      _ = hcwWord rw r (w.setWidth 32) := (hcwWord_eq rw r _).symm
  · intro h
    rw [h, masked_hcwWord]

/-- DATA is the low half of the word. -/
theorem data_eq_setWidth (w : Hcw) : w.data = w.setWidth 32 := (BitVec.setWidth_eq_extractLsb' (by decide)).symm

/-- Settles O3: the command words are the words that match. -/
theorem legalWordsMatchTheCommandMap : Obligations.LegalWordsMatchTheCommandMap := by
  intro w i
  simp only [matchValue_eq_hcwWord, masked_eq_iff]
  constructor
  · intro h
    obtain ⟨rw, r, d, rfl, hi⟩ := decodeHcw_eq_ok_iff.mp h
    have hd : (hcwWord rw r d).setWidth 32 = d := by rw [← data_eq_setWidth, hcwWord_data]
    exact ⟨rw, r, by rw [hd], by rw [hd]; exact hi⟩
  · rintro ⟨rw, r, hw, hi⟩
    exact decodeHcw_eq_ok_iff.mpr ⟨rw, r, _, hw, hi⟩

/-! ## The tests on the word itself (30_encoding.md R73, R76) -/

/-- The last mapped address is 0x20. -/
theorem ofAddr_eq_none_of_lt {a : BitVec 8} (h : 0x20 < a.toNat) : Reg.ofAddr a = none := by
  cases hr : Reg.ofAddr a with
  | none => rfl
  | some r =>
    have hle : r.addr.toNat ≤ 0x20 := by cases r <;> decide
    rw [addr_of_ofAddr hr] at h
    omega

/-- Each multiple of 4 up to 0x20 is mapped. -/
theorem exists_addr_of_le {a : BitVec 8} (hlow : a.extractLsb' 0 2 = 0b00#2) (hle : a.toNat ≤ 0x20) :
    ∃ r : Reg, r.addr = a := by
  have hmapped : ∀ a : BitVec 8, a.extractLsb' 0 2 = 0b00#2 → a.toNat ≤ 0x20 → (Reg.ofAddr a).isSome := by
    decide
  obtain ⟨r, hr⟩ := Option.isSome_iff_exists.mp (hmapped a hlow hle)
  exact ⟨r, (addr_of_ofAddr hr).symm⟩

/-- The low bits of ADDR, as bits of the word. -/
theorem addr_low (w : Hcw) : w.addr.extractLsb' 0 2 = w.extractLsb' 32 2 := by
  apply BitVec.eq_of_getLsbD_eq
  intro i hi
  simp [Hcw.addr, hi, show i < 8 by omega]

/-- Settles O4: one lemma for each outcome of the tests. -/
theorem decodeTestOrder : Obligations.DecodeTestOrder := by
  intro w
  rw [← addr_low]
  refine ⟨decodeHcw_of_misaligned, fun hsize hlow h => ?_, fun hsize hlow hrsv hle => ?_⟩
  · exact decodeHcw_of_unmapped hsize hlow (h.imp_right ofAddr_eq_none_of_lt)
  · obtain ⟨r, haddr⟩ := exists_addr_of_le hlow hle
    exact ⟨r, haddr, decodeHcw_of_addr hsize hrsv haddr⟩

/-- Settles O5, by running the decoder on each word. -/
theorem specWordsDecode : Obligations.SpecWordsDecode := by
  unfold Obligations.SpecWordsDecode
  decide

/-! ## Micro-operations (30_encoding.md R82) -/

/-- An instruction with a micro-operation's number has no code. -/
theorem encode_eq_none_of_microNumber {i : Instr} {n : BitVec 3} (h : microNumber i = some n) :
    encode i = none := by
  cases i with
  | gen | dechirp | feed | detect | alloc | append | emit | discard => rfl
  | _ => cases h

/-- Settles O6: a code that decoded to a micro-operation would be its code. -/
theorem microOpsHaveNoCode : Obligations.MicroOpsHaveNoCode := by
  refine ⟨⟨rfl, fun _ _ => rfl, fun _ _ => rfl, rfl, fun _ => rfl, fun _ _ => rfl, fun _ => rfl, rfl⟩,
    fun i n h => ?_⟩
  have hnone : encode i = none := encode_eq_none_of_microNumber h
  refine ⟨hnone, fun c hc => ?_⟩
  obtain ⟨-, hsome⟩ := decodeThenEncode c i hc
  cases hnone.symm.trans hsome

end Sys2Proof.Machine

/-! PROOFS. The chirp tables GEN builds (41_chirp_table.md): each table as its list of entries by index, the
closed form of the ideal phases and their symmetry, the conjugate table, and unit magnitude. -/

namespace Sys2Proof.Machine

/-! ## The entries by index (41_chirp_table.md R93, R94) -/

theorem idealUpFrom_eq_map (p : Params) (k i : Nat) (acc : Phase) :
    idealUpFrom p k i acc = (List.range k).map fun n => .exact (ofRoot (rootOf
      ((List.range' i (n + 1)).foldl (fun a m => a + idealIncrement p m) acc))) := by
  induction k generalizing i acc with
  | zero => rfl
  | succ k ih => simp [idealUpFrom, ih, List.range_succ_eq_map, List.range'_succ]

theorem roundedUpFrom_eq_map (p : Params) (k i acc : Nat) :
    roundedUpFrom p k i acc = (List.range k).map fun n => .word (tableWord p.num (Config.phaseExp p.num
      ((List.range' i (n + 1)).foldl
        (fun a m => Config.phaseAdd p.num a (Config.phaseInc p.num p.sf m)) acc))) := by
  induction k generalizing i acc with
  | zero => rfl
  | succ k ih => simp [roundedUpFrom, ih, List.range_succ_eq_map, List.range'_succ]

/-- The sum of the ideal increments up to the `i`-th, in 1/65536 turns with whole turns left in. -/
def idealAngle (p : Params) (i : Nat) : Nat :=
  ∑ m ∈ Finset.range (i + 1), (m + p.size / 2) * (65536 / p.size)

theorem foldl_idealIncrement (p : Params) (k : Nat) :
    (List.range k).foldl (fun a m => a + idealIncrement p m) 0#16
      = BitVec.ofNat 16 (∑ m ∈ Finset.range k, (m + p.size / 2) * (65536 / p.size)) := by
  induction k with
  | zero => rfl
  | succ k ih =>
    rw [List.range_succ, List.foldl_append, ih, Finset.sum_range_succ, BitVec.ofNat_add]
    rfl

theorem upTable_of_ideal {p : Params} (h : p.num.real = .ideal) :
    upTable p = (List.range p.size).map fun i =>
      .exact (ofRoot (rootOf (BitVec.ofNat 16 (idealAngle p i)))) := by
  simp only [upTable, h, idealUpFrom_eq_map, ← List.range_eq_range', foldl_idealIncrement, idealAngle]

theorem upTable_of_not_ideal {p : Params} (h : p.num.real ≠ .ideal) :
    upTable p = (List.range p.size).map fun i => .word (tableWord p.num (Config.phaseExp p.num
      ((List.range (i + 1)).foldl
        (fun a m => Config.phaseAdd p.num a (Config.phaseInc p.num p.sf m)) (Config.phaseZero p.num)))) := by
  cases hr : p.num.real with
  | ideal => exact absurd hr h
  | finite r => simp only [upTable, hr, roundedUpFrom_eq_map, List.range_eq_range']

@[simp] theorem upTable_length (p : Params) : (upTable p).length = p.size := by
  by_cases h : p.num.real = .ideal
  · simp [upTable_of_ideal h]
  · simp [upTable_of_not_ideal h]

@[simp] theorem downTable_length (p : Params) : (downTable p).length = p.size := by simp [downTable]

theorem downTable_getElem? (p : Params) (i : Nat) :
    (downTable p)[i]? = (upTable p)[i]?.map (sampleConj p.num.fmt) := List.getElem?_map

theorem upTable_getElem?_of_ideal {p : Params} (h : p.num.real = .ideal) {i : Nat} (hi : i < p.size) :
    (upTable p)[i]? = some (.exact (ofRoot (rootOf (BitVec.ofNat 16 (idealAngle p i))))) := by
  simp [upTable_of_ideal h, hi]

/-- Settles O36: the finite-precision entries are those of the sequential accumulation. -/
theorem genWritesBothTables : Obligations.GenWritesBothTables := fun s =>
  ⟨rfl, upTable_length _, downTable_length _, fun h i hi => by simp [upTable_of_not_ideal h, hi]⟩

/-! ## The ideal phases in closed form (41_chirp_table.md R95) -/

/-- The angle of entry `i` is the sum of the increments over the real line. -/
theorem phaseVal_idealAngle (p : Params) (i : Nat) :
    phaseVal (BitVec.ofNat 16 (idealAngle p i)) = Complex.exp ((∑ m ∈ Finset.range (i + 1),
      2 * Real.pi * ((m : ℂ) + (p.size : ℂ) / 2) / p.size) * Complex.I) := by
  have hN : (p.size : ℂ) ≠ 0 := by exact_mod_cast (size_pos p).ne'
  have hhalf : ((p.size / 2 : Nat) : ℂ) = (p.size : ℂ) / 2 := by
    have h : p.size = p.size / 2 * 2 := by have := size_quarter p; omega
    rw [eq_div_iff two_ne_zero]
    exact_mod_cast h.symm
  have hstep : ((65536 / p.size : Nat) : ℂ) = 65536 / p.size := by
    rw [eq_div_iff hN]
    exact_mod_cast turn_step p
  rw [phaseVal_ofNat, idealAngle]
  congr 2
  push_cast [hhalf, hstep]
  rw [Finset.mul_sum, Finset.sum_div]
  refine Finset.sum_congr rfl fun m _ => ?_
  field_simp

/-- The series of R95, summed. -/
theorem sum_idealIncrements {n : ℂ} (hn : n ≠ 0) (i : Nat) :
    ∑ m ∈ Finset.range (i + 1), 2 * Real.pi * ((m : ℂ) + n / 2) / n
      = Real.pi * i * (i + 1) / n + Real.pi * (i + 1) := by
  induction i with
  | zero => simp; field_simp
  | succ i ih =>
    rw [Finset.sum_range_succ, ih]
    push_cast
    field_simp
    ring

/-- Settles O37, from the sum of the increments and its closed form. -/
theorem idealUpTableValues : Obligations.IdealUpTableValues := by
  intro p hp i hi
  have hN : (p.size : ℂ) ≠ 0 := by exact_mod_cast (size_pos p).ne'
  refine ⟨_, upTable_getElem?_of_ideal hp hi, ?_, ?_⟩
  · rw [toComplex_ofRoot, rootVal_rootOf, phaseVal_idealAngle, sum_idealIncrements hN]
  · rw [toComplex_ofRoot, rootVal_rootOf, phaseVal_idealAngle]

/-! ## The ideal entries as data: conjugation and symmetry (41_chirp_table.md R96, R100) -/

/-- Half a turn back with the opposite coefficient is the same term. -/
theorem addTerm_sub_half (a : Phase) (c : ℚ) (z : RootSum) :
    addTerm (a - 32768#16, -c) z = addTerm (a, c) z := by
  unfold addTerm
  by_cases h : a.toNat < 32768
  · have hs : ¬(a - 32768#16).toNat < 32768 := by bv_omega
    have ha : a - 32768#16 - 32768#16 = a := by bv_omega
    simp only [h, hs, ha, neg_neg, if_true, if_false]
  · have hs : (a - 32768#16).toNat < 32768 := by bv_omega
    simp only [h, hs, if_true, if_false]

theorem addTerm_nil {a : Phase} {c : ℚ} (ha : a.toNat < 32768) (hc : c ≠ 0) :
    addTerm (a, c) [] = [(a, c)] := by
  simp [addTerm, insertTerm, ha, hc]

/-- The canonical form of a root of unity is one term. -/
theorem rootOf_eq_singleton (a : Phase) :
    ∃ (b : Phase) (c : ℚ), b.toNat < 32768 ∧ c ≠ 0 ∧ rootOf a = [(b, c)] ∧
      addTerm (-b, c) [] = rootOf (-a) := by
  by_cases h : a.toNat < 32768
  · exact ⟨a, 1, h, one_ne_zero, addTerm_nil h one_ne_zero, rfl⟩
  · have hlow : (a - 32768#16).toNat < 32768 := by bv_omega
    have hneg : -(a - 32768#16) = -a - 32768#16 := by bv_omega
    refine ⟨a - 32768#16, -1, hlow, by norm_num, ?_, ?_⟩
    · rw [rootOf, ← addTerm_sub_half, addTerm_nil hlow (by norm_num)]
    · rw [hneg, addTerm_sub_half, rootOf]

theorem rootConj_rootOf (a : Phase) : rootConj (rootOf a) = rootOf (-a) := by
  obtain ⟨b, c, -, -, hroot, hconj⟩ := rootOf_eq_singleton a
  rw [hroot]
  exact hconj

theorem ofRoot_rootOf (a : Phase) : ofRoot (rootOf a) = [([], rootOf a)] := by
  obtain ⟨b, c, hb, hc, hroot, -⟩ := rootOf_eq_singleton a
  have hcollect : collect [(b, c)] = [(b, c)] := addTerm_nil hb hc
  rw [hroot, ofRoot, exInsert, hcollect, exCons, if_neg (List.cons_ne_nil _ _)]

theorem exConj_ofRoot_rootOf (a : Phase) : exConj (ofRoot (rootOf a)) = ofRoot (rootOf (-a)) := by
  simp [ofRoot_rootOf, exConj, rootConj_rootOf]

theorem two_mul_idealAngle (p : Params) (i : Nat) :
    2 * idealAngle p i = (i + 1) * (i + p.size) * (65536 / p.size) := by
  have hhalf : p.size = 2 * (p.size / 2) := by have := size_quarter p; omega
  unfold idealAngle
  generalize 65536 / p.size = t
  induction i with
  | zero => rw [Finset.sum_range_one]; nlinarith
  | succ i ih =>
    rw [Finset.sum_range_succ, mul_add, ih]
    nlinarith

/-- The angles of mirrored entries differ by whole turns (41_chirp_table.md R100). -/
theorem idealAngle_symm {p : Params} {i j : Nat} (h : i + j + 1 = p.size) :
    BitVec.ofNat 16 (idealAngle p i) = BitVec.ofNat 16 (idealAngle p j) := by
  have hdouble (k : Nat) : (2 * idealAngle p k : ℤ) = (k + 1) * (k + p.size) * (65536 / p.size : Nat) := by
    exact_mod_cast two_mul_idealAngle p k
  have hstep : ((65536 / p.size : Nat) : ℤ) * p.size = 65536 := by exact_mod_cast turn_step p
  have hsize : (p.size : ℤ) = i + j + 1 := by exact_mod_cast h.symm
  have hturn : (2 * idealAngle p j : ℤ) + 2 * 65536 * i = 2 * idealAngle p i + 2 * 65536 * j := by
    rw [hdouble, hdouble, ← hstep, hsize]
    ring
  apply BitVec.eq_of_toNat_eq
  rw [BitVec.toNat_ofNat, BitVec.toNat_ofNat]
  omega

theorem upTable_symm {p : Params} (hp : p.num.real = .ideal) {i : Nat} (hi : i < p.size) :
    (upTable p)[i]? = (upTable p)[p.size - 1 - i]? := by
  rw [upTable_getElem?_of_ideal hp hi, upTable_getElem?_of_ideal hp (by omega),
    idealAngle_symm (show i + (p.size - 1 - i) + 1 = p.size by omega)]

/-- The first increment is half a turn. -/
theorem idealAngle_zero (p : Params) : idealAngle p 0 = 32768 := by
  have h := two_mul_idealAngle p 0
  rw [Nat.zero_add, Nat.zero_add, Nat.one_mul, Nat.mul_comm p.size, turn_step] at h
  omega

theorem ofRoot_rootOf_half : ofRoot (rootOf 32768#16) = ofRoot (ofParts ((-1 : Int) : ℚ) ((0 : Int) : ℚ)) := rfl

theorem upTable_first {p : Params} (hp : p.num.real = .ideal) :
    (upTable p)[0]? = some (exactSample (-1) 0) := by
  rw [upTable_getElem?_of_ideal hp (size_pos p), idealAngle_zero, ofRoot_rootOf_half, exactSample]

theorem sampleConj_minus_one (fmt : SampleFmt) :
    sampleConj fmt (exactSample (-1) 0) = exactSample (-1) 0 := by
  rw [exactSample, ← ofRoot_rootOf_half, sampleConj, exConj_ofRoot_rootOf]
  rfl

/-- Settles O39: DOWN has the symmetry and the ends of UP, whose conjugates it holds. -/
theorem chirpTablesAreSymmetric : Obligations.ChirpTablesAreSymmetric := by
  intro p hp
  have hfirst := upTable_first hp
  have hlast : (upTable p)[p.size - 1]? = some (exactSample (-1) 0) :=
    (upTable_symm hp (size_pos p)).symm.trans hfirst
  refine ⟨fun i hi => ⟨upTable_symm hp hi, ?_⟩, hfirst, hlast, ?_, ?_⟩
  · rw [downTable_getElem?, downTable_getElem?, upTable_symm hp hi]
  · rw [downTable_getElem?, hfirst, Option.map_some, sampleConj_minus_one]
  · rw [downTable_getElem?, hlast, Option.map_some, sampleConj_minus_one]

/-! ## The entries of every table (41_chirp_table.md R96, R97) -/

/-- What one entry of a table is. -/
inductive TableEntry (n : Numerics) : Sample → Prop
  | ideal (h : n.real = .ideal) (a : Phase) : TableEntry n (.exact (ofRoot (rootOf a)))
  | rounded (h : n.real ≠ .ideal) (w : BitVec 64) (hw : entryOk n w = true) : TableEntry n (.word w)

theorem tableEntry_of_mem {p : Params} {x : Sample} (hx : x ∈ upTable p) : TableEntry p.num x := by
  by_cases h : p.num.real = .ideal
  · rw [upTable_of_ideal h] at hx
    obtain ⟨i, -, rfl⟩ := List.mem_map.mp hx
    exact .ideal h _
  · rw [upTable_of_not_ideal h] at hx
    obtain ⟨i, -, rfl⟩ := List.mem_map.mp hx
    exact .rounded h _ (entryOk_tableWord h _)

theorem plainWord_of_entryOk {n : Numerics} {w : BitVec 64} (h : entryOk n w = true) :
    plainWord n.fmt w = true := (Bool.and_eq_true_iff.mp h).1

theorem TableEntry.sampleConj_twice {n : Numerics} {x : Sample} (h : TableEntry n x) :
    sampleConj n.fmt (sampleConj n.fmt x) = x := by
  cases h with
  | ideal _ a => simp [sampleConj, exConj_ofRoot_rootOf]
  | rounded _ w _ => exact sampleConj_word_twice _ _

theorem TableEntry.sampleValue_conj {n : Numerics} {x : Sample} (h : TableEntry n x) :
    ∃ z z' : ExactNum, sampleValue n.fmt x = some z ∧ sampleValue n.fmt (sampleConj n.fmt x) = some z' ∧
      toComplex z' = (starRingEnd ℂ) (toComplex z) := by
  cases h with
  | ideal _ a => exact ⟨_, _, rfl, rfl, toComplex_exConj _⟩
  | rounded _ w hw => exact sampleValue_sampleConj (plainWord_of_entryOk hw)

/-- Settles O38, entry by entry. -/
theorem downIsTheConjugate : Obligations.DownIsTheConjugate := by
  intro p i hi
  obtain ⟨x, hx⟩ : ∃ x, (upTable p)[i]? = some x := by simp [hi]
  have hentry := tableEntry_of_mem (List.mem_of_getElem? hx)
  have hdown : (downTable p)[i]? = some (sampleConj p.num.fmt x) := by
    rw [downTable_getElem?, hx, Option.map_some]
  refine ⟨?_, fun hreal hfmt => ?_⟩
  · obtain ⟨z, z', hz, hz', hconj⟩ := hentry.sampleValue_conj
    exact ⟨x, _, z, z', hx, hdown, rfl, hentry.sampleConj_twice.symm, hz, hz', hconj⟩
  · cases hentry with
    | ideal h => exact absurd h hreal
    | rounded _ w _ => exact ⟨w, _, hx, by rw [hdown, hfmt, sampleConj_binary32], rfl⟩

theorem tolTbl_of_ideal {n : Numerics} (h : n.real = .ideal) : tolTbl n = 0 := by simp [tolTbl, h]

@[simp] theorem norm_phaseVal (a : Phase) : ‖phaseVal a‖ = 1 := by
  simp [phaseVal, Complex.norm_exp]

/-- The properties of R97 hold of each entry. -/
theorem TableEntry.hasUnitMagnitude {n : Numerics} {x : Sample} (h : TableEntry n x) :
    ∃ z : ExactNum, sampleValue n.fmt x = some z ∧ nearUnit (tolTbl n) z = true := by
  cases h with
  | ideal hn a =>
    refine ⟨_, rfl, (nearUnit_iff (tolTbl_nonneg n) _).mpr ?_⟩
    simp [norm_phaseVal, tolTbl_of_ideal hn]
  | rounded _ w hw =>
    obtain ⟨-, hnear⟩ := Bool.and_eq_true_iff.mp hw
    cases hv : sampleValue n.fmt (.word w) with
    | none => simp [hv] at hnear
    | some z => exact ⟨z, rfl, by simpa [hv] using hnear⟩

/-- Settles O40, entry by entry. -/
theorem idealTableHasUnitMagnitude : Obligations.IdealTableHasUnitMagnitude := by
  intro p
  refine ⟨List.all_eq_true.mpr fun x hx => ?_, fun x hx => ?_, fun hp => ⟨tolTbl_of_ideal hp, fun x hx => ?_⟩⟩
  · obtain ⟨z, hz, hnear⟩ := (tableEntry_of_mem hx).hasUnitMagnitude
    rw [hz]
    exact hnear
  · obtain ⟨z, hz, hnear⟩ := (tableEntry_of_mem hx).hasUnitMagnitude
    exact ⟨z, hz, (nearUnit_iff (tolTbl_nonneg _) z).mp hnear⟩
  · cases tableEntry_of_mem hx with
    | ideal _ a => exact ⟨_, rfl, by simp [Complex.normSq_eq_norm_sq, norm_phaseVal]⟩
    | rounded h => exact absurd hp h

end Sys2Proof.Machine

/-! PROOFS. The symbol detector (42_symbol_detector.md): what its four micro-operations do, the lowest peak that
every detector answers, and the DFT of a pure tone, to which silence and the dechirped chirps reduce. -/

namespace Sys2Proof.Machine

/-! ## The micro-operations (42_symbol_detector.md R102, R106, R108) -/

/-- Settles O41: the entries are those of the shared dechirping rule. -/
theorem dechirpMultipliesByTheConjugate : Obligations.DechirpMultipliesByTheConjugate := fun s b r =>
  ⟨rfl, dechirpBlock_length b r s,
    fun hin i hi _ _ hx ht hlen => dechirpBlock_getElem? b r s i hin hi hx hlen ht⟩

/-- FEED of a slot that exists performs the one write. -/
theorem exec_feed_of_lt {s : State} {i : BitVec 16} (hi : i.toNat < s.params.size) (x : Sample) :
    exec (.feed i x) s = .next (feedSlot i.toNat (portSample s.params.num x) s) :=
  if_pos hi

theorem windowAt_feedSlot_same (i : Nat) (x : Sample) (s : State) : windowAt (feedSlot i x s) i = x := by
  rw [windowAt, feedSlot_window, getSlot_putSlot_same, Option.getD_some]

theorem windowAt_feedSlot_other {i j : Nat} (h : j ≠ i) (x : Sample) (s : State) :
    windowAt (feedSlot i x s) j = windowAt s j := by
  rw [windowAt, feedSlot_window, getSlot_putSlot_other h, feedSlot_params, windowAt]

/-- Settles O43: the slot written reads back, and the port passes words, and in an ideal realisation everything. -/
theorem feedWritesOneSlot : Obligations.FeedWritesOneSlot := by
  intro s i x hi
  have hsame := windowAt_feedSlot_same i.toNat (portSample s.params.num x) s
  refine ⟨_, exec_feed_of_lt hi x, rfl, hsame, fun hplain => hsame.trans ?_,
    fun j hj => windowAt_feedSlot_other hj _ s⟩
  rcases hplain with hideal | ⟨w, rfl⟩
  · exact portSample_of_ideal hideal x
  · exact portSample_word _ w

/-- Settles O44: DETECT_cfg's answer is below N for every window. -/
theorem detectReadsTheWindow : Obligations.DetectReadsTheWindow := fun _ => ⟨rfl, detectWindow_lt _ _⟩

/-! ## The ideal product (42_symbol_detector.md R104) -/

theorem cmul_of_ideal {n : Numerics} {a b : Sample} {x y : ExactNum} (hn : n.real = .ideal)
    (ha : sampleValue n.fmt a = some x) (hb : sampleValue n.fmt b = some y) :
    cmul n a b = .exact (exMul x y) := by
  simp only [cmul, hn, ha, hb]

/-- Settles O42: the exact product multiplies the complex values. -/
theorem idealProductIsExact : Obligations.IdealProductIsExact := fun _ _ _ x y hn ha hb =>
  ⟨_, cmul_of_ideal hn ha hb, toComplex_exMul x y⟩

/-! ## The values of a window -/

theorem windowValues_length {fmt : SampleFmt} {w : List Sample} {ws : List ExactNum}
    (h : windowValues fmt w = some ws) : ws.length = w.length := by
  induction w generalizing ws with
  | nil =>
    cases h
    rfl
  | cons x w ih =>
    simp only [windowValues, List.mapM_cons, Option.bind_eq_bind, Option.pure_def, Option.bind_eq_some_iff,
      Option.some.injEq] at h
    obtain ⟨z, -, zs, hzs, rfl⟩ := h
    rw [List.length_cons, List.length_cons, ih hzs]

theorem windowValues_map_exact (fmt : SampleFmt) (zs : List ExactNum) :
    windowValues fmt (zs.map .exact) = some zs := by
  induction zs with
  | nil => rfl
  | cons z zs ih =>
    rw [windowValues] at ih ⊢
    rw [List.map_cons, List.mapM_cons, ih]
    rfl

/-! ## The lowest peak (42_symbol_detector.md R110) -/

/-- `v` is the lowest of the `n` bins of greatest energy `e`. -/
structure IsLowestPeak (n : Nat) (e : Nat → ℝ) (v : Nat) : Prop where
  below : v < n
  greatest : ∀ m < n, e m ≤ e v
  first : ∀ m < v, e m < e v

theorem isLowestPeak_peakIndex {β : Type} {lt : β → β → Bool} {f : β → ℝ} {bins : Nat → β} {n : Nat} (hn : 0 < n)
    (hlt : ∀ i j, lt (bins i) (bins j) = true ↔ f (bins i) < f (bins j)) :
    IsLowestPeak n (fun m => f (bins m)) (peakIndex lt ((List.range n).map bins)) := by
  have hbelow : peakIndex lt ((List.range n).map bins) < n := by
    simpa using peakIndex_lt lt ((List.range n).map bins) (by simpa using hn)
  have hget {m : Nat} (hm : m < n) : ((List.range n).map bins)[m]? = some (bins m) := by simp [hm]
  obtain ⟨peak, hpeak, hmax, hfirst⟩ := peakIndex_spec (lt := lt) (f := f) ((List.range n).map bins)
    (by simpa using hn.ne') (by simpa using fun i _ j _ => hlt i j)
  obtain rfl : bins _ = peak := Option.some.inj ((hget hbelow).symm.trans hpeak)
  exact ⟨hbelow, fun m hm => hmax _ (List.mem_of_getElem? (hget hm)),
    fun m hm => hfirst m hm _ (hget (hm.trans hbelow))⟩

/-- A bin with more energy than every other is the lowest peak. -/
theorem IsLowestPeak.eq_of_forall_lt {n : Nat} {e : Nat → ℝ} {v k : Nat} (h : IsLowestPeak n e v) (hk : k < n)
    (hclear : ∀ m < n, m ≠ k → e m < e k) : v = k := by
  by_contra hne
  exact (hclear v h.below hne).not_ge (h.greatest k hk)

/-- Where all bins have one energy, the lowest peak is bin 0. -/
theorem IsLowestPeak.eq_zero_of_const {n : Nat} {c : ℝ} {v : Nat} (h : IsLowestPeak n (fun _ => c) v) : v = 0 := by
  by_contra hne
  exact lt_irrefl c (h.first 0 (Nat.pos_of_ne_zero hne))

/-! ## The exact detector (42_symbol_detector.md R109) -/

/-- The energy `|X[m]|²` of a bin over the complex numbers. -/
noncomputable def windowEnergy (p : Params) (ws : List ExactNum) (m : Nat) : ℝ :=
  Complex.normSq (dftBin p.size m (ws.map toComplex))

theorem re_binEnergy_eq_windowEnergy {p : Params} {ws : List ExactNum} (h : ws.length = p.size) (m : Nat) :
    (toComplex (binEnergy p ws m)).re = windowEnergy p ws m := by
  rw [re_binEnergy, toComplex_dftFrom_zero h, windowEnergy]

theorem detectIdeal_isLowestPeak {p : Params} {ws : List ExactNum} (h : ws.length = p.size) :
    IsLowestPeak p.size (windowEnergy p ws) (detectIdeal p ws) := by
  have hpeak := isLowestPeak_peakIndex (lt := exLt) (f := fun z => (toComplex z).re) (bins := binEnergy p ws)
    (size_pos p) fun i j => exLt_iff _ _ (rising_binEnergy p ws j)
  simpa only [re_binEnergy_eq_windowEnergy h, detectIdeal] using hpeak

theorem detectWindow_of_ideal {p : Params} {w : List Sample} {ws : List ExactNum} (hp : p.num.real = .ideal)
    (hv : windowValues p.num.fmt w = some ws) : detectWindow p w = detectIdeal p ws := by
  simp only [detectWindow, hp, hv]

theorem detectWindow_of_not_ideal {p : Params} (hp : p.num.real ≠ .ideal) (w : List Sample) :
    detectWindow p w = detectRounded p w := by
  unfold detectWindow
  split
  · exact absurd ‹_› hp
  · rfl

/-- The lowest peak of a window of numbers is what DETECT answers in an ideal realisation. -/
theorem detectWindow_isLowestPeak {p : Params} {w : List Sample} {ws : List ExactNum} (hp : p.num.real = .ideal)
    (hlen : w.length = p.size) (hv : windowValues p.num.fmt w = some ws) :
    IsLowestPeak p.size (windowEnergy p ws) (detectWindow p w) := by
  rw [detectWindow_of_ideal hp hv]
  exact detectIdeal_isLowestPeak ((windowValues_length hv).trans hlen)

/-- Settles O45: the exact comparison of bins is that of the complex numbers. -/
theorem idealDetectIsTheLowestPeak : Obligations.IdealDetectIsTheLowestPeak := fun _ _ _ hp hlen hv =>
  have hpeak := detectWindow_isLowestPeak hp hlen hv
  ⟨hpeak.below, hpeak.greatest, hpeak.first⟩

/-! ## Clear peaks (42_symbol_detector.md R111) -/

/-- The margin `TOL_DET·Σ|W[n]|²` by which a peak is clear. -/
noncomputable def clearMargin (p : Params) (ws : List ExactNum) : ℝ :=
  tolDet p * (ws.map fun z => Complex.normSq (toComplex z)).sum

theorem tolDet_of_ideal {p : Params} (hp : p.num.real = .ideal) : tolDet p = 0 := by
  rw [tolDet, hp]

theorem tolDet_of_finite {p : Params} {r : Nat} (hp : p.num.real = .finite r) :
    tolDet p = ((Config.tolDet p.num : ℚ) : ℝ) := by
  rw [tolDet, hp]

theorem tolDet_nonneg (p : Params) : 0 ≤ tolDet p := by
  cases hp : p.num.real with
  | ideal => exact (tolDet_of_ideal hp).ge
  | finite r =>
    rw [tolDet_of_finite hp]
    exact Rat.cast_nonneg.mpr (Config.tolDet p.num).2

theorem clearMargin_nonneg (p : Params) (ws : List ExactNum) : 0 ≤ clearMargin p ws := by
  refine mul_nonneg (tolDet_nonneg p) (List.sum_nonneg fun x hx => ?_)
  obtain ⟨z, -, rfl⟩ := List.mem_map.mp hx
  exact Complex.normSq_nonneg _

theorem toComplex_sum_normSq (ws : List ExactNum) :
    toComplex (ws.foldr (fun w acc => exAdd (normSq w) acc) [])
      = ((ws.map fun z => Complex.normSq (toComplex z)).sum : ℝ) := by
  induction ws with
  | nil => simp
  | cons w ws ih => simp [ih]

theorem detMargin_of_ideal {p : Params} (hp : p.num.real = .ideal) (ws : List ExactNum) : detMargin p ws = [] := by
  rw [detMargin, hp]

theorem detMargin_of_finite {p : Params} {r : Nat} (hp : p.num.real = .finite r) (ws : List ExactNum) :
    detMargin p ws
      = exMul (ofRat (Config.tolDet p.num)) (ws.foldr (fun w acc => exAdd (normSq w) acc) []) := by
  rw [detMargin, hp]

theorem toComplex_detMargin (p : Params) (ws : List ExactNum) :
    toComplex (detMargin p ws) = (clearMargin p ws : ℂ) := by
  cases hp : p.num.real with
  | ideal => rw [detMargin_of_ideal hp, clearMargin, tolDet_of_ideal hp, zero_mul, toComplex_nil, Complex.ofReal_zero]
  | finite r =>
    rw [detMargin_of_finite hp, clearMargin, tolDet_of_finite hp, toComplex_exMul, toComplex_ofRat,
      toComplex_sum_normSq, Complex.ofReal_mul, Complex.ofReal_ratCast]

/-- A bin above every other by more than the margin. -/
def IsClearPeak (p : Params) (ws : List ExactNum) (v : Nat) : Prop :=
  ∀ m < p.size, m ≠ v → windowEnergy p ws m + clearMargin p ws < windowEnergy p ws v

theorem IsClearPeak.lt {p : Params} {ws : List ExactNum} {v m : Nat} (h : IsClearPeak p ws v) (hm : m < p.size)
    (hne : m ≠ v) : windowEnergy p ws m < windowEnergy p ws v :=
  (le_add_of_nonneg_right (clearMargin_nonneg p ws)).trans_lt (h m hm hne)

theorem detectIdeal_of_isClearPeak {p : Params} {ws : List ExactNum} {v : Nat} (hlen : ws.length = p.size)
    (hv : v < p.size) (h : IsClearPeak p ws v) : detectIdeal p ws = v :=
  (detectIdeal_isLowestPeak hlen).eq_of_forall_lt hv fun _ hm hne => h.lt hm hne

theorem peakClear_of_isClearPeak {p : Params} {ws : List ExactNum} (hlen : ws.length = p.size)
    (h : IsClearPeak p ws (detectIdeal p ws)) : peakClear p ws = true := by
  refine List.all_eq_true.mpr fun m hm => ?_
  rw [Bool.or_eq_true, beq_iff_eq]
  refine (eq_or_ne m (detectIdeal p ws)).imp_right fun hne => ?_
  rw [exLt_iff _ _ (rising_binEnergy _ _ _), toComplex_exAdd, toComplex_detMargin, Complex.add_re,
    Complex.ofReal_re, re_binEnergy_eq_windowEnergy hlen, re_binEnergy_eq_windowEnergy hlen, add_comm]
  exact h m (List.mem_range.mp hm) hne

/-- A finite-precision detector ranks a clear peak first. -/
theorem detectRounded_of_peakClear {p : Params} {w : List Sample} {ws : List ExactNum}
    (hv : windowValues p.num.fmt w = some ws) (h : peakClear p ws = true) :
    detectRounded p w = detectIdeal p ws := by
  have hown (m : Nat) : ownEnergy p w m = if m = detectIdeal p ws then 1 else 0 := by
    simp only [ownEnergy, hv, h, if_true]
  have hpeak := isLowestPeak_peakIndex (lt := fun a b => decide (a < b)) (f := fun e : Nat => (e : ℝ))
    (bins := ownEnergy p w) (size_pos p) (by simp)
  refine hpeak.eq_of_forall_lt (detectIdeal_lt p ws) fun m _ hne => ?_
  simp [hown, hne]

/-- Settles O46: each realisation answers the exact detector's bin where that is a clear peak. -/
theorem everyDetectorFindsAClearPeak : Obligations.EveryDetectorFindsAClearPeak := by
  refine ⟨detectWindow_lt, fun p w ws v hlen hvalues hv hclear => ?_⟩
  have hclear : IsClearPeak p ws v := hclear
  have hlen := (windowValues_length hvalues).trans hlen
  have hideal := detectIdeal_of_isClearPeak hlen hv hclear
  by_cases hp : p.num.real = .ideal
  · rw [detectWindow_of_ideal hp hvalues, hideal]
  · rw [detectWindow_of_not_ideal hp,
      detectRounded_of_peakClear hvalues (peakClear_of_isClearPeak hlen (hideal ▸ hclear)), hideal]

/-! ## Pure tones and silence (42_symbol_detector.md R112) -/

/-- The powers of a quotient of two `n`-th roots of unity sum to 0, unless the roots are equal. -/
theorem sum_pow_root_div {ζ : ℂ} {n k m : Nat} (hζ : IsPrimitiveRoot ζ n) (hk : k < n) (hm : m < n) :
    ∑ i ∈ Finset.range n, (ζ ^ k / ζ ^ m) ^ i = if m = k then (n : ℂ) else 0 := by
  have hζ0 : ζ ≠ 0 := hζ.ne_zero (by omega)
  split
  · subst m
    simp [hζ0]
  · rename_i hne
    have hratio : ζ ^ k / ζ ^ m - 1 ≠ 0 := fun h =>
      hne (hζ.pow_inj hm hk ((div_eq_one_iff_eq (pow_ne_zero m hζ0)).mp (sub_eq_zero.mp h)).symm)
    have hpow (j : Nat) : (ζ ^ j) ^ n = 1 := by rw [pow_right_comm, hζ.pow_eq_one, one_pow]
    refine (mul_eq_zero.mp ?_).resolve_right hratio
    rw [geom_sum_mul, div_pow, hpow, hpow, div_one, sub_self]

/-- The DFT of the tone `a·exp(j·2π·k·i/n)`: `a·n` in bin `k` and 0 in the others. -/
theorem dftBin_of_tone {n k m : Nat} {a : ℂ} {w : List ℂ} (hk : k < n) (hm : m < n)
    (hw : ∀ i < n, w.getD i 0 = a * Complex.exp (2 * Real.pi * k * i / n * Complex.I)) :
    dftBin n m w = if m = k then a * n else 0 := by
  have hterm (i : Nat) : Complex.exp (2 * Real.pi * k * i / n * Complex.I)
      * Complex.exp (-(2 * Real.pi * m * i / n) * Complex.I)
      = (Complex.exp (2 * Real.pi * Complex.I / n) ^ k / Complex.exp (2 * Real.pi * Complex.I / n) ^ m) ^ i := by
    rw [div_pow, ← pow_mul, ← pow_mul, ← Complex.exp_nat_mul, ← Complex.exp_nat_mul, ← Complex.exp_sub,
      ← Complex.exp_add]
    congr 1
    push_cast
    ring
  calc dftBin n m w
      = a * ∑ i ∈ Finset.range n, (Complex.exp (2 * Real.pi * Complex.I / n) ^ k
          / Complex.exp (2 * Real.pi * Complex.I / n) ^ m) ^ i := by
        rw [dftBin, Finset.mul_sum]
        exact Finset.sum_congr rfl fun i hi => by rw [hw i (Finset.mem_range.mp hi), mul_assoc, hterm]
    _ = if m = k then a * n else 0 := by
        rw [sum_pow_root_div (Complex.isPrimitiveRoot_exp n (by omega)) hk hm, mul_ite, mul_zero]

theorem getD_map_toComplex (ws : List ExactNum) (i : Nat) :
    (ws.map toComplex).getD i 0 = toComplex (ws.getD i []) := by
  rw [← toComplex_nil, List.getD_map]

/-- R112 (a), and (b) with `k = 0`. -/
theorem detectWindow_of_tone {p : Params} {w : List Sample} {ws : List ExactNum} {k : Nat} {a : ℂ}
    (hp : p.num.real = .ideal) (hlen : w.length = p.size) (hv : windowValues p.num.fmt w = some ws)
    (hk : k < p.size) (ha : a ≠ 0) (htone : ∀ n < p.size, toComplex (ws.getD n [])
      = a * Complex.exp (2 * Real.pi * k * n / p.size * Complex.I)) :
    detectWindow p w = k := by
  have hN : (p.size : ℂ) ≠ 0 := by exact_mod_cast (size_pos p).ne'
  have henergy {m : Nat} (hm : m < p.size) :
      windowEnergy p ws m = Complex.normSq (if m = k then a * p.size else 0) := by
    rw [windowEnergy, dftBin_of_tone hk hm fun i hi => (getD_map_toComplex ws i).trans (htone i hi)]
  refine (detectWindow_isLowestPeak hp hlen hv).eq_of_forall_lt hk fun m hm hne => ?_
  rw [henergy hm, henergy hk, if_neg hne, if_pos rfl, map_zero]
  exact Complex.normSq_pos.mpr (mul_ne_zero ha hN)

theorem windowEnergy_of_silence (p : Params) {ws : List ExactNum} (h : ∀ z ∈ ws, toComplex z = 0) :
    windowEnergy p ws = fun _ => 0 := by
  have hzero (i : Nat) : toComplex (ws.getD i []) = 0 := by
    rcases lt_or_ge i ws.length with hi | hi
    · rw [List.getD_eq_getElem _ _ hi]
      exact h _ (List.getElem_mem hi)
    · rw [List.getD_eq_default _ _ hi, toComplex_nil]
  funext m
  simp [windowEnergy, dftBin, hzero, getD_map_toComplex, -List.getD_eq_getElem?_getD]

/-- Settles O47: a tone has one bin with energy, silence has none. -/
theorem pureTonesAreDetected : Obligations.PureTonesAreDetected := by
  refine ⟨fun p w ws k a hp hlen hv hk ha htone => detectWindow_of_tone hp hlen hv hk ha htone,
    fun p w ws hp hlen hv hzero => ?_⟩
  have hpeak := detectWindow_isLowestPeak hp hlen hv
  rw [windowEnergy_of_silence p hzero] at hpeak
  exact hpeak.eq_zero_of_const

/-! ## Shifted chirps (42_symbol_detector.md R112 (f), (g)) -/

/-- The chirp `up(k)` dechirped against UP, entry by entry. -/
def dechirpedShift (p : Params) (k : Nat) : List Sample :=
  List.zipWith (fun x t => cmul p.num x (sampleConj p.num.fmt t)) (shiftedChirp p k) (upTable p)

@[simp] theorem dechirpedShift_length (p : Params) (k : Nat) : (dechirpedShift p k).length = p.size := by
  simp [dechirpedShift, shiftedChirp]

/-- A turned sample has the value turned. -/
theorem sampleValue_turned {fmt : SampleFmt} {x : Sample} {z : ExactNum} (h : sampleValue fmt x = some z)
    (a : Phase) :
    ∃ z', sampleValue fmt (turned fmt x a) = some z' ∧ toComplex z' = toComplex z * phaseVal a := by
  by_cases ha : a = 0#16
  · exact ⟨z, by simp [turned, ha, h], by simp [ha]⟩
  · have hturned : turned fmt x a = .exact (exMul z (ofRoot (rootOf a))) := by simp [turned, ha, h]
    exact ⟨_, congrArg (sampleValue fmt) hturned, by simp⟩

theorem phaseVal_tone (p : Params) (k i : Nat) : phaseVal (BitVec.ofNat 16 (k * i * (65536 / p.size)))
    = Complex.exp (2 * Real.pi * k * i / p.size * Complex.I) := by
  have hN : (p.size : ℂ) ≠ 0 := by exact_mod_cast (size_pos p).ne'
  have hstep : ((65536 / p.size : Nat) : ℂ) = 65536 / p.size := by
    rw [eq_div_iff hN]
    exact_mod_cast turn_step p
  rw [phaseVal_ofNat]
  push_cast [hstep]
  congr 2
  field_simp

/-- The conjugate of a table entry cancels it, so the shift alone is left. -/
theorem dechirpedShift_getElem? {p : Params} (hp : p.num.real = .ideal) (k : Nat) {i : Nat} (hi : i < p.size) :
    ∃ z : ExactNum, (dechirpedShift p k)[i]? = some (.exact z) ∧
      toComplex z = Complex.exp (2 * Real.pi * k * i / p.size * Complex.I) := by
  obtain ⟨t, ht⟩ : ∃ t, (upTable p)[i]? = some t := by simp [hi]
  have hmem := List.mem_of_getElem? ht
  obtain ⟨z, z', hz, hz', hconj⟩ := (tableEntry_of_mem hmem).sampleValue_conj
  obtain ⟨-, -, hideal⟩ := idealTableHasUnitMagnitude p
  obtain ⟨-, hunit⟩ := hideal hp
  obtain ⟨y, rfl, hnorm⟩ := hunit t hmem
  obtain rfl : y = z := Option.some.inj hz
  obtain ⟨x, hx, hturn⟩ := sampleValue_turned hz (BitVec.ofNat 16 (k * i * (65536 / p.size)))
  refine ⟨exMul x z', ?_, ?_⟩
  · rw [dechirpedShift, List.getElem?_zipWith, ht, shiftedChirp, List.getElem?_map, List.getElem?_zipIdx, ht]
    simp [cmul_of_ideal hp hx hz']
  · rw [toComplex_exMul, hturn, hconj, mul_right_comm, Complex.mul_conj, hnorm, Complex.ofReal_one, one_mul,
      phaseVal_tone]

/-- Settles O48: the dechirped chirp is the pure tone at bin `k`. -/
theorem shiftedChirpsAreDetected : Obligations.ShiftedChirpsAreDetected := by
  intro p k hp hk
  choose z hget hvalue using fun i : Fin p.size => dechirpedShift_getElem? hp k i.isLt
  have hwindow : dechirpedShift p k = (List.ofFn z).map .exact := by
    refine List.ext_getElem? fun i => ?_
    by_cases hi : i < p.size
    · rw [hget ⟨i, hi⟩]
      simp [hi]
    · simp [hi]
  have hvalues : windowValues p.num.fmt (dechirpedShift p k) = some (List.ofFn z) := by
    rw [hwindow, windowValues_map_exact]
  refine detectWindow_of_tone hp (dechirpedShift_length p k) hvalues hk one_ne_zero fun i hi => ?_
  rw [one_mul, ← hvalue ⟨i, hi⟩, List.getD_eq_getElem _ _ (by simpa using hi), List.getElem_ofFn]

end Sys2Proof.Machine

/-! PROOFS. The sequencer of 43_state_machine.md: which operation the engine's turn runs, the whole next state of
each step operation, what every step consumes, and a step's detection as a run of micro-operations. -/

namespace Sys2Proof.Machine

/-! ## The engine's turn (43_state_machine.md R115, R117; 60_exceptions.md R184) -/

theorem stepGuard_eq_false {q : SeqState} {s : State} (h : ¬Guard q s) : stepGuard q s = false := by
  rwa [← Bool.not_eq_true, stepGuard_iff]

/-- The codes above DATASYMBOLS' are reserved (30_encoding.md R83). -/
theorem ofCode_eq_none_of_reserved {c : BitVec 3} (h : 0b100#3 < c) : SeqState.ofCode c = none := by
  revert c
  decide

/-- With nothing on the agenda a step is the engine's turn. -/
theorem step_of_agenda_nil {s : State} (h : s.agenda = []) : step s = coreTurn s := by
  rw [step, advance, h]

/-- Settles O8: the turn is the selected operation, and a reserved code leaves only the guard to decide. -/
theorem stepRunsSelectedOperation : Obligations.StepRunsSelectedOperation := by
  refine ⟨fun s q hq h => ?empty, fun s q rest hq h => ?event, fun s q hq h hg => ?noGuard,
    fun s hc h hg => ?reserved, fun s hc h hg => ?reservedNoGuard⟩
  case empty => rw [step_of_agenda_nil h, coreTurn_of_code hq]
  case event =>
    rw [step_of_agenda h]
    exact coreTurn_of_code hq
  case noGuard =>
    rw [step_of_agenda_nil h, coreTurn_of_code hq, exec_stepInstr_of_not_guard (stepGuard_eq_false hg)]
  case reserved =>
    rw [step_of_agenda_nil h, coreTurn_of_reserved (ofCode_eq_none_of_reserved hc),
      if_pos ((stepGuard_iff _ s).mpr hg)]
  case reservedNoGuard =>
    rw [step_of_agenda_nil h, coreTurn_of_reserved (ofCode_eq_none_of_reserved hc), stepGuard_eq_false hg]
    rfl

/-! ## What the buffer operations answer where their requirements hold (44_output_assembler.md R144-R146) -/

theorem allocBuf_of_requirement {m : BitVec 16} {s : State} (hfree : s.bufAlloc = false)
    (hcap : m.toNat ≤ s.params.mtuMax) : allocBuf m s = .next { forgetBuf s with bufAlloc := true } := by
  simp [allocBuf, hfree, hcap]

theorem appendBuf_of_requirement {k : BitVec 16} {s : State} (v : SymbolWord) (halloc : s.bufAlloc = true)
    (hk : k.toNat < s.mtuL.toNat) (hcap : k.toNat < s.params.mtuMax) :
    appendBuf k v s = .next { s with buf := putSlot k.toNat v s.buf } := by
  simp [appendBuf, halloc, hk, hcap]

theorem emitBuf_of_requirement {m : BitVec 16} {s : State} (halloc : s.bufAlloc = true)
    (hready : s.frameReady = true) (hcap : m.toNat ≤ s.params.mtuMax) :
    emitBuf m s = .next { forgetBuf s with frames := s.frames ++ [frameOf m s], bufAlloc := false } := by
  simp [emitBuf, halloc, hready, hcap]

/-! ## Parts of a step (43_state_machine.md R119, R140) -/

/-- The prologue changes W alone. -/
theorem prologue_eq (q : SeqState) (s : State) :
    prologue q s = { s with window := (feedFrom 0 (dechirpBlock .first (refOf q) s) s).window } :=
  feedFrom_eq _ _ _

/-- Feeding two blocks changes W alone. -/
theorem feedFrom_feedFrom_eq (xs ys : List Sample) (s : State) :
    feedFrom 0 ys (feedFrom 0 xs s) = { s with window := (feedFrom 0 ys (feedFrom 0 xs s)).window } :=
  (feedFrom_eq _ _ _).trans
    (congrArg (fun u : State => { u with window := (feedFrom 0 ys (feedFrom 0 xs s)).window }) (feedFrom_eq 0 xs s))

/-- Feeding the second window after the prologue changes W alone. -/
theorem secondWindow_prologue_eq (s : State) :
    secondWindow (prologue .framesync s) = { s with
      window := (feedFrom 0 (dechirpBlock .second .up s) (feedFrom 0 (dechirpBlock .first .up s) s)).window } := by
  rw [secondWindow, dechirpBlock_prologue]
  exact feedFrom_feedFrom_eq _ _ s

/-- The epilogue of a step of N samples, whose whole dechirped block goes to the DEC mirror (R140). -/
theorem epilogue_wholeBlock {u : State} {n : Nat} {d : List Sample} (q : SeqState) (l : Label) (v : Nat)
    (hn : n = u.params.size) (hin : 2 * u.params.size ≤ u.input.length) (hd : d.length = n) :
    epilogue ⟨n, q, l, d⟩ v u = { u with
      prev := BitVec.ofNat 16 v, input := u.input.drop n, consumed := u.consumed + n,
      rawOut := mirrored u.rawEn l (u.input.take n) u.rawOut,
      decOut := mirrored u.decEn l d u.decOut, seq := q.code } := by
  have hall : d.take n = d := List.take_of_length_le hd.le
  have heq := epilogue_eq u u.window ⟨n, q, l, d⟩ v hin (by dsimp only; omega)
  simp only [hall] at heq
  exact heq

/-- Full sync puts both dechirped blocks on the DEC mirror. -/
theorem dechirpBlocks_take (r : ChirpRef) (s : State) :
    (dechirpBlock .first r s ++ dechirpBlock .second r s).take (2 * s.params.size)
      = dechirpBlock .first r s ++ dechirpBlock .second r s :=
  List.take_of_length_le (by simp; omega)

theorem detectValue_prologue_lt (q : SeqState) (s : State) : detectValue (prologue q s) < s.params.size :=
  (detectValue_prologue q s).trans_lt (detectWindow_lt _ _)

/-! ## The whole next state of STEP_FRAMESYNC (43_state_machine.md R120) -/

theorem syncd_iff (s : State) : syncd s = true ↔ (s.prev.toNat + 1) / 2 = 0 := beq_iff_eq

theorem nibbleMatch_iff (v n : Nat) : nibbleMatch v n = true ↔ (v + 4) / 8 = n := beq_iff_eq

theorem syncHi_eq (s : State) : syncHi s = s.syncword.toNat / 16 := by
  have := s.syncword.isLt
  simp only [syncHi, BitVec.extractLsb'_toNat, Nat.shiftRight_eq_div_pow]
  omega

theorem syncLo_eq (s : State) : syncLo s = s.syncword.toNat % 16 := by
  simp [syncLo]

/-- syncd and match0 (43_state_machine.md R121, R122). -/
def FirstMatch (s : State) : Prop :=
  (s.prev.toNat + 1) / 2 = 0 ∧
    (detectWindow s.params (dechirpBlock .first .up s) + 4) / 8 = s.syncword.toNat / 16

/-- match1 (43_state_machine.md R123). -/
def SecondMatch (s : State) : Prop :=
  (detectWindow s.params (dechirpBlock .second .up s) + 4) / 8 = s.syncword.toNat % 16

theorem firstMatch_iff (s : State) :
    (syncd s && nibbleMatch (detectValue (prologue .framesync s)) (syncHi s)) = true ↔ FirstMatch s := by
  rw [Bool.and_eq_true, syncd_iff, nibbleMatch_iff, syncHi_eq, detectValue_prologue]
  rfl

theorem secondMatch_iff (s : State) :
    nibbleMatch (detectValue (secondWindow (prologue .framesync s))) (syncLo s) = true ↔ SecondMatch s := by
  rw [nibbleMatch_iff, syncLo_eq, detectValue_secondWindow]
  rfl

theorem framesyncStep_of_sync {s : State} (h0 : FirstMatch s) (h1 : SecondMatch s) :
    framesyncStep s = epilogue
      (syncPlan s.params (dechirpBlock .first .up s) (dechirpBlock .second .up s))
      (detectValue (prologue .framesync s)) { secondWindow (prologue .framesync s) with mtuL := s.mtu } :=
  (if_pos ((firstMatch_iff s).mpr h0)).trans (if_pos ((secondMatch_iff s).mpr h1))

theorem framesyncStep_of_secondMissed {s : State} (h0 : FirstMatch s) (h1 : ¬SecondMatch s) :
    framesyncStep s = epilogue
      (skipPlan s.params (detectValue (prologue .framesync s)) (dechirpBlock .first .up s))
      (detectValue (prologue .framesync s)) (secondWindow (prologue .framesync s)) :=
  (if_pos ((firstMatch_iff s).mpr h0)).trans (if_neg (mt (secondMatch_iff s).mp h1))

theorem framesyncStep_of_firstMissed {s : State} (h0 : ¬FirstMatch s) :
    framesyncStep s = epilogue
      (skipPlan s.params (detectValue (prologue .framesync s)) (dechirpBlock .first .up s))
      (detectValue (prologue .framesync s)) (prologue .framesync s) :=
  if_neg (mt (firstMatch_iff s).mp h0)

/-- Settles O21: in each case the step is the epilogue of that case's plan, from a state that differs from the
first one in W, and after full sync in MTU_L. -/
theorem stepFramesyncSearches : Obligations.StepFramesyncSearches := by
  rintro s _ _ _ _ hg rfl rfl rfl rfl
  have hstep : exec .stepFramesync s = .next (framesyncStep s) :=
    execStepFramesync_of_guard ((stepGuard_iff _ s).mpr hg)
  obtain ⟨-, hin, -⟩ := hg
  have hskip : s.params.size - detectWindow s.params (dechirpBlock .first .up s) ≤ 2 * s.params.size := by omega
  refine ⟨fun hsyncd h0 h1 => ?sync, fun hsyncd h0 h1 => ?secondMissed, fun h0 => ?firstMissed⟩
  case sync =>
    rw [hstep, framesyncStep_of_sync ⟨hsyncd, h0⟩ h1, detectValue_prologue, secondWindow_prologue_eq]
    refine congrArg _ ((epilogue_eq { s with mtuL := s.mtu } _ _ _ hin le_rfl).trans ?_)
    simp only [syncPlan, dechirpBlocks_take]
    rfl
  case secondMissed =>
    rw [hstep, framesyncStep_of_secondMissed ⟨hsyncd, h0⟩ h1, detectValue_prologue, secondWindow_prologue_eq]
    exact congrArg _ (epilogue_eq s _ _ _ hin hskip)
  case firstMissed =>
    rw [hstep, framesyncStep_of_firstMissed h0, detectValue_prologue, prologue_eq]
    exact congrArg _ (epilogue_eq s _ _ _ hin hskip)

/-! ## The whole next state of the down-chirps and the quarter chirp (43_state_machine.md R130, R132, R134) -/

/-- Settles O22: the epilogue of a step of N samples, from a state that differs from the first one in W. -/
theorem stepDownchirp0Passes : Obligations.StepDownchirp0Passes := by
  rintro s _ hg rfl
  have hstep := execStepDownchirp0_of_guard ((stepGuard_iff _ s).mpr hg)
  obtain ⟨-, hin, -⟩ := hg
  rw [detectValue_prologue, prologue_eq] at hstep
  exact hstep.trans (congrArg _ (epilogue_wholeBlock _ _ _ rfl hin (dechirpBlock_length _ _ s)))

/-- Settles O23: ALLOC's requirement holds after the prologue as before it. -/
theorem stepDownchirp1Allocates : Obligations.StepDownchirp1Allocates := by
  rintro s _ hg rfl hfree hcap
  have hstep := execStepDownchirp1_of_guard ((stepGuard_iff _ s).mpr hg)
  obtain ⟨-, hin, -⟩ := hg
  rw [allocBuf_of_requirement (by simpa using hfree) (by simpa using hcap), andThen_next, detectValue_prologue,
    prologue_eq] at hstep
  exact hstep.trans (congrArg _ (epilogue_wholeBlock _ _ _ rfl hin (dechirpBlock_length _ _ s)))

/-- Settles O24: the epilogue of the step's plan, from a state that differs from the first one in W and SYMCOUNT. -/
theorem stepQuarterchirpSkipsAQuarter : Obligations.StepQuarterchirpSkipsAQuarter := by
  rintro s _ hg rfl
  have hstep := execStepQuarterchirp_of_guard ((stepGuard_iff _ s).mpr hg)
  obtain ⟨-, hin, -⟩ := hg
  rw [detectValue_prologue, prologue_eq] at hstep
  refine hstep.trans (congrArg _ (epilogue_eq { s with symcount := 0#16 } _ _ _ hin ?_))
  dsimp only
  omega

/-! ## The whole next state of STEP_DATASYMBOLS (43_state_machine.md R137-R139) -/

/-- Where APPEND's requirement holds, the step goes on to its end with the symbol stored. -/
theorem execStepDatasymbols_of_append {s : State} (hg : Guard .datasymbols s) (halloc : s.bufAlloc = true)
    (hcount : s.symcount.toNat < s.mtuL.toNat) (hcap : s.symcount.toNat < s.params.mtuMax) :
    exec .stepDatasymbols s
      = datasymbolsEnd s.symcount.toNat (detectWindow s.params (dechirpBlock .first .up s))
          (dechirpBlock .first .up s) (symbolStored s) := by
  have hstep := execStepDatasymbols_of_guard ((stepGuard_iff _ s).mpr hg)
  rw [appendBuf_of_requirement _ (by simpa using halloc) (by simpa using hcount) (by simpa using hcap),
    andThen_next] at hstep
  refine hstep.trans ?_
  rw [detectValue_prologue, symbolStored, detectValue_prologue, prologue_eq]
  rfl

theorem datasymbolsEnd_of_more {k v : Nat} {d : List Sample} {s : State} (h : k + 1 < s.mtuL.toNat) :
    datasymbolsEnd k v d s = .next (epilogue ⟨s.params.size, .datasymbols, .s, d⟩ v s) :=
  if_neg h.ne

theorem datasymbolsEnd_of_last {k v : Nat} {d : List Sample} {s : State} (h : k + 1 = s.mtuL.toNat)
    (halloc : s.bufAlloc = true) (hready : s.frameReady = true) (hcap : s.mtuL.toNat ≤ s.params.mtuMax) :
    datasymbolsEnd k v d s = .next (epilogue ⟨s.params.size, .framesync, .s, d⟩ v
      { forgetBuf s with frames := s.frames ++ [frameOf s.mtuL s], bufAlloc := false }) := by
  rw [datasymbolsEnd, if_pos h, emitBuf_of_requirement halloc hready hcap, andThen_next]

/-- BUF reads back this step's symbol at SYMCOUNT. -/
theorem bufAt_symbolStored_same (s : State) :
    bufAt (symbolStored s) s.symcount.toNat
      = BitVec.ofNat 16 (detectWindow s.params (dechirpBlock .first .up s)) := by
  simp [bufAt, symbolStored, detectValue_prologue, refOf]

/-- At every other index BUF reads as before. -/
theorem bufAt_symbolStored_other {s : State} {k : Nat} (h : k ≠ s.symcount.toNat) :
    bufAt (symbolStored s) k = bufAt s k := by
  simp [bufAt, symbolStored, getSlot_putSlot_other h]

/-- The frame emitted with the last symbol: BUF's entries below SYMCOUNT, and that symbol (30_encoding.md R86). -/
theorem frameOf_symbolStored {s : State} (h : s.symcount.toNat + 1 = s.mtuL.toNat) :
    frameOf (symbolStored s).mtuL (symbolStored s) = ⟨s.mtuL.toNat, (List.range s.symcount.toNat).map (bufAt s)
      ++ [BitVec.ofNat 16 (detectWindow s.params (dechirpBlock .first .up s))]⟩ := by
  have hearlier : (List.range s.symcount.toNat).map (bufAt (symbolStored s))
      = (List.range s.symcount.toNat).map (bufAt s) :=
    List.map_congr_left fun k hk => bufAt_symbolStored_other (List.mem_range.mp hk).ne
  have hlen : (symbolStored s).mtuL = s.mtuL := rfl
  rw [frameOf, hlen, ← h, List.range_succ, List.map_append, hearlier, List.map_singleton,
    bufAt_symbolStored_same]

/-- Settles O25: the symbol is stored, and the counter stays below MTU_L. -/
theorem stepDatasymbolsAppends : Obligations.StepDatasymbolsAppends := by
  rintro s _ hg rfl halloc hcount hcap
  have hmore : s.symcount.toNat + 1 < (symbolStored s).mtuL.toNat := hcount
  rw [execStepDatasymbols_of_append hg halloc (by omega) (by omega), datasymbolsEnd_of_more hmore]
  obtain ⟨-, hin, -⟩ := hg
  refine congrArg _ ((epilogue_wholeBlock _ _ _ rfl (by exact hin) (by simp [symbolStored])).trans ?_)
  simp only [symbolStored, detectValue_prologue]
  rfl

/-- Settles O26: with the last symbol the guard asks for FRAME_READY, so the frame is emitted. -/
theorem stepDatasymbolsEmits : Obligations.StepDatasymbolsEmits := by
  rintro s _ hg rfl halloc hcount hcap
  have hlast : s.symcount.toNat + 1 = (symbolStored s).mtuL.toNat := hcount
  have hstep := execStepDatasymbols_of_append hg halloc (by omega) (by omega)
  obtain ⟨-, hin, -, -, hframe⟩ := hg
  have hready : s.frameReady = true := hframe.resolve_left (not_not_intro ⟨rfl, hcount⟩)
  rw [hstep, datasymbolsEnd_of_last hlast halloc hready hcap]
  refine congrArg _ ((epilogue_wholeBlock _ _ _ rfl (by exact hin) (by simp [symbolStored])).trans ?_)
  rw [frameOf_symbolStored hcount]
  rfl

/-! ## What every step is made of (43_state_machine.md R119, R140, R142) -/

/-- R142's bounds, where `n` samples are consumed. -/
def ConsumptionOk (p : Params) (n : Nat) : Prop := 1 ≤ n ∧ n ≤ 2 * p.size

theorem consumptionOk_double (p : Params) : ConsumptionOk p (2 * p.size) := by
  have := size_pos p
  exact ⟨by omega, le_rfl⟩

theorem consumptionOk_size (p : Params) : ConsumptionOk p p.size := by
  have := size_pos p
  exact ⟨by omega, by omega⟩

theorem consumptionOk_quarter (p : Params) : ConsumptionOk p (p.size / 4) :=
  ⟨(size_quarter p).2, by omega⟩

/-- A skip leaves at least one sample consumed, as a detection is below N. -/
theorem consumptionOk_skip {p : Params} {v : Nat} (hv : v < p.size) : ConsumptionOk p (p.size - v) :=
  ⟨by omega, by omega⟩

/-- A step the guard allows ends with an epilogue that consumes 1 to 2N samples and sets PREV to the detection in
the first window, from a state in which nothing has been consumed. -/
theorem exec_stepInstr_eq_epilogue {q : SeqState} {s t : State} (hg : Guard q s)
    (h : exec q.stepInstr s = .next t) :
    ∃ (plan : StepPlan) (u : State), t = epilogue plan (detectValue (prologue q s)) u ∧
      u.input = s.input ∧ u.consumed = s.consumed ∧ ConsumptionOk s.params plan.c := by
  have hguard := (stepGuard_iff q s).mpr hg
  cases q with
  | framesync =>
    have hskip := consumptionOk_skip (detectValue_prologue_lt .framesync s)
    cases (execStepFramesync_of_guard hguard).symm.trans h
    rcases framesyncStep_cases s with hs | hs | hs
    · exact ⟨_, _, hs, by simp, by simp, consumptionOk_double _⟩
    · exact ⟨_, _, hs, by simp, by simp, hskip⟩
    · exact ⟨_, _, hs, by simp, by simp, hskip⟩
  | downchirp0 =>
    cases (execStepDownchirp0_of_guard hguard).symm.trans h
    exact ⟨_, _, rfl, by simp, by simp, consumptionOk_size _⟩
  | downchirp1 =>
    obtain ⟨u, hu, hnext⟩ := andThen_eq_next ((execStepDownchirp1_of_guard hguard).symm.trans h)
    obtain ⟨-, -, rfl⟩ := allocBuf_eq_next hu
    cases hnext
    exact ⟨_, _, rfl, by simp, by simp, consumptionOk_size _⟩
  | quarterchirp =>
    cases (execStepQuarterchirp_of_guard hguard).symm.trans h
    exact ⟨_, _, rfl, by simp, by simp, consumptionOk_quarter _⟩
  | datasymbols =>
    obtain ⟨u, hu, hend⟩ := andThen_eq_next ((execStepDatasymbols_of_guard hguard).symm.trans h)
    obtain ⟨-, -, -, rfl⟩ := appendBuf_eq_next hu
    rw [datasymbolsEnd, prologue_params] at hend
    split at hend
    case isTrue =>
      obtain ⟨w, hw, hnext⟩ := andThen_eq_next hend
      obtain ⟨-, -, -, rfl⟩ := emitBuf_eq_next hw
      cases hnext
      exact ⟨_, _, rfl, by simp, by simp, consumptionOk_size _⟩
    case isFalse =>
      cases hend
      exact ⟨_, _, rfl, by simp, by simp, consumptionOk_size _⟩

/-- Settles O30: the epilogue drops what its plan consumes, and counts it. -/
theorem stepsConsumeFromTheHead : Obligations.StepsConsumeFromTheHead := by
  intro q s t hg h
  obtain ⟨plan, u, rfl, hinput, hconsumed, ⟨hlow, hhigh⟩⟩ := exec_stepInstr_eq_epilogue hg h
  exact ⟨plan.c, hlow, hhigh, by rw [epilogue_input, hinput], by rw [epilogue_consumed, hconsumed]⟩

/-- Settles O20: without the guard a step is a no-op, and with it at least one sample is consumed. -/
theorem guardDecidesWhetherAStepHappens : Obligations.GuardDecidesWhetherAStepHappens := by
  refine ⟨fun q s hg => exec_stepInstr_of_not_guard (stepGuard_eq_false hg), fun q s t hg h => ?_⟩
  obtain ⟨c, hlow, -, -, hconsumed⟩ := stepsConsumeFromTheHead q s t hg h
  omega

/-! ## What a FRAMESYNC step consumes (43_state_machine.md R126) -/

/-- A detection fits PREV, so PREV holds 0 exactly where it is 0. -/
theorem ofNat_eq_zero_iff_of_lt_size {p : Params} {v : Nat} (h : v < p.size) :
    BitVec.ofNat 16 v = 0#16 ↔ v = 0 := by
  have := size_le p
  rw [← BitVec.toNat_inj, BitVec.toNat_ofNat, Nat.mod_eq_of_lt (by omega)]
  rfl

/-- A step that ends in a skip consumes N samples less the detection (43_state_machine.md R125). -/
theorem consumption_of_skip {p : Params} {v n : Nat} {d : List Sample} {t u : State} (hv : v < p.size)
    (hu : u.consumed = n) (ht : t = epilogue (skipPlan p v d) v u) :
    t.seq = 0b000#3 ∧ n + 1 ≤ t.consumed ∧ t.consumed ≤ n + p.size ∧
      (t.consumed = n + p.size ↔ t.prev = 0#16) := by
  have hconsumed : t.consumed = n + (p.size - v) := by rw [ht, epilogue_consumed, hu, skipPlan]
  have hprev : t.prev = 0#16 ↔ v = 0 := by rw [ht, epilogue_prev, ofNat_eq_zero_iff_of_lt_size hv]
  rw [hprev, hconsumed]
  exact ⟨congrArg State.seq ht, by omega, by omega, by omega⟩

/-- Settles O29: full sync and the two skips. -/
theorem framesyncConsumption : Obligations.FramesyncConsumption := by
  intro s t hg h
  cases (execStepFramesync_of_guard ((stepGuard_iff _ s).mpr hg)).symm.trans h
  have hbelow := detectValue_prologue_lt .framesync s
  rcases framesyncStep_cases s with hs | hs | hs
  · rw [hs]
    exact .inl ⟨rfl, by simp [syncPlan]⟩
  · exact .inr (consumption_of_skip hbelow (by simp) hs)
  · exact .inr (consumption_of_skip hbelow (by simp) hs)

/-! ## A step's detection by micro-operations (43_state_machine.md R119) -/

/-- The samples of a dechirped block are products, which FEED takes as they are. -/
theorem portSample_of_mem_dechirpBlock {b : WinBase} {r : ChirpRef} {s : State} {x : Sample}
    (h : x ∈ dechirpBlock b r s) : portSample s.params.num x = x := by
  obtain ⟨i, hi, rfl⟩ := List.mem_iff_getElem.mp h
  simp only [dechirpBlock, List.getElem_zipWith, portSample_cmul]

/-- FEEDs run one after another leave what feeding the whole block leaves. -/
theorem execAll_feedsFrom (i : Nat) (xs : List Sample) (s : State) (hlen : i + xs.length ≤ s.params.size)
    (hport : ∀ x ∈ xs, portSample s.params.num x = x) :
    execAll (feedsFrom i xs) s = .next (feedFrom i xs s) := by
  induction xs generalizing i s with
  | nil => rfl
  | cons x xs ih =>
    rw [List.length_cons] at hlen
    have hslot : (BitVec.ofNat 16 i).toNat = i := by
      have := size_le s.params
      rw [BitVec.toNat_ofNat, Nat.mod_eq_of_lt (by omega)]
    have hfeed : exec (.feed (BitVec.ofNat 16 i) x) s = .next (feedSlot i x s) := by
      rw [exec_feed_of_lt (by omega), hslot, hport x List.mem_cons_self]
    rw [feedsFrom, execAll, hfeed, andThen_next]
    exact ih (i + 1) (feedSlot i x s) (by simpa using by omega) fun y hy => hport y (List.mem_cons_of_mem x hy)

/-- The state in which DECHIRP of the first window has left its block (42_symbol_detector.md R102). -/
def dechirped (r : ChirpRef) (s : State) : State :=
  { s with work := { s.work with block := dechirpBlock .first r s } }

theorem exec_dechirp (r : ChirpRef) (s : State) : exec (.dechirp .first r) s = .next (dechirped r s) := rfl

/-- FEEDs of the block DECHIRP answered leave it in W as the prologue of a step does. -/
theorem detectValue_feedFrom_dechirped (r : ChirpRef) (s : State) :
    detectValue (feedFrom 0 (dechirped r s).work.block (dechirped r s))
      = detectWindow s.params (dechirpBlock .first r s) :=
  detectValue_feedFrom (dechirped r s) _ (dechirpBlock_length _ r s)

/-- Settles O31: after the FEEDs DETECT sees the block DECHIRP answered, as it does after the prologue. -/
theorem stepDetectsByMicroOps : Obligations.StepDetectsByMicroOps := by
  intro q s t hg h
  obtain ⟨plan, u, rfl, -⟩ := exec_stepInstr_eq_epilogue hg h
  have hlen := dechirpBlock_length .first (refOf q) s
  have hdetect := detectValue_feedFrom_dechirped (refOf q) s
  refine ⟨_, _, _, exec_dechirp _ s, hlen,
    execAll_feedsFrom 0 _ _ ((Nat.zero_add _).trans hlen).le fun _ => portSample_of_mem_dechirpBlock, rfl, ?_, ?_⟩
  · exact hdetect.trans_lt (detectWindow_lt _ _)
  · rw [epilogue_prev, detectValue_prologue, ← hdetect]

end Sys2Proof.Machine

/-! PROOFS. The output assembler of 44_output_assembler.md: the operations on the symbol buffer, the mirror streams,
and the frames a step emits. -/

namespace Sys2Proof.Machine

/-! ## The mirrors' enables and sinks (44_output_assembler.md R151) -/

/-- The mirror enables, and the free space the mirror sinks presented last. -/
structure MirrorSinks where
  rawEn : Bool
  decEn : Bool
  rawFree : Nat
  decFree : Nat

/-- `s` with the mirrors as `k` has them. -/
def withSinks (k : MirrorSinks) (s : State) : State :=
  { s with rawEn := k.rawEn, decEn := k.decEn, rawFree := k.rawFree, decFree := k.decFree }

/-- The mirrors as `s` has them. -/
def sinksOf (s : State) : MirrorSinks := ⟨s.rawEn, s.decEn, s.rawFree, s.decFree⟩

theorem withSinks_sinksOf (s : State) : withSinks (sinksOf s) s = s := rfl

/-- Feeding a block to W does not look at the mirrors. -/
theorem feedFrom_withSinks (k : MirrorSinks) (i : Nat) (xs : List Sample) (s : State) :
    feedFrom i xs (withSinks k s) = withSinks k (feedFrom i xs s) := by
  induction xs generalizing i s with
  | nil => rfl
  | cons x xs ih => exact ih (i + 1) (feedSlot i x s)

/-! ## A step and its mirror streams (44_output_assembler.md R152-R154) -/

/-- The next state `t` of a step from `s`, as it is where the mirrors are as `k` has them: their streams alone are
not those of `t`. -/
def mirroredTo (k : MirrorSinks) (l : Label) (raw dec : List Sample) (s t : State) : State :=
  { withSinks k t with
    rawOut := mirrored k.rawEn l raw s.rawOut
    decOut := mirrored k.decEn l dec s.decOut }

/-- The operation of `q` steps from `s` to `t`, consumes `c` samples, has the label `l` and gives the DEC mirror the
samples `dec`; and it does so, but for the streams, with all mirrors whose sinks have the room the guard asks for. -/
structure MirroredStep (q : SeqState) (s t : State) (l : Label) (c : Nat) (dec : List Sample) : Prop where
  consumption : ConsumptionOk s.params c
  decLength : dec.length = c
  input : t.input = s.input.drop c
  consumed : t.consumed = s.consumed + c
  execWithSinks : ∀ k, Guard q (withSinks k s) →
    exec q.stepInstr (withSinks k s) = .next (mirroredTo k l (s.input.take c) dec s t)

theorem mirroredStep_of_framesync {s t : State} (hg : Guard .framesync s) (h : exec .stepFramesync s = .next t) :
    ∃ l c dec, MirroredStep .framesync s t l c dec := by
  obtain ⟨hsync, hsecondMissed, hfirstMissed⟩ := stepFramesyncSearches s _ _ _ _ hg rfl rfl rfl rfl
  have hskip := consumptionOk_skip (detectWindow_lt s.params (dechirpBlock .first .up s))
  have hdec : ((dechirpBlock .first .up s).take
      (s.params.size - detectWindow s.params (dechirpBlock .first .up s))).length
        = s.params.size - detectWindow s.params (dechirpBlock .first .up s) := by
    rw [List.length_take, dechirpBlock_length, min_eq_left (Nat.sub_le _ _)]
  by_cases h0 : FirstMatch s
  · obtain ⟨hsyncd, hfirst⟩ := h0
    by_cases h1 : SecondMatch s
    · cases (hsync hsyncd hfirst h1).symm.trans h
      refine ⟨.sync, _, dechirpBlock .first .up s ++ dechirpBlock .second .up s, consumptionOk_double _,
        by simp only [List.length_append, dechirpBlock_length, two_mul], rfl, rfl, fun k hk => ?_⟩
      obtain ⟨hsync', -⟩ := stepFramesyncSearches _ _ _ _ _ hk rfl rfl rfl rfl
      refine (hsync' hsyncd hfirst h1).trans ?_
      rw [feedFrom_withSinks, feedFrom_withSinks]
      rfl
    · cases (hsecondMissed hsyncd hfirst h1).symm.trans h
      refine ⟨.x, _, _, hskip, hdec, rfl, rfl, fun k hk => ?_⟩
      obtain ⟨-, hsecondMissed', -⟩ := stepFramesyncSearches _ _ _ _ _ hk rfl rfl rfl rfl
      refine (hsecondMissed' hsyncd hfirst h1).trans ?_
      rw [feedFrom_withSinks, feedFrom_withSinks]
      rfl
  · cases (hfirstMissed h0).symm.trans h
    refine ⟨.x, _, _, hskip, hdec, rfl, rfl, fun k hk => ?_⟩
    obtain ⟨-, -, hfirstMissed'⟩ := stepFramesyncSearches _ _ _ _ _ hk rfl rfl rfl rfl
    refine (hfirstMissed' h0).trans ?_
    rw [feedFrom_withSinks]
    rfl

theorem mirroredStep_of_downchirp0 {s t : State} (hg : Guard .downchirp0 s) (h : exec .stepDownchirp0 s = .next t) :
    ∃ l c dec, MirroredStep .downchirp0 s t l c dec := by
  cases (stepDownchirp0Passes s _ hg rfl).symm.trans h
  refine ⟨.dc, _, dechirpBlock .first .down s, consumptionOk_size _, dechirpBlock_length _ _ _, rfl, rfl,
    fun k hk => ?_⟩
  refine (stepDownchirp0Passes _ _ hk rfl).trans ?_
  rw [feedFrom_withSinks]
  rfl

/-- A DOWNCHIRP1 step that answers met ALLOC's requirement. -/
theorem allocRequirement_of_stepDownchirp1 {s t : State} (hg : Guard .downchirp1 s)
    (h : exec .stepDownchirp1 s = .next t) : s.bufAlloc = false ∧ s.mtuL.toNat ≤ s.params.mtuMax := by
  obtain ⟨u, hu, -⟩ := andThen_eq_next ((execStepDownchirp1_of_guard ((stepGuard_iff _ s).mpr hg)).symm.trans h)
  obtain ⟨hfree, hcap, -⟩ := allocBuf_eq_next hu
  exact ⟨by simpa using hfree, by simpa using hcap⟩

theorem mirroredStep_of_downchirp1 {s t : State} (hg : Guard .downchirp1 s) (h : exec .stepDownchirp1 s = .next t) :
    ∃ l c dec, MirroredStep .downchirp1 s t l c dec := by
  obtain ⟨hfree, hcap⟩ := allocRequirement_of_stepDownchirp1 hg h
  cases (stepDownchirp1Allocates s _ hg rfl hfree hcap).symm.trans h
  refine ⟨.blank, _, dechirpBlock .first .down s, consumptionOk_size _, dechirpBlock_length _ _ _, rfl, rfl,
    fun k hk => ?_⟩
  refine (stepDownchirp1Allocates _ _ hk rfl hfree hcap).trans ?_
  rw [feedFrom_withSinks]
  rfl

theorem mirroredStep_of_quarterchirp {s t : State} (hg : Guard .quarterchirp s)
    (h : exec .stepQuarterchirp s = .next t) : ∃ l c dec, MirroredStep .quarterchirp s t l c dec := by
  cases (stepQuarterchirpSkipsAQuarter s _ hg rfl).symm.trans h
  refine ⟨.qc, _, (dechirpBlock .first .up s).take (s.params.size / 4), consumptionOk_quarter _, ?_, rfl, rfl,
    fun k hk => ?_⟩
  · rw [List.length_take, dechirpBlock_length, min_eq_left (Nat.div_le_self _ _)]
  · refine (stepQuarterchirpSkipsAQuarter _ _ hk rfl).trans ?_
    rw [feedFrom_withSinks]
    rfl

/-- A DATASYMBOLS step that answers met APPEND's requirement. -/
theorem appendRequirement_of_stepDatasymbols {s t : State} (hg : Guard .datasymbols s)
    (h : exec .stepDatasymbols s = .next t) :
    s.bufAlloc = true ∧ s.symcount.toNat < s.mtuL.toNat ∧ s.symcount.toNat < s.params.mtuMax := by
  obtain ⟨u, hu, -⟩ := andThen_eq_next ((execStepDatasymbols_of_guard ((stepGuard_iff _ s).mpr hg)).symm.trans h)
  obtain ⟨halloc, hcount, hcap, -⟩ := appendBuf_eq_next hu
  exact ⟨by simpa using halloc, by simpa using hcount, by simpa using hcap⟩

/-- A symbol before the last, also where MTU_L is more than BUF has entries. -/
theorem execStepDatasymbols_of_more {s : State} (hg : Guard .datasymbols s) (halloc : s.bufAlloc = true)
    (hcount : s.symcount.toNat + 1 < s.mtuL.toNat) (hcap : s.symcount.toNat < s.params.mtuMax) :
    exec .stepDatasymbols s = .next { symbolStored s with
      prev := BitVec.ofNat 16 (detectWindow s.params (dechirpBlock .first .up s))
      input := s.input.drop s.params.size
      consumed := s.consumed + s.params.size
      rawOut := mirrored s.rawEn .s (s.input.take s.params.size) s.rawOut
      decOut := mirrored s.decEn .s (dechirpBlock .first .up s) s.decOut
      seq := SeqState.code .datasymbols } := by
  have hmore : s.symcount.toNat + 1 < (symbolStored s).mtuL.toNat := hcount
  rw [execStepDatasymbols_of_append hg halloc (by omega) hcap, datasymbolsEnd_of_more hmore]
  obtain ⟨-, hin, -⟩ := hg
  exact congrArg _ (epilogue_wholeBlock _ _ _ rfl hin (dechirpBlock_length _ _ s))

theorem symbolStored_withSinks (k : MirrorSinks) (s : State) :
    symbolStored (withSinks k s) = withSinks k (symbolStored s) := by
  have hprologue : prologue .datasymbols (withSinks k s) = withSinks k (prologue .datasymbols s) :=
    feedFrom_withSinks k 0 _ s
  rw [symbolStored, hprologue]
  rfl

theorem mirroredStep_of_datasymbols {s t : State} (hg : Guard .datasymbols s)
    (h : exec .stepDatasymbols s = .next t) : ∃ l c dec, MirroredStep .datasymbols s t l c dec := by
  obtain ⟨halloc, hcount, hcap⟩ := appendRequirement_of_stepDatasymbols hg h
  rcases Nat.lt_or_eq_of_le (Nat.succ_le_of_lt hcount) with hmore | hlast
  · cases (execStepDatasymbols_of_more hg halloc hmore hcap).symm.trans h
    refine ⟨.s, _, dechirpBlock .first .up s, consumptionOk_size _, dechirpBlock_length _ _ _, rfl, rfl,
      fun k hk => ?_⟩
    refine (execStepDatasymbols_of_more hk halloc hmore hcap).trans ?_
    rw [symbolStored_withSinks]
    rfl
  · have hmax : s.mtuL.toNat ≤ s.params.mtuMax := by omega
    cases (stepDatasymbolsEmits s _ hg rfl halloc hlast hmax).symm.trans h
    refine ⟨.s, _, dechirpBlock .first .up s, consumptionOk_size _, dechirpBlock_length _ _ _, rfl, rfl,
      fun k hk => ?_⟩
    refine (stepDatasymbolsEmits _ _ hk rfl halloc hlast hmax).trans ?_
    rw [feedFrom_withSinks]
    rfl

/-- What every step gives the mirrors, and that it does not look at them otherwise. -/
theorem mirroredStep_of_exec {q : SeqState} {s t : State} (hg : Guard q s) (h : exec q.stepInstr s = .next t) :
    ∃ l c dec, MirroredStep q s t l c dec := by
  cases q with
  | framesync => exact mirroredStep_of_framesync hg h
  | downchirp0 => exact mirroredStep_of_downchirp0 hg h
  | downchirp1 => exact mirroredStep_of_downchirp1 hg h
  | quarterchirp => exact mirroredStep_of_quarterchirp hg h
  | datasymbols => exact mirroredStep_of_datasymbols hg h

/-- The streams a step leaves with the mirrors the state itself has. -/
theorem MirroredStep.streams {q : SeqState} {s t : State} {l : Label} {c : Nat} {dec : List Sample}
    (hm : MirroredStep q s t l c dec) (hg : Guard q s) (h : exec q.stepInstr s = .next t) :
    t.rawOut = mirrored s.rawEn l (s.input.take c) s.rawOut ∧ t.decOut = mirrored s.decEn l dec s.decOut := by
  have hself := hm.execWithSinks (sinksOf s) hg
  rw [withSinks_sinksOf] at hself
  have ht : t = mirroredTo (sinksOf s) l (s.input.take c) dec s t := Host.Outcome.next.inj (h.symm.trans hself)
  exact ⟨congrArg State.rawOut ht, congrArg State.decOut ht⟩

/-- The consumed samples are there: the guard asks for 2N. -/
theorem MirroredStep.take_length {q : SeqState} {s t : State} {l : Label} {c : Nat} {dec : List Sample}
    (hm : MirroredStep q s t l c dec) (hg : Guard q s) : (s.input.take c).length = c := by
  obtain ⟨-, hin, -⟩ := hg
  obtain ⟨-, hle⟩ := hm.consumption
  exact List.length_take_of_le (hle.trans hin)

/-- The label stands on the first element of a run that is not empty (44_output_assembler.md R154). -/
theorem mirrorRun_labels {l : Label} {n : Nat} {xs : List Sample} (h : xs.length = n + 1) :
    (mirrorRun l xs).map MirrorElem.label = l :: List.replicate n .blank := by
  cases xs with
  | nil => cases h
  | cons x xs =>
    obtain rfl : xs.length = n := Nat.succ.inj h
    simp only [mirrorRun, List.map_cons, List.map_map, Function.comp_def, List.map_const']

/-- Settles O32: the RAW run holds the head of the input, which is what the step drops. -/
theorem rawMirrorEchoesTheInput : Obligations.RawMirrorEchoesTheInput := by
  intro q s t hg h
  obtain ⟨l, c, dec, hm⟩ := mirroredStep_of_exec hg h
  obtain ⟨hraw, -⟩ := hm.streams hg h
  refine ⟨fun hoff => ?off, fun hon => ⟨mirrorRun l (s.input.take c), ?run, ?echo, ?count⟩⟩
  case off => rw [hraw, hoff]; rfl
  case run => rw [hraw, hon]; rfl
  case echo => rw [mirrorRun_samples, hm.input, List.take_append_drop]
  case count => rw [mirrorRun_length, hm.take_length hg, hm.consumed]

/-- Settles O33: both runs are as long as the step's consumption, which is not 0. -/
theorem labelsMarkTheFirstElement : Obligations.LabelsMarkTheFirstElement := by
  intro q s t hg h
  obtain ⟨l, c, dec, hm⟩ := mirroredStep_of_exec hg h
  obtain ⟨hraw, hdec⟩ := hm.streams hg h
  obtain ⟨n, rfl⟩ : ∃ n, c = n + 1 := Nat.exists_eq_add_of_le' hm.consumption.1
  refine ⟨l, n, hm.consumed,
    fun hon => ⟨mirrorRun l (s.input.take (n + 1)), ?raw, mirrorRun_labels (hm.take_length hg)⟩,
    fun hon => ⟨mirrorRun l dec, ?dec, mirrorRun_labels hm.decLength⟩⟩
  case raw => rw [hraw, hon]; rfl
  case dec => rw [hdec, hon]; rfl

/-- Settles O34: with other mirrors the step ends as it does with these, but for the streams. -/
theorem mirrorsDoNotInfluenceTheProtocol : Obligations.MirrorsDoNotInfluenceTheProtocol := by
  intro q s t raw dec rf df hg hg' h
  obtain ⟨_, _, _, hm⟩ := mirroredStep_of_exec hg h
  exact ⟨_, _, hm.execWithSinks ⟨raw, dec, rf, df⟩ hg'⟩

/-! ## Frames (44_output_assembler.md R149) -/

/-- The step from `s` to `t` completes a frame: its symbols are the MTU_L - 1 appended before, in order, and the
detection this step leaves in PREV. -/
def CompletesFrame (s t : State) : Prop :=
  s.seq = SeqState.code .datasymbols ∧ t.seq = SeqState.code .framesync ∧
    s.symcount.toNat + 1 = s.mtuL.toNat ∧
    ∃ f : Frame, t.frames = s.frames ++ [f] ∧ f.length = s.mtuL.toNat ∧ f.symbols.length = s.mtuL.toNat ∧
      (∀ k < s.symcount.toNat, ∃ v, getSlot k s.buf = some v ∧ f.symbols[k]? = some v) ∧
      f.symbols[s.symcount.toNat]? = some t.prev

theorem bufAt_of_getSlot {s : State} {k : Nat} {v : SymbolWord} (h : getSlot k s.buf = some v) : bufAt s k = v := by
  rw [bufAt, h, Option.getD_some]

/-- A frame's symbols are BUF's entries (30_encoding.md R86). -/
theorem frameOf_symbols_getElem? {m : BitVec 16} {k : Nat} (s : State) (h : k < m.toNat) :
    (frameOf m s).symbols[k]? = some (bufAt s k) := by
  simp [frameOf, h]

/-- The engine's turn emits no frame but in the move that completes one. -/
theorem CoreMove.frames_cases {s t : State} (h : CoreMove s t) (hi : s.Inv) :
    t.frames = s.frames ∨ CompletesFrame s t := by
  cases h with
  | idle | symbol => exact .inl rfl
  | sync | skip | skipAfterBoth | downchirp0 | downchirp1 | quarterchirp => exact .inl (by simp)
  | lastSymbol hq hg halloc hcount hcap =>
    refine .inr ⟨hq, rfl, hcount, frameOf s.mtuL (symbolStored s), rfl, rfl, ?length, fun k hk => ?earlier, ?last⟩
    case length => simp [frameOf]
    case earlier =>
      obtain ⟨v, hv⟩ := Option.isSome_iff_exists.mp (hi.appended hq k hk)
      have hlt : k < s.mtuL.toNat := by omega
      exact ⟨v, hv, by rw [frameOf_symbols_getElem? _ hlt, bufAt_symbolStored_other hk.ne, bufAt_of_getSlot hv]⟩
    case last =>
      have hlt : s.symcount.toNat < s.mtuL.toNat := by omega
      rw [frameOf_symbols_getElem? _ hlt, bufAt_symbolStored_same, epilogue_prev, detectValue_prologue]
      rfl

theorem HostMove.frames_eq {w : Hcw} {s t : State} (h : HostMove w s t) : t.frames = s.frames := by
  cases h with
  | ignored | enables | cleared | syncwordSet | mtuSet | read => rfl
  | activationRefused | activated | mtuRefused | writeRefused | readRefused => simp [restarted]

theorem PortMove.frames_eq {s t : State} (h : PortMove s t) : t.frames = s.frames := by
  cases h with
  | supply | rawSpace | decSpace | frameSink => rfl

/-- Settles O35: a host access or a port's transition emits no frame, and the engine's turn only complete ones. -/
theorem emittedFramesAreComplete : Obligations.EmittedFramesAreComplete := by
  intro s t hi h
  have htail : State.Inv { s with agenda := s.agenda.tail } := { hi with }
  rcases step_moves h with ⟨w, -, hmove⟩ | ⟨-, hmove | hmove⟩
  · exact .inl hmove.frames_eq
  · exact hmove.frames_cases htail
  · exact .inl hmove.frames_eq

/-! ## The operations on the symbol buffer (44_output_assembler.md R144-R148) -/

/-- Settles O49: ALLOC's requirement holds, and no entry has been appended since. -/
theorem allocGivesAFreshBuffer : Obligations.AllocGivesAFreshBuffer := fun _ _ hfree hcap =>
  ⟨allocBuf_of_requirement hfree hcap, fun _ => rfl⟩

/-- Settles O50: APPEND's requirement holds, and BUF reads back what was put in. -/
theorem appendStoresOneEntry : Obligations.AppendStoresOneEntry := by
  intro s k v halloc hk hcap
  refine ⟨_, appendBuf_of_requirement v halloc hk hcap, rfl, ?_, fun j hj => ?_⟩
  · exact bufAt_of_getSlot (getSlot_putSlot_same _ _ _)
  · rw [bufAt, getSlot_putSlot_other hj]
    rfl

/-- Settles O51: EMIT's requirement holds. -/
theorem emitHandsOverTheFrame : Obligations.EmitHandsOverTheFrame := fun _ _ halloc hready hcap =>
  emitBuf_of_requirement halloc hready hcap

theorem discardBuf_of_allocated {s : State} (h : s.bufAlloc = true) :
    discardBuf s = { forgetBuf s with bufAlloc := false } := if_pos h

theorem discardBuf_of_free {s : State} (h : s.bufAlloc = false) : discardBuf s = s := if_neg (by simp [h])

/-- Settles O52: BUF_ALLOC decides. -/
theorem discardReleasesTheBuffer : Obligations.DiscardReleasesTheBuffer := fun _ =>
  ⟨fun halloc => congrArg _ (discardBuf_of_allocated halloc), fun hfree => congrArg _ (discardBuf_of_free hfree)⟩

end Sys2Proof.Machine

/-! PROOFS. The host interface of 45_host_interface.md: what a command word does to the machine, what each command
answers, and that neither SYNCWORD nor MTU reaches a frame in progress. -/

namespace Sys2Proof.Machine

/-! ## A command word on the agenda (45_host_interface.md R156, R176) -/

theorem hostAccess_of_ok {w : Hcw} {i : Instr} (h : decode (.hcw w) = .ok i) (s : State) :
    hostAccess w s = exec i s := by
  rw [hostAccess, h]

theorem hostAccess_of_busAlign {w : Hcw} (h : decode (.hcw w) = .reject .busAlign) (s : State) :
    hostAccess w s = .next (refuseAccess .busAlign w s) := by
  rw [hostAccess, h]

theorem hostAccess_of_busDecode {w : Hcw} (h : decode (.hcw w) = .reject .busDecode) (s : State) :
    hostAccess w s = .next (refuseAccess .busDecode w s) := by
  rw [hostAccess, h]

/-- Settles O7: the step takes the word off the agenda, and the access runs what the word decodes to. -/
theorem stepRunsHostCommand : Obligations.StepRunsHostCommand :=
  fun _ _ _ _ hagenda hw => (step_of_agenda hagenda).trans (hostAccess_of_ok hw _)

/-- The model's `raise` is R181's. -/
theorem raiseError_eq_recorded (cause : ErrCause) (a : BitVec 8) (s : State) :
    raiseError cause a s = recorded (causeCode cause) a s := rfl

/-- A read's response does not depend on what is recorded before it. -/
theorem respond_recorded (v : Word32) (code : BitVec 4) (a : BitVec 8) (s : State) :
    respond v (recorded code a s) = recorded code a (respond v s) :=
  apply_ite (respond v) _ _ _

theorem refuseAccess_of_write {w : Hcw} (h : w.getLsbD 63 = true) (cause : ErrCause) (s : State) :
    refuseAccess cause w s = recorded (causeCode cause) (w.extractLsb' 32 8) s := if_pos h

theorem refuseAccess_of_read {w : Hcw} (h : w.getLsbD 63 = false) (cause : ErrCause) (s : State) :
    refuseAccess cause w s = recorded (causeCode cause) (w.extractLsb' 32 8) (respond 0#32 s) := by
  have hread : ¬w.isWrite = true := ne_true_of_eq_false h
  rw [refuseAccess, if_neg hread, raiseError_eq_recorded, respond_recorded]
  rfl

/-- Settles O9: the decoder's answer gives the cause, and RW says whether there is a response. -/
theorem refusedAccessOnlyRecords : Obligations.RefusedAccessOnlyRecords := by
  intro s w rest hagenda
  rw [step_of_agenda hagenda, perform]
  refine ⟨fun hw hrw => ?_, fun hw hrw => ?_, fun hw hrw => ?_, fun hw hrw => ?_⟩
  · rw [hostAccess_of_busAlign hw, refuseAccess_of_write hrw]; rfl
  · rw [hostAccess_of_busAlign hw, refuseAccess_of_read hrw]; rfl
  · rw [hostAccess_of_busDecode hw, refuseAccess_of_write hrw]; rfl
  · rw [hostAccess_of_busDecode hw, refuseAccess_of_read hrw]; rfl

/-! ## Reads (45_host_interface.md R157, R160, R162, R163, R166-R170) -/

/-- The code of a command is its match value with DATA put in (30_encoding.md R79). -/
theorem encode_hostCommand_eq_or (rw : Bool) (r : Reg) (d : Word32) :
    encode (hostCommand rw r d) = some (.hcw (hcwWord rw r 0#32 ||| d.setWidth 64)) := by
  rw [encode_hostCommand, ← hcwWord_eq]

/-- The fields of STATUS side by side are R160's sum of shifted registers. -/
theorem statusImage_eq_or (s : State) :
    statusImage s = (BitVec.ofBool s.active).setWidth 32 ||| (s.seq.setWidth 32 <<< 1)
      ||| (s.errCause.setWidth 32 <<< 4) ||| ((BitVec.ofBool s.err).setWidth 32 <<< 8)
      ||| (s.errAddr.setWidth 32 <<< 16) := by
  apply BitVec.eq_of_getLsbD_eq
  intro i hi
  simp only [statusImage, BitVec.getLsbD_append, BitVec.getLsbD_or, BitVec.getLsbD_shiftLeft,
    BitVec.getLsbD_setWidth, BitVec.getLsbD_zero]
  grind

/-- The fields of CTRL side by side are R162's sum of shifted registers. -/
theorem ctrlImage_eq_or (s : State) :
    ctrlImage s = ((BitVec.ofBool s.rawEn).setWidth 32 <<< 1) ||| ((BitVec.ofBool s.decEn).setWidth 32 <<< 2) := by
  rw [ctrlImage]
  cases s.rawEn <;> cases s.decEn <;> rfl

/-- Settles O11, from the image of STATUS. -/
theorem rdStatusReturnsFlags : Obligations.RdStatusReturnsFlags := by
  intro s d
  rw [← statusImage_eq_or]
  exact ⟨encode_hostCommand_eq_or false .status d, rfl⟩

/-- Settles O12: a command's code comes from its register, and its response is the register's image. -/
theorem readsReturnTheirRegister : Obligations.ReadsReturnTheirRegister := by
  intro s d
  rw [← ctrlImage_eq_or]
  exact ⟨encode_hostCommand_eq_or false .id d, rfl, encode_hostCommand_eq_or false .ctrl d, rfl,
    encode_hostCommand_eq_or false .syncword d, rfl, encode_hostCommand_eq_or false .mtu d, rfl,
    encode_hostCommand_eq_or false .mtuLatched d, rfl, encode_hostCommand_eq_or false .symcount d, rfl,
    encode_hostCommand_eq_or false .prevValue d, rfl, encode_hostCommand_eq_or false .mtuMax d, rfl⟩

/-! ## Writes (45_host_interface.md R158, R159, R161, R171-R175) -/

/-- Settles O17: the codes come from the registers, and each of the five meanings is `skip`. -/
theorem readOnlyWritesDoNothing : Obligations.ReadOnlyWritesDoNothing := fun _ d =>
  ⟨encode_hostCommand_eq_or true .id d, rfl, encode_hostCommand_eq_or true .mtuLatched d, rfl,
    encode_hostCommand_eq_or true .symcount d, rfl, encode_hostCommand_eq_or true .prevValue d, rfl,
    encode_hostCommand_eq_or true .mtuMax d, rfl⟩

/-- Settles O14: DATA[8] decides. -/
theorem wrStatusClearsTheRecord : Obligations.WrStatusClearsTheRecord := fun _ d =>
  ⟨encode_hostCommand_eq_or true .status d, fun h => congrArg _ (if_pos h),
    fun h => congrArg (Host.Outcome.next (σ := State)) (if_neg (ne_true_of_eq_false h))⟩

/-- What DISCARD writes, with a buffer and without one (44_output_assembler.md R148). -/
theorem discardBuf_eq (s : State) :
    discardBuf s = { s with
      bufAlloc := false, buf := if s.bufAlloc then [] else s.buf,
      bufEpoch := if s.bufAlloc then s.bufEpoch + 1 else s.bufEpoch } := by
  cases h : s.bufAlloc with
  | true =>
    rw [discardBuf_of_allocated h]
    rfl
  | false =>
    have hfree : { s with bufAlloc := false } = s := by rw [← h]
    rw [discardBuf_of_free h]
    exact hfree.symm

/-- WR_CTRL writes the enables, and activates where DATA[0] is 1. -/
theorem exec_wrCtrl_eq (d : Word32) (s : State) :
    exec (.wrCtrl d) s = .next (if d.getLsbD 0 = true
      then activate { s with rawEn := d.getLsbD 1, decEn := d.getLsbD 2 }
      else { s with rawEn := d.getLsbD 1, decEn := d.getLsbD 2 }) := rfl

theorem activate_of_unconfigured {s : State} (h : s.mtu = 0#16) : activate s = recorded 2#4 0x04#8 s := if_pos h

theorem activate_of_configured {s : State} (h : s.mtu ≠ 0#16) : activate s = discardBuf (restarted s) := if_neg h

/-- Settles O13: DATA[0] and MTU decide, and DISCARD says what becomes of BUF. -/
theorem wrCtrlWritesEnablesThenActivates : Obligations.WrCtrlWritesEnablesThenActivates := by
  intro s d
  rw [exec_wrCtrl_eq]
  refine ⟨encode_hostCommand_eq_or true .ctrl d, fun h0 => ?enables, fun h0 hmtu => ?refused,
    fun h0 hmtu => ?activated⟩
  case enables => rw [h0]; rfl
  case refused => exact congrArg _ ((if_pos h0).trans (activate_of_unconfigured (by exact hmtu)))
  case activated =>
    exact congrArg _ ((if_pos h0).trans ((activate_of_configured (by exact hmtu)).trans (discardBuf_eq _)))

/-! ## SYNCWORD and MTU outside FRAMESYNC (45_host_interface.md R164, R165) -/

/-- `s` with other values in the two registers that only a FRAMESYNC step reads. -/
def withConfig (v : BitVec 8) (m : BitVec 16) (s : State) : State := { s with syncword := v, mtu := m }

section
variable (v : BitVec 8) (m : BitVec 16) (s : State)

theorem andThen_ite (c : Prop) [Decidable c] (r r' : Result) (k : State → Result) :
    andThen (if c then r else r') k = if c then andThen r k else andThen r' k :=
  apply_ite (andThen · k) c r r'

/-- Two operations that commute with a change `f` of the state commute with it in sequence. -/
theorem andThen_comm {f : State → State} {k : State → Result} (r : Result) {k' : State → Result}
    (h : ∀ u, k' (f u) = andThen (k u) fun t => .next (f t)) :
    andThen (andThen r fun t => .next (f t)) k' = andThen (andThen r k) fun t => .next (f t) := by
  cases r with
  | next u => exact h u
  | fault | refused => rfl

@[simp] theorem withConfig_params : (withConfig v m s).params = s.params := rfl
@[simp] theorem withConfig_mtuL : (withConfig v m s).mtuL = s.mtuL := rfl

theorem withConfig_self : withConfig s.syncword s.mtu s = s := rfl

theorem feedFrom_withConfig (i : Nat) (xs : List Sample) :
    feedFrom i xs (withConfig v m s) = withConfig v m (feedFrom i xs s) := by
  induction xs generalizing i s with
  | nil => rfl
  | cons x xs ih => exact ih (feedSlot i x s) (i + 1)

theorem prologue_withConfig (q : SeqState) : prologue q (withConfig v m s) = withConfig v m (prologue q s) :=
  feedFrom_withConfig v m s 0 _

theorem allocBuf_withConfig (n : BitVec 16) :
    allocBuf n (withConfig v m s) = andThen (allocBuf n s) fun t => .next (withConfig v m t) := by
  rw [allocBuf, allocBuf, andThen_ite, andThen_ite]
  rfl

theorem appendBuf_withConfig (k : BitVec 16) (x : SymbolWord) :
    appendBuf k x (withConfig v m s) = andThen (appendBuf k x s) fun t => .next (withConfig v m t) := by
  rw [appendBuf, appendBuf, andThen_ite, andThen_ite]
  rfl

theorem emitBuf_withConfig (n : BitVec 16) :
    emitBuf n (withConfig v m s) = andThen (emitBuf n s) fun t => .next (withConfig v m t) := by
  rw [emitBuf, emitBuf, andThen_ite, andThen_ite]
  rfl

theorem datasymbolsEnd_withConfig (k x : Nat) (d : List Sample) :
    datasymbolsEnd k x d (withConfig v m s)
      = andThen (datasymbolsEnd k x d s) fun t => .next (withConfig v m t) := by
  rw [datasymbolsEnd, datasymbolsEnd, withConfig_mtuL, withConfig_params]
  split
  case isTrue =>
    rw [emitBuf_withConfig]
    exact andThen_comm _ fun _ => rfl
  case isFalse => rfl

/-- A step operation other than FRAMESYNC's does the same whatever the two registers hold, and keeps them. -/
theorem exec_stepInstr_withConfig {q : SeqState} (hq : q ≠ .framesync) :
    exec q.stepInstr (withConfig v m s)
      = andThen (exec q.stepInstr s) fun t => .next (withConfig v m t) := by
  cases hg : stepGuard q s with
  | false =>
    have hg' : stepGuard q (withConfig v m s) = false := hg
    rw [exec_stepInstr_of_not_guard hg, exec_stepInstr_of_not_guard hg', andThen_next]
  | true =>
    have hg' : stepGuard q (withConfig v m s) = true := hg
    cases q with
    | framesync => exact absurd rfl hq
    | downchirp0 =>
      rw [execStepDownchirp0_of_guard hg, execStepDownchirp0_of_guard hg', prologue_withConfig]
      rfl
    | downchirp1 =>
      rw [execStepDownchirp1_of_guard hg, execStepDownchirp1_of_guard hg', prologue_withConfig,
        allocBuf_withConfig]
      exact andThen_comm _ fun _ => rfl
    | quarterchirp =>
      rw [execStepQuarterchirp_of_guard hg, execStepQuarterchirp_of_guard hg', prologue_withConfig]
      rfl
    | datasymbols =>
      rw [execStepDatasymbols_of_guard hg, execStepDatasymbols_of_guard hg', prologue_withConfig,
        appendBuf_withConfig]
      exact andThen_comm _ fun u => datasymbolsEnd_withConfig v m { u with symcount := s.symcount + 1#16 } _ _ _

end

/-- Every step operation keeps MTU, also the one that reads it. -/
theorem exec_stepInstr_mtu {q : SeqState} {s t : State} (h : exec q.stepInstr s = .next t) : t.mtu = s.mtu := by
  by_cases hq : q = .framesync
  · subst hq
    cases hg : stepGuard .framesync s with
    | false =>
      cases (exec_stepInstr_of_not_guard hg).symm.trans h
      rfl
    | true =>
      cases (execStepFramesync_of_guard hg).symm.trans h
      rcases framesyncStep_cases s with hs | hs | hs <;> simp [hs]
  · have hself := exec_stepInstr_withConfig s.syncword s.mtu s hq
    rw [withConfig_self, h, andThen_next] at hself
    calc t.mtu = (withConfig s.syncword s.mtu t).mtu := congrArg State.mtu (Host.Outcome.next.inj hself)
      _ = s.mtu := rfl

/-- No detection of N samples matches a nibble above (N + 3) div 8. -/
theorem not_firstMatch_of_high_nibble {s : State} (h : (s.params.size + 3) / 8 < s.syncword.toNat / 16) :
    ¬FirstMatch s := by
  rintro ⟨-, hmatch⟩
  have := detectWindow_lt s.params (dechirpBlock .first .up s)
  omega

theorem stepFramesync_stays_of_high_nibble {s t : State}
    (hhigh : (s.params.size + 3) / 8 < s.syncword.toNat / 16) (hseq : s.seq = 0b000#3)
    (h : exec .stepFramesync s = .next t) : t.seq = 0b000#3 := by
  cases hg : stepGuard .framesync s with
  | false =>
    cases (exec_stepInstr_of_not_guard hg).symm.trans h
    exact hseq
  | true =>
    cases (execStepFramesync_of_guard hg).symm.trans h
    rw [framesyncStep_of_firstMissed (not_firstMatch_of_high_nibble hhigh)]
    rfl

theorem syncwordOperand_eq (d : Word32) : syncwordOperand d = d.setWidth 8 :=
  (BitVec.setWidth_eq_extractLsb' (by decide)).symm

/-- Settles O15: SYNCWORD is one of the two registers the other steps pass over, and a skip stays in FRAMESYNC. -/
theorem wrSyncwordReachesFramesyncOnly : Obligations.WrSyncwordReachesFramesyncOnly := by
  refine ⟨fun s d => ⟨encode_hostCommand_eq_or true .syncword d, ?store⟩, fun q s t v hq h => ?others,
    fun _ _ => stepFramesync_stays_of_high_nibble⟩
  case store =>
    rw [← syncwordOperand_eq]
    rfl
  case others =>
    have hother := exec_stepInstr_withConfig v s.mtu s hq
    have hkept : withConfig v s.mtu t = { t with syncword := v } := by
      rw [withConfig, ← exec_stepInstr_mtu h]
    rw [h, andThen_next, hkept] at hother
    exact hother

/-! ## MTU (45_host_interface.md R165) -/

theorem mtuOperand_eq (d : Word32) : mtuOperand d = d.setWidth 16 :=
  (BitVec.setWidth_eq_extractLsb' (by decide)).symm

theorem exec_wrMtu_of_legal {d : Word32} {s : State} (hlow : 1 ≤ (d.setWidth 16).toNat)
    (hmax : (d.setWidth 16).toNat ≤ s.params.mtuMax) :
    exec (.wrMtu d) s = .next { s with mtu := d.setWidth 16 } := by
  rw [← mtuOperand_eq] at *
  refine if_neg (not_or_intro (fun hzero => ?_) (not_lt.mpr hmax))
  rw [hzero] at hlow
  exact absurd hlow (by decide)

theorem exec_wrMtu_of_illegal {d : Word32} {s : State}
    (h : (d.setWidth 16).toNat = 0 ∨ s.params.mtuMax < (d.setWidth 16).toNat) :
    exec (.wrMtu d) s = .next (recorded 1#4 0x10#8 s) := by
  rw [← mtuOperand_eq] at h
  exact if_pos (h.imp_left BitVec.eq_of_toNat_eq)

theorem HostMove.mtu_ne_zero {w : Hcw} {s t : State} (h : HostMove w s t) (hs : s.mtu ≠ 0#16) :
    t.mtu ≠ 0#16 := by
  cases h with
  | mtuSet d hw hnz hmax => exact hnz
  | read | ignored | enables | cleared | syncwordSet => exact hs
  | activationRefused | activated | mtuRefused | writeRefused | readRefused => simpa [restarted] using hs

/-- An instruction without a code, a micro-operation, keeps MTU. -/
theorem exec_microOp_mtu {i : Instr} {s t : State} (hi : encode i = none) (h : exec i s = .next t) :
    t.mtu = s.mtu := by
  cases i with
  | gen | dechirp | detect =>
    cases h
    rfl
  | discard =>
    cases h
    exact discardBuf_mtu s
  | feed k x =>
    change execFeed k x s = .next t at h
    unfold execFeed at h
    split at h <;> cases h
    rfl
  | alloc n =>
    obtain ⟨-, -, rfl⟩ := allocBuf_eq_next h
    rfl
  | append k x =>
    obtain ⟨-, -, -, rfl⟩ := appendBuf_eq_next h
    rfl
  | emit n =>
    obtain ⟨-, -, -, rfl⟩ := emitBuf_eq_next h
    rfl
  | _ => cases hi

/-- An instruction's code says which kind it is: a command, a step operation, or with none a micro-operation. -/
theorem exec_mtu_ne_zero {i : Instr} {s t : State} (h : exec i s = .next t) (hs : s.mtu ≠ 0#16) :
    t.mtu ≠ 0#16 := by
  cases hc : encode i with
  | none => rwa [exec_microOp_mtu hc h]
  | some c =>
    cases c with
    | hcw w =>
      have hw : decode (.hcw w) = .ok i := encodeThenDecode i _ hc
      exact (hostMove_of_hostAccess ((hostAccess_of_ok hw s).trans h)).mtu_ne_zero hs
    | step c =>
      obtain ⟨q, -, rfl⟩ := decodeStep_eq_ok_iff.mp (encodeThenDecode i _ hc)
      rwa [exec_stepInstr_mtu h]

/-- Settles O16: the operand's value decides what WR_MTU does, and no other instruction writes MTU. -/
theorem wrMtuStoresLegalValues : Obligations.WrMtuStoresLegalValues :=
  ⟨fun d => encode_hostCommand_eq_or true .mtu d, fun _ _ => exec_wrMtu_of_legal,
    fun _ _ => exec_wrMtu_of_illegal, fun _ _ _ => exec_mtu_ne_zero⟩

end Sys2Proof.Machine

/-! PROOFS. The exceptions of 60_exceptions.md: what each access leaves in the error record (R180-R183, R187), which
failed requirements are model faults (R184), and that no state with the invariant reaches one (R179). -/

namespace Sys2Proof.Machine

/-! ## The error record after `raise` (60_exceptions.md R181) -/

/-- The first error is recorded. -/
theorem errRecord_recorded {s : State} (h : s.err = false) (code : BitVec 4) (a : BitVec 8) :
    errRecord (recorded code a s) = (true, code, a) :=
  congrArg errRecord (if_neg (ne_true_of_eq_false h))

/-- A later error is lost. -/
theorem errRecord_raiseError_of_err {s : State} (h : s.err = true) (cause : ErrCause) (a : BitVec 8) :
    errRecord (raiseError cause a s) = errRecord s :=
  congrArg errRecord (if_pos h)

/-- A refused access records its cause with the word's ADDR, whether it is a write or a read (R182). -/
theorem errRecord_refuseAccess {s : State} (h : s.err = false) (cause : ErrCause) (w : Hcw) :
    errRecord (refuseAccess cause w s) = (true, causeCode cause, w.extractLsb' 32 8) := by
  cases hw : w.getLsbD 63 with
  | false => rw [refuseAccess_of_read hw, errRecord_recorded (by exact h)]
  | true => rw [refuseAccess_of_write hw, errRecord_recorded h]

/-! ## The commands that record no error (60_exceptions.md R180) -/

theorem exec_wrCtrl_err {d : Word32} {s t : State} (hs : s.err = false) (h : exec (.wrCtrl d) s = .next t)
    (hd : ¬(d.getLsbD 0 = true ∧ s.mtu = 0#16)) : t.err = false := by
  obtain ⟨-, henables, -, hactivated⟩ := wrCtrlWritesEnablesThenActivates s d
  cases h0 : d.getLsbD 0 with
  | false =>
    cases (henables h0).symm.trans h
    exact hs
  | true =>
    cases (hactivated h0 fun hmtu => hd ⟨h0, hmtu⟩).symm.trans h
    exact hs

theorem exec_wrStatus_err {d : Word32} {s t : State} (hs : s.err = false) (h : exec (.wrStatus d) s = .next t) :
    t.err = false := by
  obtain ⟨-, hclear, hkeep⟩ := wrStatusClearsTheRecord s d
  cases h8 : d.getLsbD 8 with
  | false =>
    cases (hkeep h8).symm.trans h
    exact hs
  | true =>
    cases (hclear h8).symm.trans h
    rfl

theorem exec_wrMtu_err {d : Word32} {s t : State} (hs : s.err = false) (h : exec (.wrMtu d) s = .next t)
    (hd : ¬(d.setWidth 16 = 0#16 ∨ s.params.mtuMax < (d.setWidth 16).toNat)) : t.err = false := by
  obtain ⟨hnz, hmax⟩ := not_or.mp hd
  have hlow : 1 ≤ (d.setWidth 16).toNat :=
    Nat.one_le_iff_ne_zero.mpr fun h0 => hnz (BitVec.eq_of_toNat_eq h0)
  cases (exec_wrMtu_of_legal hlow (not_lt.mp hmax)).symm.trans h
  exact hs

/-- No command but a refused WR_MTU and a refused activation records an error. -/
theorem exec_hostCommand_err {rw : Bool} {r : Reg} {d : Word32} {s t : State} (hs : s.err = false)
    (h : exec (hostCommand rw r d) s = .next t)
    (hmtu : ∀ d', hostCommand rw r d = .wrMtu d' →
      ¬(d'.setWidth 16 = 0#16 ∨ s.params.mtuMax < (d'.setWidth 16).toNat))
    (hctrl : ∀ d', hostCommand rw r d = .wrCtrl d' → ¬(d'.getLsbD 0 = true ∧ s.mtu = 0#16)) :
    t.err = false := by
  cases rw with
  | false =>
    obtain ⟨v, hv⟩ := exec_readCommand d r s
    cases hv.symm.trans h
    exact hs
  | true =>
    cases r with
    | ctrl => exact exec_wrCtrl_err hs h (hctrl d rfl)
    | status => exact exec_wrStatus_err hs h
    | mtu => exact exec_wrMtu_err hs h (hmtu d rfl)
    | id | syncword | mtuLatched | symcount | prevValue | mtuMax =>
      cases h
      exact hs

/-- Settles O18: the access is refused with its cause, or is one of the two commands with an operand or a state it
refuses, or records nothing. -/
theorem errorCausesOfAccesses : Obligations.ErrorCausesOfAccesses := by
  intro s t w rest hagenda herr h
  have haccess : hostAccess w { s with agenda := rest } = .next t := (step_of_agenda hagenda).symm.trans h
  refine ⟨fun hw => ?align, fun hw => ?decode, fun d hw hd => ?mtu, fun d hw h0 hmtu => ?activation,
    fun i hw hmtu hctrl => ?quiet⟩
  case align =>
    cases (hostAccess_of_busAlign hw _).symm.trans haccess
    exact errRecord_refuseAccess (by exact herr) _ _
  case decode =>
    cases (hostAccess_of_busDecode hw _).symm.trans haccess
    exact errRecord_refuseAccess (by exact herr) _ _
  case mtu =>
    have hrefused := exec_wrMtu_of_illegal (s := { s with agenda := rest }) (hd.imp_left (congrArg BitVec.toNat))
    rw [hostAccess_of_ok hw, hrefused] at haccess
    cases haccess
    exact errRecord_recorded (by exact herr) _ _
  case activation =>
    obtain ⟨-, -, hrefused, -⟩ := wrCtrlWritesEnablesThenActivates { s with agenda := rest } d
    rw [hostAccess_of_ok hw, hrefused h0 hmtu] at haccess
    cases haccess
    exact errRecord_recorded (by exact herr) _ _
  case quiet =>
    obtain ⟨rw, r, d, -, rfl⟩ := decodeHcw_eq_ok_iff.mp hw
    rw [hostAccess_of_ok hw] at haccess
    exact exec_hostCommand_err (by exact herr) haccess hmtu hctrl

/-! ## A recorded error (60_exceptions.md R181, R187) -/

/-- While an error is recorded, a host access leaves the record as it is or is the write that clears it. -/
theorem HostMove.errRecord_cases {w : Hcw} {s t : State} (h : HostMove w s t) (hs : s.err = true) :
    errRecord t = errRecord s ∨
    (errRecord t = (false, 0#4, 0#8) ∧ ∃ d, decode (.hcw w) = .ok (.wrStatus d) ∧ statusErrClear d = true) := by
  cases h with
  | cleared d hw hc => exact .inr ⟨rfl, d, hw, hc⟩
  | read | ignored | enables | syncwordSet | mtuSet => exact .inl rfl
  | activated => exact .inl (by simp [errRecord, restarted])
  | activationRefused | mtuRefused | writeRefused | readRefused =>
    exact .inl (errRecord_raiseError_of_err (by exact hs) _ _)

/-- Settles O19: only a host access may touch the record, and of these only the clearing write does. -/
theorem firstErrorIsKept : Obligations.FirstErrorIsKept := by
  intro s t hs h
  rcases step_moves h with ⟨w, hagenda, hmove⟩ | ⟨-, hmove | hmove⟩
  · rcases hmove.errRecord_cases hs with hkept | ⟨hcleared, d, hw, hc⟩
    · exact .inl hkept
    · exact .inr ⟨hcleared, w, _, d, hagenda, hw, hc⟩
  · obtain ⟨-, -, -, -, hrecord, -⟩ := hmove.sameConfiguration
    exact .inl hrecord
  · obtain ⟨-, -, -, -, hrecord, -⟩ := hmove.sameConfiguration
    exact .inl hrecord

/-! ## Failed requirements (60_exceptions.md R184 (c); 44_output_assembler.md R144-R146) -/

theorem allocBuf_faults_of_allocated {s : State} (m : BitVec 16) (h : s.bufAlloc = true) :
    allocBuf m s = .fault .allocRequirement := if_pos h

theorem appendBuf_faults_of_requirement {k : BitVec 16} {s : State} (v : SymbolWord)
    (h : s.bufAlloc = false ∨ s.mtuL.toNat ≤ k.toNat) : appendBuf k v s = .fault .appendRequirement := by
  refine if_pos ?_
  rcases h with hfree | hk
  · simp [hfree]
  · simp [Nat.not_lt.mpr hk]

theorem emitBuf_faults_of_requirement {s : State} (m : BitVec 16) (h : s.bufAlloc = false ∨ s.frameReady = false) :
    emitBuf m s = .fault .emitRequirement := by
  refine if_pos ?_
  rcases h with hfree | hbusy
  · simp [hfree]
  · simp [hbusy]

/-- A DOWNCHIRP1 step stops where the ALLOC of its body does. -/
theorem execStepDownchirp1_faults_of_alloc {s : State} {e : Fault} (hg : Guard .downchirp1 s)
    (h : allocBuf s.mtuL (prologue .downchirp1 s) = .fault e) : exec .stepDownchirp1 s = .fault e := by
  have hstep := execStepDownchirp1_of_guard ((stepGuard_iff _ s).mpr hg)
  rwa [h, andThen_fault] at hstep

/-- A DATASYMBOLS step stops where the APPEND of its body does. -/
theorem execStepDatasymbols_faults_of_append {s : State} {e : Fault} (hg : Guard .datasymbols s)
    (h : ∀ v, appendBuf s.symcount v (prologue .datasymbols s) = .fault e) :
    exec .stepDatasymbols s = .fault e := by
  have hstep := execStepDatasymbols_of_guard ((stepGuard_iff _ s).mpr hg)
  rwa [h, andThen_fault] at hstep

/-- Settles O27: the three operations' own stops, and the prologue of the two steps leaves what ALLOC and APPEND
ask for as it was. -/
theorem failedRequirementsFault : Obligations.FailedRequirementsFault :=
  ⟨fun _ hg halloc =>
      execStepDownchirp1_faults_of_alloc hg (allocBuf_faults_of_allocated _ (by simpa using halloc)),
    fun _ hg h =>
      execStepDatasymbols_faults_of_append hg fun v => appendBuf_faults_of_requirement v (by simpa using h),
    fun _ m halloc => allocBuf_faults_of_allocated m halloc,
    fun _ _ v h => appendBuf_faults_of_requirement v h,
    fun _ m h => emitBuf_faults_of_requirement m h⟩

/-! ## No fault is reachable (60_exceptions.md R179, R184) -/

/-- Every host command has a meaning in every state. -/
theorem goesOn_hostCommand (rw : Bool) (r : Reg) (d : Word32) (s : State) : goesOn (exec (hostCommand rw r d) s) := by
  cases rw with
  | false =>
    obtain ⟨v, hv⟩ := exec_readCommand d r s
    exact ⟨_, hv⟩
  | true =>
    cases r with
    | mtu =>
      by_cases hd : mtuOperand d = 0#16 ∨ s.params.mtuMax < (mtuOperand d).toNat
      · exact ⟨_, if_pos hd⟩
      · exact ⟨_, if_neg hd⟩
    | id | ctrl | status | syncword | mtuLatched | symcount | prevValue | mtuMax => exact ⟨_, rfl⟩

/-- The decoder rejects a command word for its form alone; no word is a reserved state code. -/
theorem decode_hcw_ne_illegalState (w : Hcw) : decode (.hcw w) ≠ .reject .illegalState := by
  intro h
  change decodeHcw w = _ at h
  unfold decodeHcw at h
  split at h
  · cases h
  · split at h
    · cases h
    · split at h <;> cases h

/-- A host access never faults: a word that does not decode is refused with an error (R186). -/
theorem goesOn_hostAccess (w : Hcw) (s : State) : goesOn (hostAccess w s) := by
  cases hw : decode (.hcw w) with
  | ok i =>
    obtain ⟨rw, r, d, -, rfl⟩ := decodeHcw_eq_ok_iff.mp hw
    rw [hostAccess_of_ok hw]
    exact goesOn_hostCommand rw r d s
  | reject e =>
    cases e with
    | busAlign => exact ⟨_, hostAccess_of_busAlign hw s⟩
    | busDecode => exact ⟨_, hostAccess_of_busDecode hw s⟩
    | illegalState => exact absurd hw (decode_hcw_ne_illegalState w)

/-- In DATASYMBOLS the buffer is allocated and has an entry for the symbol, and with the last symbol the guard asks
for FRAME_READY. -/
theorem goesOn_stepDatasymbols {s : State} (hf : AtState .datasymbols s) (hg : Guard .datasymbols s) :
    goesOn (exec .stepDatasymbols s) := by
  have halloc : s.bufAlloc = true := hf.bufferExact
  have hcount := hf.countBelow rfl
  obtain ⟨-, hmax⟩ := hf.frameLength nofun
  rcases Nat.lt_or_eq_of_le (Nat.succ_le_of_lt hcount) with hmore | hlast
  · exact ⟨_, execStepDatasymbols_of_more hg halloc hmore (by omega)⟩
  · exact ⟨_, stepDatasymbolsEmits s _ hg rfl halloc hlast hmax⟩

/-- A step operation goes on where the frame in progress is as its sequencer state has it. -/
theorem goesOn_stepInstr {q : SeqState} {s : State} (hf : AtState q s) : goesOn (exec q.stepInstr s) := by
  by_cases hg : Guard q s
  · cases q with
    | framesync => exact ⟨_, execStepFramesync_of_guard ((stepGuard_iff _ s).mpr hg)⟩
    | downchirp0 => exact ⟨_, stepDownchirp0Passes s _ hg rfl⟩
    | downchirp1 =>
      obtain ⟨-, hmax⟩ := hf.frameLength nofun
      exact ⟨_, stepDownchirp1Allocates s _ hg rfl hf.bufferExact hmax⟩
    | quarterchirp => exact ⟨_, stepQuarterchirpSkipsAQuarter s _ hg rfl⟩
    | datasymbols => exact goesOn_stepDatasymbols hf hg
  · exact ⟨s, exec_stepInstr_of_not_guard (stepGuard_eq_false hg)⟩

/-- The code is legal, so the engine's turn is a step operation (R184 (a)). -/
theorem State.Inv.goesOn_coreTurn {s : State} (hi : s.Inv) : goesOn (coreTurn s) := by
  obtain ⟨q, hq⟩ := Option.isSome_iff_exists.mp hi.legalCode
  have hcode := code_of_ofCode hq
  rw [coreTurn_of_code hcode]
  exact goesOn_stepInstr (hi.atState hcode)

/-- Settles O57: only the engine's turn could fault, and the invariant, which does not speak of the agenda, holds
when the turn is taken. -/
theorem invariantStatesGoOn : Obligations.InvariantStatesGoOn := by
  intro s hi
  cases hs : s.agenda with
  | nil =>
    rw [step_of_agenda_nil hs]
    exact hi.goesOn_coreTurn
  | cons e rest =>
    rw [step_of_agenda hs]
    cases e with
    | host w => exact goesOn_hostAccess w _
    | core => exact State.Inv.goesOn_coreTurn { hi with }
    | supply | rawSpace | decSpace | frameSink => exact ⟨_, rfl⟩

end Sys2Proof.Machine

/-! PROOFS. Reset and activation (70_reset_and_hazards.md): an instance keeps the parameters it was elaborated
with, only the engine and an accepted activation move the sequencer, and what construction leaves. -/

namespace Sys2Proof.Machine

/-! ## Elaboration (70_reset_and_hazards.md R197) -/

theorem elaborate_of_legal {sf m : Nat} (n : Numerics) (h : 2 ≤ sf ∧ sf ≤ 16 ∧ 1 ≤ m ∧ m ≤ 65535) :
    ∃ p, Params.elaborate sf m n = some p ∧ p.sf = sf ∧ p.mtuMax = m ∧ p.num = n :=
  ⟨_, dif_pos h, rfl, rfl, rfl⟩

theorem elaborate_of_illegal {sf m : Nat} (n : Numerics) (h : ¬(2 ≤ sf ∧ sf ≤ 16 ∧ 1 ≤ m ∧ m ≤ 65535)) :
    Params.elaborate sf m n = none := dif_neg h

theorem CoreMove.params_eq {s t : State} (h : CoreMove s t) : t.params = s.params := by
  cases h with
  | idle => rfl
  | sync | skip | skipAfterBoth | downchirp0 | downchirp1 | quarterchirp => simp
  | symbol | lastSymbol => simp [symbolStored]

theorem HostMove.params_eq {w : Hcw} {s t : State} (h : HostMove w s t) : t.params = s.params := by
  cases h with
  | read | ignored | enables | cleared | syncwordSet | mtuSet => rfl
  | activated => simp [restarted]
  | activationRefused | mtuRefused | writeRefused | readRefused => simp

theorem PortMove.params_eq {s t : State} (h : PortMove s t) : t.params = s.params := by
  cases h with
  | supply | rawSpace | decSpace | frameSink => rfl

theorem step_params {s t : State} (h : step s = .next t) : t.params = s.params := by
  rcases step_moves h with ⟨w, -, hmove⟩ | ⟨-, hmove | hmove⟩
  · exact hmove.params_eq
  · exact hmove.params_eq
  · exact hmove.params_eq

/-- Settles O54: elaboration tests the four bounds, an instance carries them as its own facts, and no move writes
the parameters. -/
theorem elaborationChecksParameters : Obligations.ElaborationChecksParameters := by
  refine ⟨fun sf m n => ⟨?legal, elaborate_of_legal n⟩, fun _ _ n => elaborate_of_illegal n,
    fun _ _ => step_params⟩
  case legal =>
    rintro ⟨p, -, rfl, rfl, -⟩
    exact ⟨p.sf_low, p.sf_high, p.mtuMax_low, p.mtuMax_high⟩

/-! ## The sequencer's own state (70_reset_and_hazards.md R200) -/

/-- The state code, PREV, SYMCOUNT and MTU_L are the same. -/
def SameSequencer (s t : State) : Prop :=
  t.seq = s.seq ∧ t.prev = s.prev ∧ t.symcount = s.symcount ∧ t.mtuL = s.mtuL

/-- The state code, PREV, SYMCOUNT and MTU_L have the values an accepted activation sets. -/
def SequencerRestarted (t : State) : Prop :=
  t.seq = SeqState.code .framesync ∧ t.prev = 0#16 ∧ t.symcount = 0#16 ∧ t.mtuL = 0#16

theorem sequencerRestarted_discardBuf_restarted (s : State) : SequencerRestarted (discardBuf (restarted s)) := by
  simp [SequencerRestarted, restarted]

theorem PortMove.sameSequencer {s t : State} (h : PortMove s t) : SameSequencer s t := by
  cases h with
  | supply | rawSpace | decSpace | frameSink => exact ⟨rfl, rfl, rfl, rfl⟩

/-- A host access leaves the sequencer as it is, or is an accepted activation and restarts it. -/
theorem HostMove.sequencer_cases {w : Hcw} {s t : State} (h : HostMove w s t) :
    SameSequencer s t ∨
    (SequencerRestarted t ∧ ∃ d, decode (.hcw w) = .ok (.wrCtrl d) ∧ ctrlActivate d = true ∧ s.mtu ≠ 0#16) := by
  cases h with
  | activated d hw ha hmtu => exact .inr ⟨sequencerRestarted_discardBuf_restarted _, d, hw, ha, hmtu⟩
  | read | ignored | enables | cleared | syncwordSet | mtuSet => exact .inl ⟨rfl, rfl, rfl, rfl⟩
  | activationRefused | mtuRefused | writeRefused | readRefused => exact .inl (by simp [SameSequencer])

/-- An event that is not the engine's turn performs a host access with its word or a port's transition. -/
theorem move_of_perform {e : Event} {s t : State} (he : e ≠ .core) (h : perform e s = .next t) :
    (∃ w, e = .host w ∧ HostMove w s t) ∨ PortMove s t := by
  cases e with
  | core => exact absurd rfl he
  | host w => exact .inl ⟨w, rfl, hostMove_of_hostAccess h⟩
  | supply xs =>
    cases h
    exact .inr (.supply xs)
  | rawSpace n =>
    cases h
    exact .inr (.rawSpace n)
  | decSpace n =>
    cases h
    exact .inr (.decSpace n)
  | frameSink b =>
    cases h
    exact .inr (.frameSink b)

/-- Settles O59: a port's transition leaves the sequencer alone, and of the host accesses only an accepted
activation touches it. -/
theorem onlyStepsAndActivationMoveTheSequencer : Obligations.OnlyStepsAndActivationMoveTheSequencer := by
  intro s t e rest hagenda he h
  rw [step_of_agenda hagenda] at h
  rcases move_of_perform he h with ⟨w, rfl, hmove⟩ | hmove
  · rcases hmove.sequencer_cases with hsame | ⟨hrestarted, d, hw, ha, hmtu⟩
    · exact .inl hsame
    · exact .inr ⟨w, d, rfl, hw, ha, hmtu, hrestarted⟩
  · exact .inl hmove.sameSequencer

/-! ## Construction (70_reset_and_hazards.md R196, R198; 10_state.md R46) -/

/-- The tables are GEN's from construction on. -/
theorem exec_gen_construct (p : Params) : exec .gen (State.construct p) = .next (State.construct p) := rfl

/-- A slot of W that no FEED has written reads as its free value. -/
theorem windowAt_of_window_nil {s : State} (h : s.window = []) (i : Nat) :
    windowAt s i = portSample s.params.num (Config.freeWindow i) := by
  simp [windowAt, h, getSlot]

/-- An entry of BUF that holds no appended symbol reads as its free value. -/
theorem bufAt_of_buf_nil {s : State} (h : s.buf = []) (k : Nat) : bufAt s k = Config.freeSymbol s.bufEpoch k := by
  simp [bufAt, h, getSlot]

/-- Settles O53: the registers' values stand in the construction, GEN has run, and W and BUF are empty. -/
theorem resetValues : Obligations.ResetValues := by
  rintro p s rfl
  exact ⟨rfl, rfl, rfl, rfl, rfl, rfl, rfl, rfl, rfl, rfl, rfl, rfl, rfl, rfl, exec_gen_construct p,
    windowAt_of_window_nil rfl, bufAt_of_buf_nil rfl⟩

end Sys2Proof.Machine
